-- ==== Sys2Proof/Word.lean ====
section
/-! DEFINITION. The word types of the unit: bytes, host words, limbs, and the limb tuples of R9 (what they denote is Machine/Limbs.lean). -/

namespace Sys2Proof

/-- A byte of BUF (R26). -/
abbrev Byte := BitVec 8

/-- A 32-bit host word: a command word, a status word, a BUF word (R52, R80). -/
abbrev Word := BitVec 32

/-- A 64-bit limb (R7 `LIMB`, R9). -/
abbrev Limb := BitVec 64

/-- A 256-bit value as four limbs, least significant first (R9). -/
structure Elem where
  l0 : Limb
  l1 : Limb
  l2 : Limb
  l3 : Limb
  deriving DecidableEq, Repr

/-- A 512-bit value as eight limbs, least significant first (R9). -/
structure Wide where
  l0 : Limb
  l1 : Limb
  l2 : Limb
  l3 : Limb
  l4 : Limb
  l5 : Limb
  l6 : Limb
  l7 : Limb
  deriving DecidableEq, Repr

end Sys2Proof
end

