-- ==== Sys2Proof/Syntax.lean ====
section
/-! DEFINITION. The commands of FRMU-1: one constructor for each row of spec/opcode_table.json (R85), with
the operands its class uses in the order RD, RS1, RS2, IMM (R84, R89). -/

namespace Sys2Proof

/-- An element register number, E0 to E15 (R82). -/
abbrev Reg := Fin 16

/-- The immediate field IMM, 12 bits, unsigned (R81, R83). -/
abbrev Imm := BitVec 12

inductive Instr where
  | nop
  | add (d a b : Reg)
  | sub (d a b : Reg)
  | neg (d a : Reg)
  | dbl (d a : Reg)
  | mul (d a b : Reg)
  | sqr (d a : Reg)
  | eq (a b : Reg)
  | iszero (a : Reg)
  | ishigh (a : Reg)
  | csel (d a b : Reg)
  | setc (imm : Imm)
  | mov (d a : Reg)
  | clr (d : Reg)
  | ldc (d : Reg) (imm : Imm)
  | pow (d a : Reg)
  | powvt (d a : Reg)
  | invert (d a : Reg)
  | sqrt (d a : Reg)
  | shr1 (d a : Reg)
  | fromle (d : Reg)
  | frombe (d : Reg)
  | tole (a : Reg)
  | tobe (a : Reg)
  | hexdec (d : Reg) (imm : Imm)
  | hexenc (a : Reg) (imm : Imm)
  | wide512 (d : Reg)
  | wide384 (d : Reg)
  | okm (d : Reg)
  | fromu64 (d : Reg)
  | fromu32 (d : Reg)
  deriving DecidableEq, Repr

end Sys2Proof
end

