-- ==== Sys2Proof/WellFormed.lean ====
section
/-! DEFINITION. Well-formed commands. Every register number names a register (R82), so the only check is
that an immediate lies in its command's legal set (R83). -/

namespace Sys2Proof

/-- The immediate of a command lies in the legal set of R83; the other commands have none. -/
def Instr.wf : Instr → Bool
  | .setc imm => imm.toNat ≤ 1
  | .ldc _ imm => imm.toNat ≤ 7
  | .hexdec _ imm => imm.toNat ≤ 1
  | .hexenc _ imm => imm.toNat ≤ 3
  | .nop | .add _ _ _ | .sub _ _ _ | .neg _ _ | .dbl _ _ | .mul _ _ _ | .sqr _ _ => true
  | .eq _ _ | .iszero _ | .ishigh _ | .csel _ _ _ | .mov _ _ | .clr _ => true
  | .pow _ _ | .powvt _ _ | .invert _ _ | .sqrt _ _ | .shr1 _ _ => true
  | .fromle _ | .frombe _ | .tole _ | .tobe _ => true
  | .wide512 _ | .wide384 _ | .okm _ | .fromu64 _ | .fromu32 _ => true

end Sys2Proof
end

