-- ==== Sys2Proof/Decode.lean ====
section
/-! DEFINITION. The command encoding of 30_encoding.md: the fields of format F, the opcode map with its
masks, the total decoder that rejects by name (R86, R91), the encoder, and the decoder as the host numbers
an opcode row's bits. -/

namespace Sys2Proof

/-- The operand fields of a command word (R81). -/
structure Fields where
  rd : Reg
  rs1 : Reg
  rs2 : Reg
  imm : Imm
  deriving DecidableEq, Repr

/-- OPC, bits [31:24] (R81). -/
def opcOf (w : Word) : BitVec 8 := w.extractLsb' 24 8

/-- RD [23:20], RS1 [19:16], RS2 [15:12], IMM [11:0] (R81). -/
def fieldsOf (w : Word) : Fields where
  rd := (w.extractLsb' 20 4).toFin
  rs1 := (w.extractLsb' 16 4).toFin
  rs2 := (w.extractLsb' 12 4).toFin
  imm := w.extractLsb' 0 12

/-- The word of format F with these fields (R81). -/
def formatF (opc : BitVec 8) (rd rs1 rs2 : Reg) (imm : Imm) : Word :=
  opc ++ BitVec.ofFin (w := 4) rd ++ BitVec.ofFin (w := 4) rs1 ++ BitVec.ofFin (w := 4) rs2 ++ imm

/-- A row of the opcode map (R85): the opcode, the mask, and the command its fields make. -/
structure Row where
  opc : BitVec 8
  mask : Word
  build : Fields → Instr

/-- The match value of a row, `OPC << 24` (R85). -/
def Row.matchWord (r : Row) : Word := r.opc ++ 0#24

/-- The rows of the commands of 40_arith.md, with NOP. -/
def arithRows : List Row :=
  [⟨0x00, 0xFFFFFFFF, fun _ => .nop⟩,
   ⟨0x01, 0xFF000FFF, fun f => .add f.rd f.rs1 f.rs2⟩,
   ⟨0x02, 0xFF000FFF, fun f => .sub f.rd f.rs1 f.rs2⟩,
   ⟨0x03, 0xFF00FFFF, fun f => .neg f.rd f.rs1⟩,
   ⟨0x04, 0xFF00FFFF, fun f => .dbl f.rd f.rs1⟩,
   ⟨0x05, 0xFF000FFF, fun f => .mul f.rd f.rs1 f.rs2⟩,
   ⟨0x06, 0xFF00FFFF, fun f => .sqr f.rd f.rs1⟩]

/-- The rows of the commands of 41_select.md. -/
def selectRows : List Row :=
  [⟨0x10, 0xFFF00FFF, fun f => .eq f.rs1 f.rs2⟩,
   ⟨0x11, 0xFFF0FFFF, fun f => .iszero f.rs1⟩,
   ⟨0x12, 0xFFF0FFFF, fun f => .ishigh f.rs1⟩,
   ⟨0x13, 0xFF000FFF, fun f => .csel f.rd f.rs1 f.rs2⟩,
   ⟨0x14, 0xFFFFFFFE, fun f => .setc f.imm⟩,
   ⟨0x15, 0xFF00FFFF, fun f => .mov f.rd f.rs1⟩,
   ⟨0x16, 0xFF0FFFFF, fun f => .clr f.rd⟩,
   ⟨0x17, 0xFF0FFFF8, fun f => .ldc f.rd f.imm⟩]

/-- The rows of the commands of 42_derived.md. -/
def derivedRows : List Row :=
  [⟨0x20, 0xFF00FFFF, fun f => .pow f.rd f.rs1⟩,
   ⟨0x21, 0xFF00FFFF, fun f => .powvt f.rd f.rs1⟩,
   ⟨0x22, 0xFF00FFFF, fun f => .invert f.rd f.rs1⟩,
   ⟨0x23, 0xFF00FFFF, fun f => .sqrt f.rd f.rs1⟩,
   ⟨0x24, 0xFF00FFFF, fun f => .shr1 f.rd f.rs1⟩]

/-- The rows of the commands of 43_boundary.md. -/
def boundaryRows : List Row :=
  [⟨0x30, 0xFF0FFFFF, fun f => .fromle f.rd⟩,
   ⟨0x31, 0xFF0FFFFF, fun f => .frombe f.rd⟩,
   ⟨0x32, 0xFFF0FFFF, fun f => .tole f.rs1⟩,
   ⟨0x33, 0xFFF0FFFF, fun f => .tobe f.rs1⟩,
   ⟨0x34, 0xFF0FFFFE, fun f => .hexdec f.rd f.imm⟩,
   ⟨0x35, 0xFFF0FFFC, fun f => .hexenc f.rs1 f.imm⟩,
   ⟨0x36, 0xFF0FFFFF, fun f => .wide512 f.rd⟩,
   ⟨0x37, 0xFF0FFFFF, fun f => .wide384 f.rd⟩,
   ⟨0x38, 0xFF0FFFFF, fun f => .okm f.rd⟩,
   ⟨0x39, 0xFF0FFFFF, fun f => .fromu64 f.rd⟩,
   ⟨0x3A, 0xFF0FFFFF, fun f => .fromu32 f.rd⟩]

/-- The opcode map (R85). -/
def opcodeMap : List Row := arithRows ++ selectRows ++ derivedRows ++ boundaryRows

/-- The row of an opcode; an opcode without one is reserved (R86). -/
def rowOf (opc : BitVec 8) : Option Row := opcodeMap.find? (fun r => r.opc == opc)

/-- Why a word is illegal (R86), in the order R247 checks. -/
inductive Illegal where
  /-- the opcode is not in the map -/
  | reservedOpcode
  /-- an unused field is nonzero, or IMM is outside its legal set -/
  | fieldViolation
  deriving DecidableEq, Repr

/-- The decoder's answer on a word. -/
inductive Decoded where
  | instr (i : Instr)
  | illegal (why : Illegal)
  deriving DecidableEq, Repr

/-- Decode a command word (R91). Total: every word is a command or illegal. -/
def decode (w : Word) : Decoded :=
  match rowOf (opcOf w) with
  | none => .illegal .reservedOpcode
  | some r =>
    if w &&& r.mask = r.matchWord then .instr (r.build (fieldsOf w)) else .illegal .fieldViolation

/-- The word of a command, `OPC<<24 | d<<20 | a<<16 | b<<12 | imm` (R89), unused fields 0 (R84). -/
def encode : Instr → Word
  | .nop => formatF 0x00 0 0 0 0
  | .add d a b => formatF 0x01 d a b 0
  | .sub d a b => formatF 0x02 d a b 0
  | .neg d a => formatF 0x03 d a 0 0
  | .dbl d a => formatF 0x04 d a 0 0
  | .mul d a b => formatF 0x05 d a b 0
  | .sqr d a => formatF 0x06 d a 0 0
  | .eq a b => formatF 0x10 0 a b 0
  | .iszero a => formatF 0x11 0 a 0 0
  | .ishigh a => formatF 0x12 0 a 0 0
  | .csel d a b => formatF 0x13 d a b 0
  | .setc imm => formatF 0x14 0 0 0 imm
  | .mov d a => formatF 0x15 d a 0 0
  | .clr d => formatF 0x16 d 0 0 0
  | .ldc d imm => formatF 0x17 d 0 0 imm
  | .pow d a => formatF 0x20 d a 0 0
  | .powvt d a => formatF 0x21 d a 0 0
  | .invert d a => formatF 0x22 d a 0 0
  | .sqrt d a => formatF 0x23 d a 0 0
  | .shr1 d a => formatF 0x24 d a 0 0
  | .fromle d => formatF 0x30 d 0 0 0
  | .frombe d => formatF 0x31 d 0 0 0
  | .tole a => formatF 0x32 0 a 0 0
  | .tobe a => formatF 0x33 0 a 0 0
  | .hexdec d imm => formatF 0x34 d 0 0 imm
  | .hexenc a imm => formatF 0x35 0 a 0 imm
  | .wide512 d => formatF 0x36 d 0 0 0
  | .wide384 d => formatF 0x37 d 0 0 0
  | .okm d => formatF 0x38 d 0 0 0
  | .fromu64 d => formatF 0x39 d 0 0 0
  | .fromu32 d => formatF 0x3A d 0 0 0

/-- The command word made of the low `nbits` bits of `w`, every bit above 0. A command is one 32-bit word
(R80) with bit 0 its least significant bit, which is the opcode table's numbering. -/
def tableWord (nbits w : Nat) : Word := BitVec.ofNat 32 (w % 2 ^ nbits)

/-- The command the decoder reads from an opcode-table word, none where it is illegal. -/
def decodeTableWord (nbits w : Nat) : Option Instr :=
  match decode (tableWord nbits w) with
  | .instr i => some i
  | .illegal _ => none

end Sys2Proof
end

