-- ==== Sys2Proof/Machine/Limbs.lean ====
section
/-! DEFINITION. What limb tuples denote and the bit-field primitives of R9, R10 and R100: integers of limb
tuples and back, masks, masked selection, and the three exact 64-bit primitives. -/

namespace Sys2Proof

/-- `int(A)` of a limb tuple (R9). -/
def Elem.int (A : Elem) : Nat :=
  A.l0.toNat + 2 ^ 64 * A.l1.toNat + 2 ^ 128 * A.l2.toNat + 2 ^ 192 * A.l3.toNat

/-- `int(T)` of an eight-limb value (R9). -/
def Wide.int (T : Wide) : Nat :=
  T.l0.toNat + 2 ^ 64 * T.l1.toNat + 2 ^ 128 * T.l2.toNat + 2 ^ 192 * T.l3.toNat
    + 2 ^ 256 * T.l4.toNat + 2 ^ 320 * T.l5.toNat + 2 ^ 384 * T.l6.toNat + 2 ^ 448 * T.l7.toNat

/-- `limbs4(n)`, the limb tuple of an integer below 2^256 (R9). -/
def limbs4 (n : Nat) : Elem :=
  ⟨BitVec.ofNat 64 n, BitVec.ofNat 64 (n / 2 ^ 64), BitVec.ofNat 64 (n / 2 ^ 128),
    BitVec.ofNat 64 (n / 2 ^ 192)⟩

/-- The limb tuple of an integer below 2^512 (R9). -/
def limbs8 (n : Nat) : Wide :=
  ⟨BitVec.ofNat 64 n, BitVec.ofNat 64 (n / 2 ^ 64), BitVec.ofNat 64 (n / 2 ^ 128),
    BitVec.ofNat 64 (n / 2 ^ 192), BitVec.ofNat 64 (n / 2 ^ 256), BitVec.ofNat 64 (n / 2 ^ 320),
    BitVec.ofNat 64 (n / 2 ^ 384), BitVec.ofNat 64 (n / 2 ^ 448)⟩

namespace Machine

/-- `M64`, the all-ones limb (R9). -/
def M64 : Limb := 0xffffffffffffffff

/-- `mask(b)`: all ones when b = 1, else 0 (R10). -/
def mask (b : Bool) : Limb := if b then M64 else 0

/-- `sel(a, b, c)` on one limb: b when c = 1, a when c = 0, by masks (R10). -/
def selLimb (a b : Limb) (c : Bool) : Limb := (a &&& ~~~(mask c)) ||| (b &&& mask c)

/-- `sel(a, b, c)` limb by limb (R10). -/
def sel (a b : Elem) (c : Bool) : Elem :=
  ⟨selLimb a.l0 b.l0 c, selLimb a.l1 b.l1 c, selLimb a.l2 b.l2 c, selLimb a.l3 b.l3 c⟩

/-- `sel` on the small integers of R175. -/
def selNat (a b : Nat) (c : Bool) : Nat := if c then b else a

/-- The pair (lo, hi) of the exact integer t (R100). -/
def loHi (t : Nat) : Limb × Limb := (BitVec.ofNat 64 t, BitVec.ofNat 64 (t / 2 ^ 64))

/-- `mac(a, b, c, carry)`: a + b*c + carry (R100). -/
def mac (a b c carry : Limb) : Limb × Limb := loHi (a.toNat + b.toNat * c.toNat + carry.toNat)

/-- `adc(a, b, carry)`: a + b + carry (R100). -/
def adc (a b carry : Limb) : Limb × Limb := loHi (a.toNat + b.toNat + carry.toNat)

/-- `sbb(a, b, borrow)`: (a - (b + borrow[63])) mod 2^128; the borrow is 0 or M64 (R100). -/
def sbb (a b borrow : Limb) : Limb × Limb :=
  loHi ((2 ^ 128 + a.toNat - (b.toNat + borrow.toNat / 2 ^ 63)) % 2 ^ 128)

/-- The state of a loop counted down: f is applied for the indices n-1, ..., 0 (R171, R175). -/
def countDown {α : Type} (f : Nat → α → α) : Nat → α → α
  | 0, x => x
  | n + 1, x => countDown f n (f n x)

/-- The state of a loop counted up: f is applied for the n indices from j on (R175). -/
def countUp {α : Type} (f : Nat → α → α) : Nat → Nat → α → α
  | 0, _, x => x
  | n + 1, j, x => countUp f n (j + 1) (f j x)

end Machine

end Sys2Proof
end

