-- ==== Sys2Proof/Machine/Rom.lean ====
section
/-! DEFINITION. The constant store (R33): every constant the rules name, as the rules write it. No command
and no host access writes it, and no reset changes it (R275), so it is not part of State.
The values are UNVERIFIED: the spec takes them from general knowledge (93 K1, K5 to K10; log 11). -/

namespace Sys2Proof.Machine

/-- The modulus q as an integer (R2, R101). -/
def q : Nat := 0x73eda753299d7d483339d80809a1d80553bda402fffe5bfeffffffff00000001

/-- `Q`, the modulus as limbs (R101). -/
def Q : Elem := ⟨0xffffffff00000001, 0x53bda402fffe5bfe, 0x3339d80809a1d805, 0x73eda753299d7d48⟩

/-- `INV`, the negated inverse of q's low limb mod 2^64 (R101). -/
def INV : Limb := 0xfffffffeffffffff

/-- `R` = 2^256 mod q, the stored value of 1 (R101). -/
def R : Elem := ⟨0x00000001fffffffe, 0x5884b7fa00034802, 0x998c4fefecbc4ff5, 0x1824b159acc5056f⟩

/-- `R2` = 2^512 mod q (R101). -/
def R2 : Elem := ⟨0xc999e990f3f29c6d, 0x2b6cedcb87925c23, 0x05d314967254398f, 0x0748d9d99f59ff11⟩

/-- `R3` = 2^768 mod q (R101). -/
def R3 : Elem := ⟨0xc62c1807439b73af, 0x1b3e0d188cf06990, 0x73d13c71c7b5f418, 0x6e2a5bb9c8db33e9⟩

/-- `HALF` = (q-1)/2 as a plain limb tuple (R142). -/
def HALF : Elem := ⟨0x7fffffff80000000, 0xa9ded2017fff2dff, 0x199cec0404d0ec02, 0x39f6d3a994cebea4⟩

/-- `F2_192` = mont(2^192) = 2^448 mod q (R212). -/
def F2_192 : Elem := ⟨0x59476ebc41b4528f, 0xc5a30cb243fcc152, 0x2b34e63940ccbd72, 0x1e179025ca247088⟩

/-- `S`, the 2-adicity (R7, R174). -/
def twoAdicity : Nat := 32

/-- `t` = (q-1)/2^S, the odd part of q-1 (R174). -/
def oddPart : Nat := 0x73eda753299d7d483339d80809a1d80553bda402fffe5bfeffffffff

/-- `TM1D2` = (t-1)/2, the exponent of the square root (R174). -/
def TM1D2 : Nat := 0x39f6d3a994cebea4199cec0404d0ec02a9ded2017fff2dff7fffffff

/-- The stored limbs of ZERO, constant 0 of R147. -/
def ZERO : Elem := ⟨0, 0, 0, 0⟩

/-- `ONE` = mont(1), constant 1 of R147: the limbs of R. -/
def ONE : Elem := R

/-- `ZROOT` = mont(ROOT_OF_UNITY), constant 4 of R147 (R174). -/
def ZROOT : Elem := ⟨0xb9b58d8c5f0e466a, 0x5b1b4c801819d7ec, 0x0af53ae352a31e64, 0x5bf3adda19e9b27b⟩

/-- The stored limbs mont(CONST[k]) of the eight loadable constants, k = 0 to 7 (R147): ZERO, ONE, TWO_INV,
GENERATOR, ROOT_OF_UNITY, ROOT_OF_UNITY_INV, DELTA, MODULUS_HALF. -/
def loadable : List Elem :=
  [ZERO, ONE,
   ⟨0x00000000ffffffff, 0xac425bfd0001a401, 0xccc627f7f65e27fa, 0x0c1258acd66282b7⟩,
   ⟨0x0000000efffffff1, 0x17e363d300189c0f, 0xff9c57876f8457b0, 0x351332208fc5a8c4⟩,
   ZROOT,
   ⟨0x4256481adcf3219a, 0x45f37b7f96b6cad3, 0xf9c3f1d75f7a3b27, 0x2d2fc049658afd43⟩,
   ⟨0x70e310d3d146f96a, 0x4b64c08919e299e6, 0x51e114186a8b970d, 0x6185d06627c067cb⟩,
   ⟨0xfffffffe00000002, 0xa77b4805fffcb7fd, 0x6673b0101343b00a, 0x67db4ea6533afa90⟩]

/-- `ID`, hardwired (R29). -/
def idWord : Word := 0x46524D31

end Sys2Proof.Machine
end

