-- ==== Sys2Proof/Machine/Datapath.lean ====
section
/-! DEFINITION. The shared datapath at the limb level: trial subtraction (R104, R105), the schoolbook
multiplier (R102), the squaring product (R115), the reduction engine (R106), and what 41 to 43 build on
them (R142, R200, R203, R177). The shapes and carry chains are those of the spec, which takes them from
general knowledge: UNVERIFIED (93 K2 to K4; log 11). -/

namespace Sys2Proof.Machine

/-- `subm(A, B)`: subtract with borrow, then add q back under the borrow's mask (R104). -/
def subm (A B : Elem) : Elem :=
  let d0 := sbb A.l0 B.l0 0
  let d1 := sbb A.l1 B.l1 d0.2
  let d2 := sbb A.l2 B.l2 d1.2
  let d3 := sbb A.l3 B.l3 d2.2
  let br := d3.2
  let e0 := adc d0.1 (Q.l0 &&& br) 0
  let e1 := adc d1.1 (Q.l1 &&& br) e0.2
  let e2 := adc d2.1 (Q.l2 &&& br) e1.2
  let e3 := adc d3.1 (Q.l3 &&& br) e2.2
  ⟨e0.1, e1.1, e2.1, e3.1⟩

/-- `addm(A, B)`: add with carry, then trial subtraction of q (R105). -/
def addm (A B : Elem) : Elem :=
  let s0 := adc A.l0 B.l0 0
  let s1 := adc A.l1 B.l1 s0.2
  let s2 := adc A.l2 B.l2 s1.2
  let s3 := adc A.l3 B.l3 s2.2
  subm ⟨s0.1, s1.1, s2.1, s3.1⟩ Q

/-- One row of the schoolbook multiplier: t + a * B over four limbs, as the low limb and the four above
(R102). -/
def mulRow (t : Elem) (a : Limb) (B : Elem) : Limb × Elem :=
  let m0 := mac t.l0 a B.l0 0
  let m1 := mac t.l1 a B.l1 m0.2
  let m2 := mac t.l2 a B.l2 m1.2
  let m3 := mac t.l3 a B.l3 m2.2
  (m0.1, ⟨m1.1, m2.1, m3.1, m3.2⟩)

/-- `schoolbook(A, B)`, row i being A.l[i] times B (R102). -/
def schoolbook (A B : Elem) : Wide :=
  let r0 := mulRow ZERO A.l0 B
  let r1 := mulRow r0.2 A.l1 B
  let r2 := mulRow r1.2 A.l2 B
  let r3 := mulRow r2.2 A.l3 B
  ⟨r0.1, r1.1, r2.1, r3.1, r3.2.l0, r3.2.l1, r3.2.l2, r3.2.l3⟩

/-- `square_product(A)`: the eight limbs of int(A)^2. The spec fixes the product and leaves the squarer's
schedule to the implementation (R115, U14; log 1). -/
def squareProduct (A : Elem) : Wide := limbs8 (A.int * A.int)

/-- One round of the reduction engine on r[i], ..., r[i+4]: the limbs r[i+1..i+4] it leaves and carry2
(R106). -/
def redcRound (r0 r1 r2 r3 r4 carry2 : Limb) : Elem × Limb :=
  let k := r0 * INV
  let m0 := mac r0 k Q.l0 0
  let m1 := mac r1 k Q.l1 m0.2
  let m2 := mac r2 k Q.l2 m1.2
  let m3 := mac r3 k Q.l3 m2.2
  let s := adc r4 carry2 m3.2
  (⟨m1.1, m2.1, m3.1, s.1⟩, s.2)

/-- `redc(T)`: four rounds, then one trial subtraction; the carry out of r[7] is discarded (R106). -/
def redc (T : Wide) : Elem :=
  let a := redcRound T.l0 T.l1 T.l2 T.l3 T.l4 0
  let b := redcRound a.1.l0 a.1.l1 a.1.l2 a.1.l3 T.l5 a.2
  let c := redcRound b.1.l0 b.1.l1 b.1.l2 b.1.l3 T.l6 b.2
  let d := redcRound c.1.l0 c.1.l1 c.1.l2 c.1.l3 T.l7 c.2
  subm d.1 Q

/-- `mul(X, Y)` of 42 and 43: the Montgomery product (R114). -/
def mul (A B : Elem) : Elem := redc (schoolbook A B)

/-- `sqr(X)`: the Montgomery square (R115). -/
def sqr (A : Elem) : Elem := redc (squareProduct A)

/-- A stored value padded with zero limbs, the input of `canon` (R203). -/
def padded (A : Elem) : Wide := ⟨A.l0, A.l1, A.l2, A.l3, 0, 0, 0, 0⟩

/-- `canon(A)`: the canonical value of a stored value (R203). -/
def canon (A : Elem) : Elem := redc (padded A)

/-- The last borrow of A - B, limb by limb: M64 exactly when int(A) < int(B) (R142, R200). -/
def borrowOf (A B : Elem) : Limb :=
  let b0 := (sbb A.l0 B.l0 0).2
  let b1 := (sbb A.l1 B.l1 b0).2
  let b2 := (sbb A.l2 B.l2 b1).2
  (sbb A.l3 B.l3 b2).2

/-- `lt_q(N)`, the canonical range check (R200). -/
def ltQ (N : Elem) : Bool := (borrowOf N Q).getLsbD 0

/-- Modular negation with the masked zero (R112). -/
def negm (A : Elem) : Elem :=
  let n0 := sbb Q.l0 A.l0 0
  let n1 := sbb Q.l1 A.l1 n0.2
  let n2 := sbb Q.l2 A.l2 n1.2
  let n3 := sbb Q.l3 A.l3 n2.2
  let z := A.l0 ||| A.l1 ||| A.l2 ||| A.l3
  let m : Limb := (if z = 0 then 1 else 0) - 1
  ⟨n0.1 &&& m, n1.1 &&& m, n2.1 &&& m, n3.1 &&& m⟩

/-- The limbs of a value shifted right by one bit (R177). -/
def shiftRight1 (c : Elem) : Elem :=
  ⟨(c.l0 >>> 1) ||| (c.l1 <<< 63), (c.l1 >>> 1) ||| (c.l2 <<< 63),
    (c.l2 >>> 1) ||| (c.l3 <<< 63), c.l3 >>> 1⟩

/-- `mul(limbs4(n), R2)`: an integer below 2^256 lifted into Montgomery form (R201, R213). -/
def lift (n : Nat) : Elem := mul (limbs4 n) R2

/-- `wide(n)`, the reduction of an integer below 2^512 (R209, 90_conflicts C3). -/
def wide (n : Nat) : Elem :=
  addm (mul (limbs4 (n % 2 ^ 256)) R2) (mul (limbs4 (n / 2 ^ 256)) R3)

end Sys2Proof.Machine
end

