-- ==== Sys2Proof/Config.lean ====
section
/-! DEFINITION. What the spec leaves open: the OPEN parameters of R7 and section "OPEN parameters" of
92_eei_decisions.md, and the free values. A constant without a body has no value a proof can see. -/

namespace Sys2Proof

/-- The number of the 256-byte page the platform puts the window at. OPEN: `BASE` is a multiple of 256 and
nothing else is known of it (R50, U16; log 8). -/
opaque Config.basePage : Nat

/-- `BASE`, the host byte address of the window (R50). -/
def Config.base : Nat := 256 * Config.basePage

/-- The word a host read of BUF returns while the engine is busy: one free draw for each number of the
draw (R60, U1; log 6). -/
opaque Config.freeWord : Nat → Word

/-- The values of the OPEN parameter `SQRT_ROOT_CHOICE` (R175, D24, U8). -/
inductive RootChoice where
  /-- the root the loop of R175 gives -/
  | exact
  /-- either of the two roots, at the unit's choice -/
  | either
  deriving DecidableEq, Repr

/-- The parameter's value in this machine: the spec's default (D24). DESIGN CHOICE, log 3. -/
def Config.sqrtRootChoice : RootChoice := .exact

/-- Under `either`, whether the unit returns the negation of the loop's root, for each operand: a free bit
(U8; log 3). -/
opaque Config.negatesRoot : Elem → Bool

end Sys2Proof
end

