-- ==== Sys2Proof/Machine/State.lean ====
section
/-! DEFINITION. The state of the unit (R38), the events of the world around it, the reasons a step stops,
and the state after reset. -/

namespace Sys2Proof.Machine

/-- BUF as a list of (index, byte) pairs (R26; log 15): indices rising, below 64, and no byte equal to
0x00, which is what an unlisted index reads as, the reset contents of R38. -/
abbrev Memory := List Host.Cell

/-- One transition of the world around the unit. A host access carries its width in bits and its offset in
the window, `address - BASE` (R50, R52; log 4, 8). -/
inductive Event where
  /-- the engine's turn (R20) -/
  | engine
  /-- a host read -/
  | read (width : Nat) (off : BitVec 8)
  /-- a host write of a word -/
  | write (width : Nat) (off : BitVec 8) (data : Word)
  /-- the platform's reset input (R270) -/
  | hardReset
  deriving DecidableEq, Repr

/-- The machine's state. -/
structure State where
  /-- E0-E15 (R21) -/
  regs : Vector Elem 16
  /-- VALID[15:0] (R21) -/
  valid : BitVec 16
  /-- the choice flag C (R25) -/
  c : Bool
  /-- BUF (R26) -/
  buf : Memory
  /-- BUSY (R27) -/
  busy : Bool
  /-- PEND (R27) -/
  pend : Word
  /-- LASTCMD (R27) -/
  lastCmd : Word
  /-- ERR (R28) -/
  err : Bool
  /-- ERRCODE (R28) -/
  errCode : BitVec 4
  /-- the events still to happen, the next one first; the model's own (log 4) -/
  script : List Event
  /-- the words returned to host reads, newest first; the model's own (log 5) -/
  replies : List Word
  /-- how many free words have been drawn; the model's own (log 6) -/
  draws : Nat
  deriving DecidableEq, Repr

/-- Why the machine stops with a fault. -/
inductive Fault where
  /-- Raised by `step` when the next event is a host access the window refuses: a width other than 32 bits
  or an offset that is not a multiple of 4. "A model must give a refused access no step" (R53, U3). Safe:
  the machine stops where the hardware goes on (log 7). -/
  | stuckAtRefusedAccess
  deriving DecidableEq, Repr

/-- Why the machine refuses a command. -/
inductive Refusal where
  /-- Raised by `exec` for a command that has no meaning yet. No arm does. Safe. -/
  | notModelled (mnemonic : String)
  deriving DecidableEq, Repr

/-- The state after reset (R38, R270). The three fields of the model's own are empty (log 4, 5, 6). -/
def State.reset : State where
  regs := Vector.replicate 16 ⟨0, 0, 0, 0⟩
  valid := 0
  c := false
  buf := []
  busy := false
  pend := 0
  lastCmd := 0
  err := false
  errCode := 0
  script := []
  replies := []
  draws := 0

end Sys2Proof.Machine
end

