-- ==== Sys2Proof/Machine/Ops.lean ====
section
/-! DEFINITION. The named operations over the state: BUF, the element registers, the choice flag, errors,
issue, completion and reset. Every meaning and every host access is made of these. -/

namespace Sys2Proof.Machine

/-- The number of bytes of BUF (R7 `BUFSZ`). -/
def bufSize : Nat := 64

/-- The form of BUF's list: indices rising and below 64, no byte 0x00 (log 15). -/
abbrev Memory.wf (m : Memory) : Prop :=
  m.Pairwise (fun x y => x.1 < y.1) ∧ ∀ x ∈ m, x.1 < bufSize ∧ x.2 ≠ 0#8

/-- BUF[i]. An unlisted index reads 0x00, the reset contents (R38). -/
def Memory.read (i : Nat) : Memory → Byte
  | [] => 0#8
  | (j, b) :: rest => if j = i then b else Memory.read i rest

/-- BUF[i] <- v, keeping the form. -/
def Memory.write (i : Nat) (v : Byte) : Memory → Memory
  | [] => if v = 0#8 then [] else [(i, v)]
  | (j, b) :: rest =>
    if i < j then
      if v = 0#8 then (j, b) :: rest else (i, v) :: (j, b) :: rest
    else if i = j then
      if v = 0#8 then rest else (i, v) :: rest
    else (j, b) :: Memory.write i v rest

/-- `BufRead(off, n)`: the bytes BUF[off..off+n-1] (R10). -/
def Memory.readBytes (m : Memory) (off : Nat) : Nat → List Byte
  | 0 => []
  | n + 1 => m.read off :: m.readBytes (off + 1) n

/-- `BufWrite(off, n, bytes)` with n the number of bytes (R10). -/
def Memory.writeBytes (off : Nat) : List Byte → Memory → Memory
  | [], m => m
  | b :: bs, m => Memory.writeBytes (off + 1) bs (m.write off b)

/-- The stored value of Ei (R21). -/
def State.elem (s : State) (i : Reg) : Elem := s.regs[i]

/-- VALID[i] (R21). -/
def State.validAt (s : State) (i : Reg) : Bool := s.valid.getLsbD i

/-- VALID with bit i replaced by b. -/
def setValidBit (v : BitVec 16) (i : Reg) (b : Bool) : BitVec 16 :=
  if b then v ||| (1#16 <<< i.val) else v &&& ~~~(1#16 <<< i.val)

/-- E[d] <- v; VALID[d] <- ok. The one operation that writes a register (R21). -/
def State.putElem (s : State) (d : Reg) (v : Elem) (ok : Bool) : State :=
  { s with regs := s.regs.set d v, valid := setValidBit s.valid d ok }

/-- C <- b (R25). -/
def State.putC (s : State) (b : Bool) : State := { s with c := b }

/-- The outcome of a command that may be empty: E[d] <- v, VALID[d] <- ok, C <- ok (R14). -/
def State.putMaybe (s : State) (d : Reg) (v : Elem) (ok : Bool) : State := (s.putElem d v ok).putC ok

/-- BufRead on the state's BUF (R10, R69). -/
def State.bufRead (s : State) (off n : Nat) : List Byte := s.buf.readBytes off n

/-- BufWrite on the state's BUF (R10, R69). -/
def State.bufWrite (s : State) (off : Nat) (bs : List Byte) : State :=
  { s with buf := s.buf.writeBytes off bs }

/-- The errors the unit records (R241). -/
inductive ErrorCode where
  | illegal
  | uninit
  | overrun
  | busyAccess
  deriving DecidableEq, Repr

/-- The code of an error in ERRCODE (R241). -/
def errorNumber : ErrorCode → BitVec 4
  | .illegal => 1
  | .uninit => 2
  | .overrun => 3
  | .busyAccess => 4

/-- `record(k)`: keep the first code since the last clear, set ERR (R241). -/
def State.record (s : State) (e : ErrorCode) : State :=
  { s with errCode := if s.errCode = 0#4 then errorNumber e else s.errCode, err := true }

/-- `raise Error(k)` of a command: the error is recorded and nothing else happens (R10, R241, R249). The
unit has no other exception entry (R240). -/
def raiseError (e : ErrorCode) (s : State) : Host.Outcome State Fault Refusal := .next (s.record e)

/-- The recovery: CTRL.ERRCLR clears ERR and ERRCODE (R32, R250). The unit has no other return from an
error (R249). -/
def State.clearError (s : State) : State := { s with err := false, errCode := 0 }

/-- A command with these source registers: UNINIT when one holds no value (R22, R244), otherwise its
effect. -/
def withSources (srcs : List Reg) (s : State) (effect : State) : Host.Outcome State Fault Refusal :=
  if srcs.all s.validAt then .next effect else raiseError .uninit s

/-- The issue of a command word: PEND <- w; LASTCMD <- w; BUSY <- 1 (R31). -/
def State.issue (s : State) (w : Word) : State := { s with pend := w, lastCmd := w, busy := true }

/-- The end of an engine step: BUSY <- 0 (R241, R283). -/
def State.complete (s : State) : State := { s with busy := false }

/-- Hard reset and soft reset: every piece of the unit's state takes its value of R38; what stands for the
outside world is not the unit's and stays (R270, R271; log 9). -/
def State.resetUnit (s : State) : State :=
  { State.reset with script := s.script, replies := s.replies, draws := s.draws }

/-- The unit answers a host read with w (log 5). -/
def State.reply (s : State) (w : Word) : State := { s with replies := w :: s.replies }

end Sys2Proof.Machine
end

