-- ==== Sys2Proof/Machine/Operands.lean ====
section
/-! DEFINITION. The operands of commands: source registers (R84), byte orders (R10, R54, R55), the exponent
(R170), hexadecimal strings (R206), and the integers each boundary command reads from BUF. -/

namespace Sys2Proof.Machine

/-- The source registers of a command, RS1 before RS2 (R84, R91). -/
def sources : Instr → List Reg
  | .add _ a b | .sub _ a b | .mul _ a b | .csel _ a b | .eq a b => [a, b]
  | .neg _ a | .dbl _ a | .sqr _ a | .mov _ a | .shr1 _ a => [a]
  | .pow _ a | .powvt _ a | .invert _ a | .sqrt _ a => [a]
  | .iszero a | .ishigh a | .tole a | .tobe a | .hexenc a _ => [a]
  | .nop | .setc _ | .clr _ | .ldc _ _ => []
  | .fromle _ | .frombe _ | .hexdec _ _ => []
  | .wide512 _ | .wide384 _ | .okm _ | .fromu64 _ | .fromu32 _ => []

/-- `le(bytes)` (R10). -/
def leInt : List Byte → Nat
  | [] => 0
  | b :: bs => b.toNat + 256 * leInt bs

/-- `be(bytes)` (R10). -/
def beInt (bs : List Byte) : Nat := leInt bs.reverse

/-- `le_bytes(n, k)` (R10). -/
def leBytes (n : Nat) : Nat → List Byte
  | 0 => []
  | k + 1 => BitVec.ofNat 8 n :: leBytes (n / 256) k

/-- `be_bytes(n, k)` (R10). -/
def beBytes (n k : Nat) : List Byte := (leBytes n k).reverse

/-- The bytes of a string order: big-endian for 0, little-endian for 1 (R207, R208). -/
def orderedInt (little : Bool) (bs : List Byte) : Nat := if little then leInt bs else beInt bs

/-- The 32 bytes of an integer in a string order (R208). -/
def orderedBytes (little : Bool) (n : Nat) : List Byte := if little then leBytes n 32 else beBytes n 32

/-- The exponent e of POW and POWVT: le(BUF[0..31]) (R170). -/
def exponent (s : State) : Nat := leInt (s.bufRead 0 32)

/-- `nib(ch)`: the value and the valid bit of a hex character (R206). -/
def nib (ch : Byte) : Nat × Bool :=
  let n := ch.toNat
  if 0x30 ≤ n ∧ n ≤ 0x39 then (n - 0x30, true)
  else if 0x61 ≤ n ∧ n ≤ 0x66 then (n - 0x61 + 10, true)
  else if 0x41 ≤ n ∧ n ≤ 0x46 then (n - 0x41 + 10, true)
  else (0, false)

/-- `hexchr(v, upper)` for a nibble v (R206). -/
def hexChr (v : Nat) (upper : Bool) : Byte :=
  BitVec.ofNat 8 (if v < 10 then 0x30 + v else if upper then 0x41 + v - 10 else 0x61 + v - 10)

/-- The bytes of a hex string, two characters a byte, high nibble first, and whether every character was a
hex character (R206, R207). A last odd character does not occur: BUF holds 64. -/
def hexBytes : List Byte → List Byte × Bool
  | h :: l :: rest =>
    let (bs, ok) := hexBytes rest
    (BitVec.ofNat 8 (16 * (nib h).1 + (nib l).1) :: bs, (nib h).2 && ((nib l).2 && ok))
  | _ => ([], true)

/-- The hex string of a list of bytes (R206, R208). -/
def hexString (upper : Bool) : List Byte → List Byte
  | [] => []
  | b :: bs => hexChr (b.toNat / 16) upper :: hexChr (b.toNat % 16) upper :: hexString upper bs

/-- The word of four BUF bytes, little-endian (R54). -/
def wordOf (bs : List Byte) : Word := BitVec.ofNat 32 (leInt bs)

/-- The four bytes of a host word, little-endian (R54). -/
def bytesOf (w : Word) : List Byte := leBytes w.toNat 4

end Sys2Proof.Machine
end

