-- ==== Sys2Proof/Machine/Flags.lean ====
section
/-! DEFINITION. The computations of the choice flag and of the presence bit of maybe results (R25), each
folded over all four limbs as the rules write it. -/

namespace Sys2Proof.Machine

/-- The equality bit of EQ: the OR of the XORs of all four limbs is zero (R140). -/
def eqBit (A B : Elem) : Bool :=
  ((A.l0 ^^^ B.l0) ||| (A.l1 ^^^ B.l1) ||| (A.l2 ^^^ B.l2) ||| (A.l3 ^^^ B.l3)) == 0

/-- The zero bit of ISZERO: the OR of all four limbs is zero (R141). -/
def zeroBit (A : Elem) : Bool := (A.l0 ||| A.l1 ||| A.l2 ||| A.l3) == 0

/-- The high-half bit of ISHIGH: the borrow of HALF minus the canonical value (R142). -/
def highBit (A : Elem) : Bool := (borrowOf HALF (canon A)).getLsbD 0

/-- The presence bit of INVERT: the operand is not zero (R173). -/
def nonzeroBit (A : Elem) : Bool := !(zeroBit A)

/-- The presence bit of SQRT: the candidate's square is the operand (R175). -/
def rootBit (x A : Elem) : Bool := eqBit (sqr x) A

end Sys2Proof.Machine
end

