-- ==== Sys2Proof/Machine/Arith.lean ====
section
/-! DEFINITION. The meanings of the commands of 40_arith.md. -/

namespace Sys2Proof.Machine

/-- `ADD Ed, Ea, Eb` (R110). -/
def execAdd (d a b : Reg) (s : State) : Host.Outcome State Fault Refusal :=
  withSources [a, b] s (s.putElem d (addm (s.elem a) (s.elem b)) true)

/-- `SUB Ed, Ea, Eb`: Ea minus Eb (R111). -/
def execSub (d a b : Reg) (s : State) : Host.Outcome State Fault Refusal :=
  withSources [a, b] s (s.putElem d (subm (s.elem a) (s.elem b)) true)

/-- `NEG Ed, Ea` (R112). -/
def execNeg (d a : Reg) (s : State) : Host.Outcome State Fault Refusal :=
  withSources [a] s (s.putElem d (negm (s.elem a)) true)

/-- `DBL Ed, Ea` (R113). -/
def execDbl (d a : Reg) (s : State) : Host.Outcome State Fault Refusal :=
  withSources [a] s (s.putElem d (addm (s.elem a) (s.elem a)) true)

/-- `MUL Ed, Ea, Eb` (R114). -/
def execMul (d a b : Reg) (s : State) : Host.Outcome State Fault Refusal :=
  withSources [a, b] s (s.putElem d (mul (s.elem a) (s.elem b)) true)

/-- `SQR Ed, Ea` (R115). -/
def execSqr (d a : Reg) (s : State) : Host.Outcome State Fault Refusal :=
  withSources [a] s (s.putElem d (sqr (s.elem a)) true)

end Sys2Proof.Machine
end

