-- ==== Sys2Proof/Machine/Boundary.lean ====
section
/-! DEFINITION. The meanings of the commands of 43_boundary.md. An immediate outside its legal set raises
ILLEGAL before any source is checked (R247; log 13). -/

namespace Sys2Proof.Machine

/-- A validating decode of an integer below 2^256: the lifted value, present when the string was readable
and the integer is below q (R201, R207). -/
def decodeInto (d : Reg) (n : Nat) (readable : Bool) (s : State) : State :=
  s.putMaybe d (lift n) (readable && ltQ (limbs4 n))

/-- `FROMLE Ed` (R201). -/
def execFromle (d : Reg) (s : State) : Host.Outcome State Fault Refusal :=
  .next (decodeInto d (leInt (s.bufRead 0 32)) true s)

/-- `FROMBE Ed` (R202). -/
def execFrombe (d : Reg) (s : State) : Host.Outcome State Fault Refusal :=
  .next (decodeInto d (beInt (s.bufRead 0 32)) true s)

/-- `TOLE Ea` (R204). -/
def execTole (a : Reg) (s : State) : Host.Outcome State Fault Refusal :=
  withSources [a] s (s.bufWrite 0 (leBytes (canon (s.elem a)).int 32))

/-- `TOBE Ea` (R205). -/
def execTobe (a : Reg) (s : State) : Host.Outcome State Fault Refusal :=
  withSources [a] s (s.bufWrite 0 (beBytes (canon (s.elem a)).int 32))

/-- `HEXDEC Ed, #o`: bit 0 of the immediate is the string order (R207). -/
def execHexdec (d : Reg) (imm : Imm) (s : State) : Host.Outcome State Fault Refusal :=
  if imm.toNat ≤ 1 then
    let str := hexBytes (s.bufRead 0 64)
    .next (decodeInto d (orderedInt (imm.getLsbD 0) str.1) str.2 s)
  else raiseError .illegal s

/-- `HEXENC Ea, #f`: bit 0 of the immediate is the letter case, bit 1 the string order (R208). -/
def execHexenc (a : Reg) (imm : Imm) (s : State) : Host.Outcome State Fault Refusal :=
  if imm.toNat ≤ 3 then
    withSources [a] s
      (s.bufWrite 0
        (hexString (imm.getLsbD 0) (orderedBytes (imm.getLsbD 1) (canon (s.elem a)).int)))
  else raiseError .illegal s

/-- `WIDE512 Ed` (R210). -/
def execWide512 (d : Reg) (s : State) : Host.Outcome State Fault Refusal :=
  .next (s.putElem d (wide (leInt (s.bufRead 0 64))) true)

/-- `WIDE384 Ed` (R211). -/
def execWide384 (d : Reg) (s : State) : Host.Outcome State Fault Refusal :=
  .next (s.putElem d (wide (leInt (s.bufRead 0 48))) true)

/-- `OKM Ed`: two 24-byte big-endian halves (R212). -/
def execOkm (d : Reg) (s : State) : Host.Outcome State Fault Refusal :=
  .next (s.putElem d
    (addm (mul (lift (beInt (s.bufRead 0 24))) F2_192) (lift (beInt (s.bufRead 24 24)))) true)

/-- `FROMU64 Ed` (R213). -/
def execFromu64 (d : Reg) (s : State) : Host.Outcome State Fault Refusal :=
  .next (s.putElem d (lift (leInt (s.bufRead 0 8))) true)

/-- `FROMU32 Ed` (R214). -/
def execFromu32 (d : Reg) (s : State) : Host.Outcome State Fault Refusal :=
  .next (s.putElem d (lift (leInt (s.bufRead 0 4))) true)

end Sys2Proof.Machine
end

