-- ==== Sys2Proof/Machine/Derived.lean ====
section
/-! DEFINITION. The sequencers and meanings of 42_derived.md: exponentiation, inversion, the
Tonelli–Shanks square root, and the shift. Their loop variables are engine scratch (R35). -/

namespace Sys2Proof.Machine

/-- One iteration of POW for the exponent bit `bit`: square, multiply, keep one by a masked select (R171). -/
def powStep (base : Elem) (bit : Bool) (acc : Elem) : Elem :=
  let squared := sqr acc
  let tmp := mul squared base
  sel squared tmp bit

/-- The loop of POW from bit n-1 down to bit 0 (R171). -/
def powLoop (base : Elem) (e n : Nat) (acc : Elem) : Elem :=
  countDown (fun i x => powStep base (e.testBit i) x) n acc

/-- One iteration of POWVT: the multiply is skipped for a zero bit (R172). -/
def powVtStep (base : Elem) (bit : Bool) (acc : Elem) : Elem :=
  let squared := sqr acc
  if bit then mul squared base else squared

/-- The loop of POWVT (R172). -/
def powVtLoop (base : Elem) (e n : Nat) (acc : Elem) : Elem :=
  countDown (fun i x => powVtStep base (e.testBit i) x) n acc

/-- The power of POW over all 256 bits of the exponent (R171). -/
def powCt (base : Elem) (e : Nat) : Elem := powLoop base e 256 ONE

/-- The power of POWVT (R172). -/
def powVt (base : Elem) (e : Nat) : Elem := powVtLoop base e 256 ONE

/-- `chain(A)`: the power q-2. Only the exponent is normative (R173, N6, U13); the model computes it by the
loop of R171 (log 2). -/
def invChain (A : Elem) : Elem := powCt A (q - 2)

/-- The variables of the inner loop of R175. -/
structure RootInner where
  z : Elem
  tmp : Elem
  k : Nat
  jlt : Bool
  deriving DecidableEq, Repr

/-- The variables of the outer loop of R175. -/
structure RootOuter where
  x : Elem
  b : Elem
  z : Elem
  v : Nat
  deriving DecidableEq, Repr

/-- One iteration j of the inner loop of R175. -/
def rootInnerStep (v j : Nat) (s : RootInner) : RootInner :=
  let tio := eqBit s.tmp ONE
  let squared := sqr (sel s.tmp s.z tio)
  let newZ := sel s.z squared tio
  let jlt := s.jlt && (j != v)
  ⟨sel s.z newZ jlt, sel squared s.tmp tio, selNat j s.k tio, jlt⟩

/-- The inner loop of R175: n iterations from j on. -/
def rootInner (v n j : Nat) (s : RootInner) : RootInner := countUp (rootInnerStep v) n j s

/-- One iteration max_v of the outer loop of R175: j runs from 2 to max_v - 1. -/
def rootOuterStep (maxV : Nat) (s : RootOuter) : RootOuter :=
  let inner := rootInner s.v (maxV - 2) 2 ⟨s.z, sqr s.b, 1, true⟩
  let result := mul s.x inner.z
  let x := sel result s.x (eqBit s.b ONE)
  let z := sqr inner.z
  ⟨x, mul s.b z, z, inner.k⟩

/-- The outer loop of R175, max_v from n down to 1. -/
def rootOuter (n : Nat) (s : RootOuter) : RootOuter :=
  countDown (fun i x => rootOuterStep (i + 1) x) n s

/-- The candidate root of R175. -/
def sqrtCandidate (A : Elem) : Elem :=
  let w := powCt A TM1D2
  let x := mul w A
  (rootOuter twoAdicity ⟨x, mul x w, ZROOT, twoAdicity⟩).x

/-- The root the unit returns under SQRT_ROOT_CHOICE (R175, D24, U8; log 3). -/
def chosenRoot (choice : RootChoice) (A : Elem) : Elem :=
  match choice with
  | .exact => sqrtCandidate A
  | .either => if Config.negatesRoot A then negm (sqrtCandidate A) else sqrtCandidate A

/-- `POW Ed, Ea` (R171). -/
def execPow (d a : Reg) (s : State) : Host.Outcome State Fault Refusal :=
  withSources [a] s (s.putElem d (powCt (s.elem a) (exponent s)) true)

/-- `POWVT Ed, Ea` (R172). -/
def execPowvt (d a : Reg) (s : State) : Host.Outcome State Fault Refusal :=
  withSources [a] s (s.putElem d (powVt (s.elem a) (exponent s)) true)

/-- `INVERT Ed, Ea`: a maybe result, empty for zero (R173). -/
def execInvert (d a : Reg) (s : State) : Host.Outcome State Fault Refusal :=
  withSources [a] s (s.putMaybe d (invChain (s.elem a)) (nonzeroBit (s.elem a)))

/-- `SQRT Ed, Ea` of the unit with this SQRT_ROOT_CHOICE: a maybe result, empty for a non-residue (R175). -/
def execSqrtWith (choice : RootChoice) (d a : Reg) (s : State) : Host.Outcome State Fault Refusal :=
  withSources [a] s
    (s.putMaybe d (chosenRoot choice (s.elem a)) (rootBit (sqrtCandidate (s.elem a)) (s.elem a)))

/-- `SQRT Ed, Ea` (R175). -/
def execSqrt (d a : Reg) (s : State) : Host.Outcome State Fault Refusal :=
  execSqrtWith Config.sqrtRootChoice d a s

/-- `SHR1 Ed, Ea`: the canonical value shifted right by one bit (R177). -/
def execShr1 (d a : Reg) (s : State) : Host.Outcome State Fault Refusal :=
  withSources [a] s (s.putElem d (mul (shiftRight1 (canon (s.elem a))) R2) true)

end Sys2Proof.Machine
end

