-- ==== Sys2Proof/Machine/Select.lean ====
section
/-! DEFINITION. The meanings of the commands of 41_select.md. An immediate outside its legal set raises
ILLEGAL, as the command's rule says; the decoder makes no such command (R86; log 13). -/

namespace Sys2Proof.Machine

/-- `NOP` (R148). -/
def execNop (s : State) : Host.Outcome State Fault Refusal := .next s

/-- `EQ Ea, Eb` (R140). -/
def execEq (a b : Reg) (s : State) : Host.Outcome State Fault Refusal :=
  withSources [a, b] s (s.putC (eqBit (s.elem a) (s.elem b)))

/-- `ISZERO Ea` (R141). -/
def execIszero (a : Reg) (s : State) : Host.Outcome State Fault Refusal :=
  withSources [a] s (s.putC (zeroBit (s.elem a)))

/-- `ISHIGH Ea` (R142). -/
def execIshigh (a : Reg) (s : State) : Host.Outcome State Fault Refusal :=
  withSources [a] s (s.putC (highBit (s.elem a)))

/-- `CSEL Ed, Ea, Eb`: Ea when C = 0, Eb when C = 1; both must hold a value (R143). -/
def execCsel (d a b : Reg) (s : State) : Host.Outcome State Fault Refusal :=
  withSources [a, b] s (s.putElem d (sel (s.elem a) (s.elem b) s.c) true)

/-- `SETC #b` (R144). -/
def execSetc (imm : Imm) (s : State) : Host.Outcome State Fault Refusal :=
  if imm.toNat ≤ 1 then .next (s.putC (imm.getLsbD 0)) else raiseError .illegal s

/-- `MOV Ed, Ea` (R145). -/
def execMov (d a : Reg) (s : State) : Host.Outcome State Fault Refusal :=
  withSources [a] s (s.putElem d (s.elem a) true)

/-- `CLR Ed` (R146). -/
def execClr (d : Reg) (s : State) : Host.Outcome State Fault Refusal :=
  .next (s.putElem d ZERO false)

/-- `LDC Ed, #k`: the stored value comes from the ROM (R147). -/
def execLdc (d : Reg) (imm : Imm) (s : State) : Host.Outcome State Fault Refusal :=
  match loadable[imm.toNat]? with
  | some v => .next (s.putElem d v true)
  | none => raiseError .illegal s

end Sys2Proof.Machine
end

