-- ==== Sys2Proof/Machine/Dispatch.lean ====
section
/-! DEFINITION. One arm for each command. -/

namespace Sys2Proof.Machine

def exec (i : Instr) (s : State) : Host.Outcome State Fault Refusal :=
  match i with
  | .nop => Sys2Proof.Machine.execNop s
  | .add d a b => Sys2Proof.Machine.execAdd d a b s
  | .sub d a b => Sys2Proof.Machine.execSub d a b s
  | .neg d a => Sys2Proof.Machine.execNeg d a s
  | .dbl d a => Sys2Proof.Machine.execDbl d a s
  | .mul d a b => Sys2Proof.Machine.execMul d a b s
  | .sqr d a => Sys2Proof.Machine.execSqr d a s
  | .eq a b => Sys2Proof.Machine.execEq a b s
  | .iszero a => Sys2Proof.Machine.execIszero a s
  | .ishigh a => Sys2Proof.Machine.execIshigh a s
  | .csel d a b => Sys2Proof.Machine.execCsel d a b s
  | .setc imm => Sys2Proof.Machine.execSetc imm s
  | .mov d a => Sys2Proof.Machine.execMov d a s
  | .clr d => Sys2Proof.Machine.execClr d s
  | .ldc d imm => Sys2Proof.Machine.execLdc d imm s
  | .pow d a => Sys2Proof.Machine.execPow d a s
  | .powvt d a => Sys2Proof.Machine.execPowvt d a s
  | .invert d a => Sys2Proof.Machine.execInvert d a s
  | .sqrt d a => Sys2Proof.Machine.execSqrt d a s
  | .shr1 d a => Sys2Proof.Machine.execShr1 d a s
  | .fromle d => Sys2Proof.Machine.execFromle d s
  | .frombe d => Sys2Proof.Machine.execFrombe d s
  | .tole a => Sys2Proof.Machine.execTole a s
  | .tobe a => Sys2Proof.Machine.execTobe a s
  | .hexdec d imm => Sys2Proof.Machine.execHexdec d imm s
  | .hexenc a imm => Sys2Proof.Machine.execHexenc a imm s
  | .wide512 d => Sys2Proof.Machine.execWide512 d s
  | .wide384 d => Sys2Proof.Machine.execWide384 d s
  | .okm d => Sys2Proof.Machine.execOkm d s
  | .fromu64 d => Sys2Proof.Machine.execFromu64 d s
  | .fromu32 d => Sys2Proof.Machine.execFromu32 d s

end Sys2Proof.Machine
end

