-- ==== Sys2Proof/Machine/Window.lean ====
section
/-! DEFINITION. The host's register window: the status word (R30), the map (R51), reads and writes of words
(R31, R32, R54, R58, R60), which accesses are served (R52, R53), and where the window is (R50). -/

namespace Sys2Proof.Machine

/-- The STATUS word: VALID [31:16], reserved [15:8], ERRCODE [7:4], reserved [3], ERR [2], C [1], BUSY [0]
(R30). -/
def State.status (s : State) : Word :=
  s.valid ++ 0#8 ++ s.errCode ++ 0#1 ++ BitVec.ofBool s.err ++ BitVec.ofBool s.c
    ++ BitVec.ofBool s.busy

/-- The window accepts a 32-bit access to an offset that is a multiple of 4 (R52). -/
def accepted (width : Nat) (off : BitVec 8) : Bool := width == 32 && off.toNat % 4 == 0

/-- The offset of a BUF word, 0x40 to 0x7C (R51). -/
def isBufWord (off : BitVec 8) : Bool := 0x40 ≤ off.toNat && off.toNat < 0x80

/-- The BUF word at an offset (R54). -/
def State.bufWord (s : State) (off : BitVec 8) : Word := wordOf (s.bufRead (off.toNat - 0x40) 4)

/-- An accepted host read: the unit answers with the word the map gives. A BUF word while busy is a free
word (R51, R56, R60). -/
def hostRead (off : BitVec 8) (s : State) : State :=
  if off = 0x00 then s.reply idWord
  else if off = 0x04 then s.reply s.status
  else if off = 0x08 then s.reply s.lastCmd
  else if isBufWord off then
    if s.busy then { s with draws := s.draws + 1 }.reply (Config.freeWord s.draws)
    else s.reply (s.bufWord off)
  else s.reply 0

/-- A write to CTRL: SRST wins over ERRCLR (R32, R271). -/
def writeCtrl (w : Word) (s : State) : State :=
  if w.getLsbD 0 then s.resetUnit else if w.getLsbD 1 then s.clearError else s

/-- An accepted host write. ID, STATUS and the reserved offsets ignore it (R51, R58); a CMD or BUF write
while busy is discarded and recorded (R60, R245, R246). -/
def hostWrite (off : BitVec 8) (w : Word) (s : State) : State :=
  if off = 0x08 then
    if s.busy then s.record .overrun else s.issue w
  else if off = 0x0C then writeCtrl w s
  else if isBufWord off then
    if s.busy then s.record .busyAccess else s.bufWrite (off.toNat - 0x40) (bytesOf w)
  else s

/-- The offset of a host byte address in the window, none when the access does not reach the unit (R50). -/
def windowOffset (addr : Nat) : Option (BitVec 8) :=
  if Config.base ≤ addr ∧ addr < Config.base + 256 then some (BitVec.ofNat 8 (addr - Config.base))
  else none

/-- The platform routes a host's access at a byte address: one that falls in the window joins the events
still to happen, any other does not reach the unit (R50; log 8). -/
def State.route (s : State) (addr : Nat) (access : BitVec 8 → Event) : State :=
  match windowOffset addr with
  | some off => { s with script := s.script ++ [access off] }
  | none => s

end Sys2Proof.Machine
end

