-- ==== Sys2Proof/Machine/Engine.lean ====
section
/-! DEFINITION. The transitions `step` chooses from: the engine step (R20, R91, R283) and the host steps
(R20, R53, R57). -/

namespace Sys2Proof.Machine

/-- The end of an engine step on what the command made of the state: BUSY is cleared in the same transition
(R241, R283). -/
def finish : Host.Outcome State Fault Refusal → Host.Outcome State Fault Refusal
  | .next s => .next s.complete
  | .fault r => .fault r
  | .refused r => .refused r

/-- The engine step: decode PEND, raise ILLEGAL or run the command, and end (R91, R243). -/
def engineStep (s : State) : Host.Outcome State Fault Refusal :=
  match decode s.pend with
  | .illegal _ => finish (raiseError .illegal s)
  | .instr i => finish (exec i s)

/-- The engine's turn: enabled exactly when BUSY = 1 (R20); an idle engine does nothing (R257; log 4). -/
def engineTurn (s : State) : Host.Outcome State Fault Refusal :=
  if s.busy then engineStep s else .next s

/-- One event. A refused access has no step (R53; log 7). -/
def perform (e : Event) (s : State) : Host.Outcome State Fault Refusal :=
  match e with
  | .engine => engineTurn s
  | .read width off => if accepted width off then .next (hostRead off s) else .fault .stuckAtRefusedAccess
  | .write width off w =>
    if accepted width off then .next (hostWrite off w s) else .fault .stuckAtRefusedAccess
  | .hardReset => .next s.resetUnit

/-- The next transition: the next event of the script, or, when nothing is scheduled, the engine's turn
(log 4). -/
def advance (s : State) : Host.Outcome State Fault Refusal :=
  match s.script with
  | [] => engineTurn s
  | e :: rest => perform e { s with script := rest }

end Sys2Proof.Machine
end

