-- ==== Sys2Proof/Machine/Step.lean ====
section
/-! DEFINITION. The step of the machine, and how the host places a command for the very next step. -/

namespace Sys2Proof.Machine

/-- One step: one host step, one engine step or one reset (R20, R248, R270). -/
def step (s : State) : Host.Outcome State Fault Refusal := advance s

/-- The state in which the command word has just been issued (R31) and the engine has the next turn (R20),
so that the next step runs exactly that command. The unit fetches nothing (R24): the issue is where a
command comes from (log 10). -/
def State.withFetchWord (s : State) (nbits w : Nat) : State :=
  { s.issue (tableWord nbits w) with script := .engine :: s.script }

end Sys2Proof.Machine
end

