-- ==== Sys2Proof/Machine/Values.lean ====
section
/-! DEFINITION. The value level (R11): the stored value of an integer and the integer of a stored value. No
meaning computes with these; the statements relate the limb-level datapath to them. -/

namespace Sys2Proof

/-- `R^-1 mod q` with R = 2^256 mod q (R11), the value R107 gives for 2^-256 mod q. -/
def Machine.rInv : Nat := 0x1bbe869330009d577204078a4f77266aab6fca8f09dc705f13f75b69fe75c040

/-- `val(M)` = int(M) * R^-1 mod q, the field element a stored value represents (R11). -/
def Elem.val (M : Elem) : Nat := M.int * Machine.rInv % Machine.q

/-- `mont(a)` = a * R mod q as limbs, the stored value of the integer a (R11). -/
def Machine.mont (a : Nat) : Elem := limbs4 (a * 2 ^ 256 % Machine.q)

/-- `CONST[k]`, the canonical values of R147 in the order of the index. -/
def Machine.constValues : List Nat :=
  [0, 1, (Machine.q + 1) / 2, 7, 0x16a2a19edfe81f20d09b681922c813b4b63683508c2280b93829971f439f0d2b,
   0x0538a6f66e19c653ed4f2f74a35d01686f67d4a2b566f8330fb4d6e13cf19a78,
   0x08634d0aa021aaf843cab354fabb0062f6502437c6a09c006c083479590189d7, (Machine.q - 1) / 2]

end Sys2Proof
end

