-- ==== Sys2Proof/Safety.lean ====
section
/-! DEFINITION. The terms claims are made in: the invariant of the unit, the frame of a command, encodings,
and what counts as a safe run. -/

namespace Sys2Proof.Machine

/-- The register invariant: a register that holds a value holds a stored value below q (R12, R21). -/
abbrev State.RegsReduced (s : State) : Prop := ∀ i : Reg, s.validAt i = true → (s.elem i).int < q

/-- ERR = 1 exactly when ERRCODE is not 0 (R28), and a reserved code is never recorded (R241, U12). -/
abbrev State.ErrorsSound (s : State) : Prop := (s.err = true ↔ s.errCode ≠ 0#4) ∧ s.errCode.toNat ≤ 4

/-- While a command is pending, it is the last one accepted (R27, R31). -/
abbrev State.PendingIsLast (s : State) : Prop := s.busy = true → s.pend = s.lastCmd

/-- The invariant of the unit: the register invariant, the error state, the pending command, and the form
of BUF's list. -/
abbrev State.Inv (s : State) : Prop :=
  s.RegsReduced ∧ s.ErrorsSound ∧ s.PendingIsLast ∧ s.buf.wf

/-- BUF[i] (R10). -/
def State.byteAt (s : State) (i : Nat) : Byte := s.buf.read i

/-- The frame of a command: from s to t nothing changes but the destination register with its VALID bit,
the choice flag where `flag` is true, and the BUF bytes below `bytes`. -/
structure Frame (dst : Option Reg) (flag : Bool) (bytes : Nat) (s t : State) : Prop where
  elems : ∀ j, dst ≠ some j → t.elem j = s.elem j
  valids : ∀ j, dst ≠ some j → t.validAt j = s.validAt j
  choice : flag = false → t.c = s.c
  buffer : ∀ i, bytes ≤ i → t.byteAt i = s.byteAt i
  busy : t.busy = s.busy
  pend : t.pend = s.pend
  lastCmd : t.lastCmd = s.lastCmd
  err : t.err = s.err
  errCode : t.errCode = s.errCode
  script : t.script = s.script
  replies : t.replies = s.replies
  draws : t.draws = s.draws

/-- The command runs to a next state t with `P t`. -/
def Completes (i : Instr) (s : State) (P : State → Prop) : Prop := ∃ t, exec i s = .next t ∧ P t

/-- The command raises this error: it is recorded and nothing else happens (R241). -/
def Raises (i : Instr) (s : State) (e : ErrorCode) : Prop := exec i s = .next (s.record e)

/-- A register number in a field of the command word whose lowest bit is `sh`. -/
def field (r : Reg) (sh : Nat) : Word := BitVec.ofNat 32 r.val <<< sh

/-- The word w, and no other, is the encoding of command i. -/
def IsEncoding (i : Instr) (w : Word) : Prop := ∀ v, decode v = .instr i ↔ v = w

/-- Every word with this opcode either decodes to one of these commands, or is ILLEGAL: the engine step of
the pending word records ILLEGAL, clears BUSY and does nothing else (R86, R243). -/
def OpcodeOnly (opc : BitVec 8) (P : Instr → Prop) : Prop :=
  ∀ v, opcOf v = opc →
    (∃ i, P i ∧ decode v = .instr i) ∨
    (decode v = .illegal .fieldViolation ∧
      ∀ s : State, s.pend = v → engineStep s = .next (s.record .illegal).complete)

/-- The commands that write C (R25). -/
def writesChoice : Instr → Bool
  | .eq _ _ | .iszero _ | .ishigh _ | .setc _ => true
  | .fromle _ | .frombe _ | .hexdec _ _ | .invert _ _ | .sqrt _ _ => true
  | .nop | .add _ _ _ | .sub _ _ _ | .neg _ _ | .dbl _ _ | .mul _ _ _ | .sqr _ _ => false
  | .csel _ _ _ | .mov _ _ | .clr _ | .ldc _ _ => false
  | .pow _ _ | .powvt _ _ | .shr1 _ _ => false
  | .tole _ | .tobe _ | .hexenc _ _ => false
  | .wide512 _ | .wide384 _ | .okm _ | .fromu64 _ | .fromu32 _ => false

/-- The commands that read BUF (R69, 90_conflicts C8). -/
def readsBuf : Instr → Bool
  | .pow _ _ | .powvt _ _ | .fromle _ | .frombe _ | .hexdec _ _ => true
  | .wide512 _ | .wide384 _ | .okm _ | .fromu64 _ | .fromu32 _ => true
  | .nop | .add _ _ _ | .sub _ _ _ | .neg _ _ | .dbl _ _ | .mul _ _ _ | .sqr _ _ => false
  | .eq _ _ | .iszero _ | .ishigh _ | .csel _ _ _ | .setc _ | .mov _ _ | .clr _ | .ldc _ _ => false
  | .invert _ _ | .sqrt _ _ | .shr1 _ _ => false
  | .tole _ | .tobe _ | .hexenc _ _ => false

/-- The commands that write BUF (R69, 90_conflicts C8). -/
def writesBuf : Instr → Bool
  | .tole _ | .tobe _ | .hexenc _ _ => true
  | .nop | .add _ _ _ | .sub _ _ _ | .neg _ _ | .dbl _ _ | .mul _ _ _ | .sqr _ _ => false
  | .eq _ _ | .iszero _ | .ishigh _ | .csel _ _ _ | .setc _ | .mov _ _ | .clr _ | .ldc _ _ => false
  | .pow _ _ | .powvt _ _ | .invert _ _ | .sqrt _ _ | .shr1 _ _ => false
  | .fromle _ | .frombe _ | .hexdec _ _ => false
  | .wide512 _ | .wide384 _ | .okm _ | .fromu64 _ | .fromu32 _ => false

/-- Every host access of a script is one the window accepts (R52). -/
def accessesAccepted : List Event → Bool
  | [] => true
  | .read width off :: rest => accepted width off && accessesAccepted rest
  | .write width off _ :: rest => accepted width off && accessesAccepted rest
  | .engine :: rest => accessesAccepted rest
  | .hardReset :: rest => accessesAccepted rest

/-- A run of n steps is safe when it ends in a state: it met no refused access and no refusal. -/
def SafeRun (n : Nat) (s : State) : Prop := ∃ t, core.run n s = .next t

end Sys2Proof.Machine
end

