-- ==== Sys2Proof/Certificates/Slice0/Obligations.lean ====
section
/-! DEFINITION. The statements for the provers. A command's statement says the whole of its rule: every word
with its opcode is one of its encodings or ILLEGAL, what it does when its source registers hold values (the
register invariant R12 holds of every state a run reaches), its frame, and that it raises UNINIT otherwise. -/

open Sys2Proof Sys2Proof.Machine

/-! ### Encoding -/

/-- Decoding the encoding of a well-formed command gives the command back, every operand at every value its
field admits (R80 to R85, R91). -/
def Obligations.DecodeOfEncodeIsTheCommand : Prop :=
  ∀ i : Instr, i.wf = true → decode (encode i) = .instr i

/-- A word that decodes is the encoding of a well-formed command: "A word w encodes a legal command exactly
when w AND mask = match" (R85). -/
def Obligations.DecodedWordIsItsEncoding : Prop :=
  ∀ (w : Word) (i : Instr), decode w = .instr i → i.wf = true ∧ encode i = w

/-- The reserved opcodes of R86 and no others are refused as such; a word of any other opcode is refused for
its fields exactly when it encodes no well-formed command; and an illegal pending word raises ILLEGAL in its
engine step and has no other effect. -/
def Obligations.IllegalWordsAreThoseOfTheRule : Prop :=
  ∀ w : Word,
    let opc := (opcOf w).toNat
    let reserved :=
      (0x07 ≤ opc ∧ opc ≤ 0x0F) ∨ (0x18 ≤ opc ∧ opc ≤ 0x1F) ∨ (0x25 ≤ opc ∧ opc ≤ 0x2F) ∨ 0x3B ≤ opc
    (decode w = .illegal .reservedOpcode ↔ reserved) ∧
    (decode w = .illegal .fieldViolation ↔ ¬reserved ∧ ∀ i : Instr, i.wf = true → encode i ≠ w) ∧
    ∀ (s : State) (why : Illegal), s.pend = w → decode w = .illegal why →
      engineStep s = .next (s.record .illegal).complete

/-- Words of the spec's own examples decode to the commands they stand for (30_encoding.md, 95 section 4). -/
def Obligations.ExampleWordsDecode : Prop :=
  decode 0x00000000 = .instr .nop ∧
  decode 0x05210000 = .instr (.mul 2 1 0) ∧
  decode 0x15270000 = .instr (.mov 2 7) ∧
  decode 0x17100001 = .instr (.ldc 1 1) ∧
  decode 0x13312000 = .instr (.csel 3 1 2) ∧
  decode 0x23100000 = .instr (.sqrt 1 0) ∧
  decode 0x35000003 = .instr (.hexenc 0 3) ∧
  decode 0x00000001 = .illegal .fieldViolation ∧
  decode 0x07100000 = .illegal .reservedOpcode ∧
  decode 0x17000008 = .illegal .fieldViolation

/-- When the pending word decodes to a command and the engine has the turn, the step is exec of that command
at the state without that turn, with BUSY cleared (R20, R91). That an empty script gives the engine the turn is
the model's choice (log 4, DESIGN CHOICE), and so is withFetchWord, the issue with the engine's turn placed first,
as the way a command comes to be run next (log 10, DEDUCED). -/
def Obligations.StepRunsTheDecodedCommand : Prop :=
  ∀ (s : State) (i : Instr),
    (∀ rest, s.busy = true → s.script = .engine :: rest → decode s.pend = .instr i →
      step s = finish (exec i { s with script := rest })) ∧
    (s.busy = true → s.script = [] → decode s.pend = .instr i → step s = finish (exec i s)) ∧
    (∀ w : Word, decode w = .instr i → step (s.withFetchWord 32 w.toNat) = finish (exec i (s.issue w)))

/-! ### Arithmetic -/

/-- ADD (R110). -/
def Obligations.AddIsModularAddition : Prop :=
  OpcodeOnly 0x01 (fun i => ∃ d a b, i = .add d a b) ∧
  ∀ d a b : Reg,
    IsEncoding (.add d a b) (0x01000000#32 ||| field d 20 ||| field a 16 ||| field b 12) ∧
    ∀ s : State,
      (s.validAt a = true → s.validAt b = true → s.RegsReduced →
        Completes (.add d a b) s fun t =>
          t.validAt d = true ∧
          t.elem d = mont ((s.elem a).val + (s.elem b).val) ∧
          (t.elem d).val = ((s.elem a).val + (s.elem b).val) % q ∧
          Frame (some d) false 0 s t) ∧
      (s.validAt a = false ∨ s.validAt b = false → Raises (.add d a b) s .uninit)

/-- SUB, Ea minus Eb (R111). -/
def Obligations.SubIsModularSubtraction : Prop :=
  OpcodeOnly 0x02 (fun i => ∃ d a b, i = .sub d a b) ∧
  ∀ d a b : Reg,
    IsEncoding (.sub d a b) (0x02000000#32 ||| field d 20 ||| field a 16 ||| field b 12) ∧
    ∀ s : State,
      (s.validAt a = true → s.validAt b = true → s.RegsReduced →
        Completes (.sub d a b) s fun t =>
          t.validAt d = true ∧
          t.elem d = mont ((s.elem a).val + q - (s.elem b).val) ∧
          (t.elem d).val = (s.elem a).val - (s.elem b).val +
            (if (s.elem a).val < (s.elem b).val then q - ((s.elem b).val - (s.elem a).val) else 0) ∧
          Frame (some d) false 0 s t) ∧
      (s.validAt a = false ∨ s.validAt b = false → Raises (.sub d a b) s .uninit)

/-- NEG (R112): q - a, and 0 for 0, never q. -/
def Obligations.NegIsModularNegation : Prop :=
  OpcodeOnly 0x03 (fun i => ∃ d a, i = .neg d a) ∧
  ∀ d a : Reg,
    IsEncoding (.neg d a) (0x03000000#32 ||| field d 20 ||| field a 16) ∧
    ∀ s : State,
      (s.validAt a = true → s.RegsReduced →
        Completes (.neg d a) s fun t =>
          t.validAt d = true ∧
          t.elem d = mont (q - (s.elem a).val) ∧
          (t.elem d).val = (if (s.elem a).val = 0 then 0 else q - (s.elem a).val) ∧
          (t.elem d).int = (if (s.elem a).int = 0 then 0 else q - (s.elem a).int) ∧
          Frame (some d) false 0 s t) ∧
      (s.validAt a = false → Raises (.neg d a) s .uninit)

/-- DBL (R113), bit-identical to ADD of a register with itself. -/
def Obligations.DblDoublesLikeAdd : Prop :=
  OpcodeOnly 0x04 (fun i => ∃ d a, i = .dbl d a) ∧
  ∀ d a : Reg,
    IsEncoding (.dbl d a) (0x04000000#32 ||| field d 20 ||| field a 16) ∧
    ∀ s : State,
      exec (.dbl d a) s = exec (.add d a a) s ∧
      (s.validAt a = true → s.RegsReduced →
        Completes (.dbl d a) s fun t =>
          t.validAt d = true ∧
          t.elem d = mont (2 * (s.elem a).val) ∧
          (t.elem d).val = 2 * (s.elem a).val % q ∧
          Frame (some d) false 0 s t) ∧
      (s.validAt a = false → Raises (.dbl d a) s .uninit)

/-- MUL (R114): the product of the represented values; the stored value is int(A) int(B) R^-1 mod q. -/
def Obligations.MulIsMontgomeryMultiplication : Prop :=
  OpcodeOnly 0x05 (fun i => ∃ d a b, i = .mul d a b) ∧
  ∀ d a b : Reg,
    IsEncoding (.mul d a b) (0x05000000#32 ||| field d 20 ||| field a 16 ||| field b 12) ∧
    ∀ s : State,
      (s.validAt a = true → s.validAt b = true → s.RegsReduced →
        Completes (.mul d a b) s fun t =>
          t.validAt d = true ∧
          t.elem d = mont ((s.elem a).val * (s.elem b).val) ∧
          (t.elem d).val = (s.elem a).val * (s.elem b).val % q ∧
          (t.elem d).int = (s.elem a).int * (s.elem b).int * rInv % q ∧
          (schoolbook (s.elem a) (s.elem b)).int < q * 2 ^ 256 ∧
          Frame (some d) false 0 s t) ∧
      (s.validAt a = false ∨ s.validAt b = false → Raises (.mul d a b) s .uninit)

/-- SQR (R115): the squaring product is exact, and the command is bit-identical to MUL of a register with
itself. -/
def Obligations.SqrSquaresLikeMul : Prop :=
  OpcodeOnly 0x06 (fun i => ∃ d a, i = .sqr d a) ∧
  (∀ A : Elem, (squareProduct A).int = A.int ^ 2 ∧ squareProduct A = schoolbook A A) ∧
  ∀ d a : Reg,
    IsEncoding (.sqr d a) (0x06000000#32 ||| field d 20 ||| field a 16) ∧
    ∀ s : State,
      exec (.sqr d a) s = exec (.mul d a a) s ∧
      (s.validAt a = true → s.RegsReduced →
        Completes (.sqr d a) s fun t =>
          t.validAt d = true ∧
          t.elem d = mont ((s.elem a).val ^ 2) ∧
          (t.elem d).val = (s.elem a).val ^ 2 % q ∧
          Frame (some d) false 0 s t) ∧
      (s.validAt a = false → Raises (.sqr d a) s .uninit)

/-! ### Predicates, selection, moves and constants -/

/-- EQ (R140): C = 1 exactly when the represented values are equal. -/
def Obligations.EqComparesRepresentedValues : Prop :=
  OpcodeOnly 0x10 (fun i => ∃ a b, i = .eq a b) ∧
  ∀ a b : Reg,
    IsEncoding (.eq a b) (0x10000000#32 ||| field a 16 ||| field b 12) ∧
    ∀ s : State,
      (s.validAt a = true → s.validAt b = true → s.RegsReduced →
        Completes (.eq a b) s fun t =>
          t.c = decide ((s.elem a).val = (s.elem b).val) ∧
          t.c = decide (s.elem a = s.elem b) ∧
          Frame none true 0 s t) ∧
      (s.validAt a = false ∨ s.validAt b = false → Raises (.eq a b) s .uninit)

/-- ISZERO (R141): C = 1 exactly when the represented value is 0. -/
def Obligations.IszeroTestsForZero : Prop :=
  OpcodeOnly 0x11 (fun i => ∃ a, i = .iszero a) ∧
  ∀ a : Reg,
    IsEncoding (.iszero a) (0x11000000#32 ||| field a 16) ∧
    ∀ s : State,
      (s.validAt a = true → s.RegsReduced →
        Completes (.iszero a) s fun t =>
          t.c = decide ((s.elem a).val = 0) ∧ Frame none true 0 s t) ∧
      (s.validAt a = false → Raises (.iszero a) s .uninit)

/-- ISHIGH (R142): C = 1 exactly when the canonical value is above (q-1)/2, so for a nonzero a exactly one of
a and -a is high. -/
def Obligations.IshighTestsTheHighHalf : Prop :=
  OpcodeOnly 0x12 (fun i => ∃ a, i = .ishigh a) ∧
  (∀ A : Elem, A.int < q → A.val ≠ 0 → highBit (negm A) = !(highBit A)) ∧
  ∀ a : Reg,
    IsEncoding (.ishigh a) (0x12000000#32 ||| field a 16) ∧
    ∀ s : State,
      (s.validAt a = true →
        Completes (.ishigh a) s fun t =>
          t.c = decide ((q - 1) / 2 < (s.elem a).val) ∧ Frame none true 0 s t) ∧
      (s.validAt a = false → Raises (.ishigh a) s .uninit)

/-- CSEL (R143): Ea when C = 0, Eb when C = 1; UNINIT when the unselected source is invalid too. -/
def Obligations.CselSelectsByTheChoiceFlag : Prop :=
  OpcodeOnly 0x13 (fun i => ∃ d a b, i = .csel d a b) ∧
  ∀ d a b : Reg,
    IsEncoding (.csel d a b) (0x13000000#32 ||| field d 20 ||| field a 16 ||| field b 12) ∧
    ∀ s : State,
      (s.validAt a = true → s.validAt b = true →
        Completes (.csel d a b) s fun t =>
          t.validAt d = true ∧
          (s.c = false → t.elem d = s.elem a) ∧
          (s.c = true → t.elem d = s.elem b) ∧
          Frame (some d) false 0 s t) ∧
      (s.validAt a = false ∨ s.validAt b = false → Raises (.csel d a b) s .uninit)

/-- SETC (R144): C becomes the immediate's bit 0, for the immediates 0 and 1; every other immediate is
ILLEGAL. It has no source register. -/
def Obligations.SetcSetsTheChoiceFlag : Prop :=
  OpcodeOnly 0x14 (fun i => i = .setc 0 ∨ i = .setc 1) ∧
  IsEncoding (.setc 0) 0x14000000#32 ∧
  IsEncoding (.setc 1) 0x14000001#32 ∧
  ∀ s : State,
    Completes (.setc 0) s (fun t => t.c = false ∧ Frame none true 0 s t) ∧
    Completes (.setc 1) s (fun t => t.c = true ∧ Frame none true 0 s t)

/-- MOV (R145). -/
def Obligations.MovCopies : Prop :=
  OpcodeOnly 0x15 (fun i => ∃ d a, i = .mov d a) ∧
  ∀ d a : Reg,
    IsEncoding (.mov d a) (0x15000000#32 ||| field d 20 ||| field a 16) ∧
    ∀ s : State,
      (s.validAt a = true →
        Completes (.mov d a) s fun t =>
          t.validAt d = true ∧ t.elem d = s.elem a ∧ Frame (some d) false 0 s t) ∧
      (s.validAt a = false → Raises (.mov d a) s .uninit)

/-- CLR (R146): the register is zeroised and holds no value, so a command that then reads it raises
UNINIT. -/
def Obligations.ClrZeroisesAndInvalidates : Prop :=
  OpcodeOnly 0x16 (fun i => ∃ d, i = .clr d) ∧
  ∀ d : Reg,
    IsEncoding (.clr d) (0x16000000#32 ||| field d 20) ∧
    ∀ s : State,
      Completes (.clr d) s fun t =>
        t.elem d = ⟨0, 0, 0, 0⟩ ∧ t.validAt d = false ∧ Frame (some d) false 0 s t ∧
        ∀ i : Instr, i.wf = true → d ∈ sources i → Raises i t .uninit

/-- LDC (R147): the stored value of the indexed constant, for the indices 0 to 7; any other index is
ILLEGAL. It has no source register. -/
def Obligations.LdcLoadsTheConstant : Prop :=
  OpcodeOnly 0x17 (fun i => ∃ d k, k.toNat ≤ 7 ∧ i = .ldc d k) ∧
  ∀ (d : Reg) (k : Imm) (h : k.toNat < constValues.length),
    IsEncoding (.ldc d k) (0x17000000#32 ||| field d 20 ||| k.setWidth 32) ∧
    ∀ s : State,
      Completes (.ldc d k) s fun t =>
        t.validAt d = true ∧
        t.elem d = mont constValues[k.toNat] ∧
        (t.elem d).val = constValues[k.toNat] ∧
        Frame (some d) false 0 s t

/-- NOP (R148, R87): exactly the zero word, and nothing changes; issued and run like any other command, it sets
BUSY until its engine step and leaves LASTCMD 0. -/
def Obligations.NopChangesNothing : Prop :=
  OpcodeOnly 0x00 (fun i => i = .nop) ∧
  IsEncoding .nop 0#32 ∧
  (∀ s : State, exec .nop s = .next s) ∧
  ∀ (s : State) (rest : List Event), s.busy = false → s.script = .write 32 0x08 0 :: .engine :: rest →
    ∃ t, step s = .next t ∧ t.busy = true ∧ t.lastCmd = 0 ∧
      step t = .next { s with script := rest, pend := 0, lastCmd := 0 }

/-! ### Derived operations -/

/-- POW (R171) and POWVT (R172): val(base)^e mod q for the integer e = le(BUF[0..31]), every e legal; the two
commands give identical results, and BUF is not changed (R170). -/
def Obligations.PowAndPowvtRaiseToTheExponent : Prop :=
  OpcodeOnly 0x20 (fun i => ∃ d a, i = .pow d a) ∧
  OpcodeOnly 0x21 (fun i => ∃ d a, i = .powvt d a) ∧
  ∀ d a : Reg,
    IsEncoding (.pow d a) (0x20000000#32 ||| field d 20 ||| field a 16) ∧
    IsEncoding (.powvt d a) (0x21000000#32 ||| field d 20 ||| field a 16) ∧
    ∀ s : State,
      let result (t : State) : Prop :=
        t.validAt d = true ∧
        t.elem d = mont ((s.elem a).val ^ leInt (s.bufRead 0 32)) ∧
        (t.elem d).val = (s.elem a).val ^ leInt (s.bufRead 0 32) % q ∧
        Frame (some d) false 0 s t
      exec (.powvt d a) s = exec (.pow d a) s ∧
      (s.validAt a = true → s.RegsReduced →
        Completes (.pow d a) s result ∧ Completes (.powvt d a) s result) ∧
      (s.validAt a = false → Raises (.pow d a) s .uninit ∧ Raises (.powvt d a) s .uninit)

/-- INVERT (R173): the inverse and C = 1 for a nonzero operand; C = 0 and no value for zero; the power q-2 is
written in every case. That the destination still has the limbs 0 when it holds no value, which U2 leaves open,
is the model's (log 14, DEDUCED). -/
def Obligations.InvertGivesTheInverseOrNothing : Prop :=
  OpcodeOnly 0x22 (fun i => ∃ d a, i = .invert d a) ∧
  ∀ d a : Reg,
    IsEncoding (.invert d a) (0x22000000#32 ||| field d 20 ||| field a 16) ∧
    ∀ s : State,
      (s.validAt a = true → s.RegsReduced →
        Completes (.invert d a) s fun t =>
          t.elem d = mont ((s.elem a).val ^ (q - 2)) ∧
          ((s.elem a).val ≠ 0 →
            t.c = true ∧ t.validAt d = true ∧ (s.elem a).val * (t.elem d).val % q = 1) ∧
          ((s.elem a).val = 0 → t.c = false ∧ t.validAt d = false ∧ (t.elem d).int = 0) ∧
          Frame (some d) true 0 s t) ∧
      (s.validAt a = false → Raises (.invert d a) s .uninit)

/-- SQRT, what holds under both values of SQRT_ROOT_CHOICE (R175, D24): C and VALID agree, and a present
result is a root of the operand. Rests on log 3 for the EITHER unit. -/
def Obligations.SqrtPresentResultIsARoot : Prop :=
  ∀ (choice : RootChoice) (d a : Reg) (s : State), s.validAt a = true → s.RegsReduced →
    ∃ t, execSqrtWith choice d a s = .next t ∧
      t.validAt d = t.c ∧
      (t.elem d).int < q ∧
      (t.c = true → (t.elem d).val * (t.elem d).val % q = (s.elem a).val) ∧
      Frame (some d) true 0 s t

/-- SQRT (R175): present with a root exactly when the operand is 0 or a quadratic residue, empty otherwise;
the stored value is the loop's candidate in every case. That this candidate is the root returned is the model's
choice of EXACT (log 3, DESIGN CHOICE), and that an invalid destination keeps it too, which U2 leaves open, is the
model's (log 14, DEDUCED). -/
def Obligations.SqrtIsPresentExactlyOnSquares : Prop :=
  OpcodeOnly 0x23 (fun i => ∃ d a, i = .sqrt d a) ∧
  ∀ d a : Reg,
    IsEncoding (.sqrt d a) (0x23000000#32 ||| field d 20 ||| field a 16) ∧
    ∀ s : State,
      (s.validAt a = true → s.RegsReduced →
        Completes (.sqrt d a) s fun t =>
          t.elem d = sqrtCandidate (s.elem a) ∧
          ((∃ r, r * r % q = (s.elem a).val) →
            t.c = true ∧ t.validAt d = true ∧ (t.elem d).val * (t.elem d).val % q = (s.elem a).val) ∧
          ((¬∃ r, r * r % q = (s.elem a).val) → t.c = false ∧ t.validAt d = false) ∧
          Frame (some d) true 0 s t) ∧
      (s.validAt a = false → Raises (.sqrt d a) s .uninit)

/-- The properties of SQRT (R176): C = 1 exactly when the operand's power (q-1)/2 is 0 or 1; a present result
squares to the operand; and exactly (q+1)/2 of the q elements, 0 included, give C = 1. -/
def Obligations.SqrtFollowsTheEulerCriterion : Prop :=
  (∀ (d a : Reg) (s : State), s.validAt a = true → s.RegsReduced →
    Completes (.sqrt d a) s fun t =>
      (t.c = true ↔ (s.elem a).val ^ ((q - 1) / 2) % q = 0 ∨ (s.elem a).val ^ ((q - 1) / 2) % q = 1) ∧
      (t.c = true → sqr (t.elem d) = s.elem a)) ∧
  ((Finset.range q).filter fun a => rootBit (sqrtCandidate (mont a)) (mont a) = true).card = (q + 1) / 2 ∧
  ∀ (d a : Reg) (s : State), s.validAt a = true →
    Completes (.sqrt d a) s fun t => t.c = rootBit (sqrtCandidate (s.elem a)) (s.elem a)

/-- SHR1 (R177): the canonical value halved, rounded down; for an odd value not the product with TWO_INV. -/
def Obligations.Shr1HalvesTheCanonicalValue : Prop :=
  OpcodeOnly 0x24 (fun i => ∃ d a, i = .shr1 d a) ∧
  ∀ d a : Reg,
    IsEncoding (.shr1 d a) (0x24000000#32 ||| field d 20 ||| field a 16) ∧
    ∀ s : State,
      (s.validAt a = true →
        Completes (.shr1 d a) s fun t =>
          t.validAt d = true ∧
          t.elem d = mont ((s.elem a).val / 2) ∧
          (t.elem d).val = (s.elem a).val / 2 ∧
          ((s.elem a).val % 2 = 1 → (t.elem d).val ≠ (s.elem a).val * ((q + 1) / 2) % q) ∧
          Frame (some d) false 0 s t) ∧
      (s.validAt a = false → Raises (.shr1 d a) s .uninit)

/-! ### Boundary conversions -/

/-- FROMLE (R201) and FROMBE (R202): the encoded integer when it is below q, else C = 0 and no value. Only
BUF[0..31] count. That the limbs are mont(n) also when n is not below q and the register holds no value, which U2
leaves open, is the model's (log 14, DEDUCED). -/
def Obligations.FromleAndFrombeDecodeCanonically : Prop :=
  OpcodeOnly 0x30 (fun i => ∃ d, i = .fromle d) ∧
  OpcodeOnly 0x31 (fun i => ∃ d, i = .frombe d) ∧
  ∀ d : Reg,
    IsEncoding (.fromle d) (0x30000000#32 ||| field d 20) ∧
    IsEncoding (.frombe d) (0x31000000#32 ||| field d 20) ∧
    ∀ s : State,
      (Completes (.fromle d) s fun t =>
        let n := leInt (s.bufRead 0 32)
        t.elem d = mont n ∧ t.c = decide (n < q) ∧ t.validAt d = decide (n < q) ∧
        (n < q → (t.elem d).val = n) ∧ Frame (some d) true 0 s t) ∧
      (Completes (.frombe d) s fun t =>
        let n := beInt (s.bufRead 0 32)
        t.elem d = mont n ∧ t.c = decide (n < q) ∧ t.validAt d = decide (n < q) ∧
        (n < q → (t.elem d).val = n) ∧ Frame (some d) true 0 s t)

/-- TOLE (R204) and TOBE (R205): the canonical value in BUF[0..31], every other byte of BUF as before. -/
def Obligations.ToleAndTobeEncodeCanonically : Prop :=
  OpcodeOnly 0x32 (fun i => ∃ a, i = .tole a) ∧
  OpcodeOnly 0x33 (fun i => ∃ a, i = .tobe a) ∧
  ∀ a : Reg,
    IsEncoding (.tole a) (0x32000000#32 ||| field a 16) ∧
    IsEncoding (.tobe a) (0x33000000#32 ||| field a 16) ∧
    ∀ s : State,
      (s.validAt a = true → s.buf.wf →
        Completes (.tole a) s (fun t =>
          t.bufRead 0 32 = leBytes (s.elem a).val 32 ∧ Frame none false 32 s t) ∧
        Completes (.tobe a) s (fun t =>
          t.bufRead 0 32 = beBytes (s.elem a).val 32 ∧ Frame none false 32 s t)) ∧
      (s.validAt a = false → Raises (.tole a) s .uninit ∧ Raises (.tobe a) s .uninit)

/-- HEXDEC (R207): 64 hex characters, two a byte, high nibble first, in the string order of bit 0 of the
immediate; empty when a character is no hex character or the integer is not below q. That the limbs are mont(n)
also when the string is refused and the register holds no value, which U2 leaves open, is the model's (log 14,
DEDUCED). -/
def Obligations.HexdecDecodesAHexString : Prop :=
  OpcodeOnly 0x34 (fun i => ∃ d o, o.toNat ≤ 1 ∧ i = .hexdec d o) ∧
  ∀ (d : Reg) (o : Imm), o.toNat ≤ 1 →
    IsEncoding (.hexdec d o) (0x34000000#32 ||| field d 20 ||| o.setWidth 32) ∧
    ∀ s : State,
      let byte (i : Nat) : Byte :=
        BitVec.ofNat 8 (16 * (nib (s.byteAt (2 * i))).1 + (nib (s.byteAt (2 * i + 1))).1)
      let bytes := (List.range 32).map byte
      let n := if o = 0 then beInt bytes else leInt bytes
      let ok := (∀ k < 64, (nib (s.byteAt k)).2 = true) ∧ n < q
      Completes (.hexdec d o) s fun t =>
        t.elem d = mont n ∧
        (ok → t.c = true ∧ t.validAt d = true ∧ (t.elem d).val = n) ∧
        (¬ok → t.c = false ∧ t.validAt d = false) ∧
        Frame (some d) true 0 s t

/-- HEXENC (R208): the 64 hex characters of the 32 bytes, in the case of bit 0 and the string order of bit 1
of the immediate. -/
def Obligations.HexencEncodesAHexString : Prop :=
  OpcodeOnly 0x35 (fun i => ∃ a f, f.toNat ≤ 3 ∧ i = .hexenc a f) ∧
  ∀ (a : Reg) (f : Imm), f.toNat ≤ 3 →
    IsEncoding (.hexenc a f) (0x35000000#32 ||| field a 16 ||| f.setWidth 32) ∧
    ∀ s : State,
      (s.validAt a = true → s.buf.wf →
        Completes (.hexenc a f) s fun t =>
          (∀ (i : Nat) (b : Byte),
            (if f.toNat < 2 then beBytes (s.elem a).val 32 else leBytes (s.elem a).val 32)[i]? = some b →
              t.byteAt (2 * i) = hexChr (b.toNat / 16) (f.toNat % 2 == 1) ∧
              t.byteAt (2 * i + 1) = hexChr (b.toNat % 16) (f.toNat % 2 == 1)) ∧
          Frame none false 64 s t) ∧
      (s.validAt a = false → Raises (.hexenc a f) s .uninit)

/-- WIDE512 (R210) and WIDE384 (R211): the little-endian integer of BUF[0..63] or BUF[0..47], reduced modulo
q; they never fail. -/
def Obligations.WideReductionIsExact : Prop :=
  OpcodeOnly 0x36 (fun i => ∃ d, i = .wide512 d) ∧
  OpcodeOnly 0x37 (fun i => ∃ d, i = .wide384 d) ∧
  ∀ d : Reg,
    IsEncoding (.wide512 d) (0x36000000#32 ||| field d 20) ∧
    IsEncoding (.wide384 d) (0x37000000#32 ||| field d 20) ∧
    ∀ s : State,
      (Completes (.wide512 d) s fun t =>
        t.validAt d = true ∧ t.elem d = mont (leInt (s.bufRead 0 64)) ∧
        (t.elem d).val = leInt (s.bufRead 0 64) % q ∧ Frame (some d) false 0 s t) ∧
      (Completes (.wide384 d) s fun t =>
        t.validAt d = true ∧ t.elem d = mont (leInt (s.bufRead 0 48)) ∧
        (t.elem d).val = leInt (s.bufRead 0 48) % q ∧ Frame (some d) false 0 s t)

/-- OKM (R212): the 48 bytes as one big-endian integer, reduced modulo q. -/
def Obligations.OkmReducesTheFortyEightBytes : Prop :=
  OpcodeOnly 0x38 (fun i => ∃ d, i = .okm d) ∧
  F2_192 = mont (2 ^ 192) ∧
  ∀ d : Reg,
    IsEncoding (.okm d) (0x38000000#32 ||| field d 20) ∧
    ∀ s : State,
      Completes (.okm d) s fun t =>
        t.validAt d = true ∧ t.elem d = mont (beInt (s.bufRead 0 48)) ∧
        (t.elem d).val = beInt (s.bufRead 0 48) % q ∧ Frame (some d) false 0 s t

/-- FROMU64 (R213) and FROMU32 (R214): the little-endian integer of BUF[0..7] or BUF[0..3]. -/
def Obligations.SmallIntegersAreConstructed : Prop :=
  OpcodeOnly 0x39 (fun i => ∃ d, i = .fromu64 d) ∧
  OpcodeOnly 0x3A (fun i => ∃ d, i = .fromu32 d) ∧
  ∀ d : Reg,
    IsEncoding (.fromu64 d) (0x39000000#32 ||| field d 20) ∧
    IsEncoding (.fromu32 d) (0x3A000000#32 ||| field d 20) ∧
    ∀ s : State,
      (Completes (.fromu64 d) s fun t =>
        t.validAt d = true ∧ t.elem d = mont (leInt (s.bufRead 0 8)) ∧
        (t.elem d).val = leInt (s.bufRead 0 8) ∧ Frame (some d) false 0 s t) ∧
      (Completes (.fromu32 d) s fun t =>
        t.validAt d = true ∧ t.elem d = mont (leInt (s.bufRead 0 4)) ∧
        (t.elem d).val = leInt (s.bufRead 0 4) ∧ Frame (some d) false 0 s t)

/-- Encoding a register and decoding it gives the register back, with C = 1: for the little-endian, the
big-endian and, in every form, the hexadecimal encoding ("decode(encode(a)) == a", R204, R208). -/
def Obligations.DecodeOfEncodedRegisterIsTheRegister : Prop :=
  ∀ (a d : Reg) (s : State), s.validAt a = true → s.Inv →
    (∃ t u, exec (.tole a) s = .next t ∧ exec (.fromle d) t = .next u ∧
      u.c = true ∧ u.validAt d = true ∧ u.elem d = s.elem a) ∧
    (∃ t u, exec (.tobe a) s = .next t ∧ exec (.frombe d) t = .next u ∧
      u.c = true ∧ u.validAt d = true ∧ u.elem d = s.elem a) ∧
    (∀ f o : Imm, f.toNat ≤ 3 → o.toNat = f.toNat / 2 →
      ∃ t u, exec (.hexenc a f) s = .next t ∧ exec (.hexdec d o) t = .next u ∧
        u.c = true ∧ u.validAt d = true ∧ u.elem d = s.elem a)

/-! ### The field -/

/-- The value-level equivalence (R108): the datapath on stored values is arithmetic modulo q on the values
they represent. -/
def Obligations.DatapathAgreesWithTheValueLevel : Prop :=
  ∀ a b : Nat, a < q → b < q →
    addm (mont a) (mont b) = mont ((a + b) % q) ∧
    subm (mont a) (mont b) = mont ((a + q - b) % q) ∧
    redc (schoolbook (mont a) (mont b)) = mont (a * b % q)

/-- The field axioms (R116) hold as equalities of stored values. -/
def Obligations.FieldAxiomsHoldOfStoredValues : Prop :=
  ∀ A B C : Elem, A.int < q → B.int < q → C.int < q →
    addm A B = addm B A ∧
    addm (addm A B) C = addm A (addm B C) ∧
    addm A ZERO = A ∧
    addm A (negm A) = ZERO ∧
    mul A B = mul B A ∧
    mul (mul A B) C = mul A (mul B C) ∧
    mul A ONE = A ∧
    mul A (addm B C) = addm (mul A B) (mul A C)

/-- The datapath constants are what their definitions say (R101), with Q the modulus; the stored value of 1 is R
and that of 0 is all zero limbs. -/
def Obligations.DatapathConstantsMeetTheirDefinitions : Prop :=
  Q.int = q ∧
  (q % 2 ^ 64 * INV.toNat + 1) % 2 ^ 64 = 0 ∧
  R.int = 2 ^ 256 % q ∧
  R2.int = 2 ^ 512 % q ∧
  R3.int = 2 ^ 768 % q ∧
  mont 1 = R ∧
  mont 0 = ⟨0, 0, 0, 0⟩

/-! ### Rules about every command -/

/-- A command one of whose source registers holds no value raises UNINIT and changes nothing else; with valid
sources it runs without an error, whatever the VALID bit of its destination (R22). -/
def Obligations.InvalidSourceRaisesUninit : Prop :=
  ∀ (i : Instr) (s : State), i.wf = true →
    (∀ r ∈ sources i, s.validAt r = false → exec i s = .next (s.record .uninit)) ∧
    ((∀ r ∈ sources i, s.validAt r = true) →
      ∃ t, exec i s = .next t ∧ t.err = s.err ∧ t.errCode = s.errCode)

/-- C is read by CSEL, and written only by EQ, ISZERO, ISHIGH, SETC, FROMLE, FROMBE, HEXDEC, INVERT and SQRT;
every other command leaves it unchanged, and so does any command that raises an error (R25). It is the host's
STATUS.C and is 0 after reset. -/
def Obligations.ChoiceIsWrittenOnlyByTheListedCommands : Prop :=
  (∀ (d a b : Reg) (s t : State), s.validAt a = true → s.validAt b = true →
    exec (.csel d a b) s = .next t → t.elem d = if s.c then s.elem b else s.elem a) ∧
  (∀ (i : Instr) (s t : State), exec i s = .next t →
    (writesChoice i = false ∨ (∃ e, t = s.record e)) → t.c = s.c) ∧
  (∀ s : State, s.status.getLsbD 1 = s.c) ∧
  State.reset.c = false

/-- BUF is written only by TOLE, TOBE and HEXENC; the commands that neither read nor write it do the same
whatever it holds; and no command both reads and writes it (R69). -/
def Obligations.BufIsTouchedOnlyByTheListedCommands : Prop :=
  (∀ i : Instr, ¬(readsBuf i = true ∧ writesBuf i = true)) ∧
  (∀ (i : Instr) (s t : State), exec i s = .next t → writesBuf i = false → t.buf = s.buf) ∧
  (∀ (i : Instr) (s t : State) (m : Memory), exec i s = .next t → readsBuf i = false →
    writesBuf i = false → exec i { s with buf := m } = .next { t with buf := m }) ∧
  (∀ (i : Instr) (s t u : State) (m : Memory), exec i s = .next t → readsBuf i = false →
    exec i { s with buf := m } = .next u →
    u = { t with buf := u.buf } ∧ (s.buf.wf → m.wf → ∀ k, t.byteAt k ≠ s.byteAt k → u.byteAt k = t.byteAt k))

/-- An error recorded before does not block the engine: with any ERR and ERRCODE a command that raises no error
does what it did (R250). -/
def Obligations.RecordedErrorsDoNotBlock : Prop :=
  ∀ (i : Instr) (s t : State) (e : Bool) (k : BitVec 4),
    i.wf = true → (∀ r ∈ sources i, s.validAt r = true) → exec i s = .next t →
    exec i { s with err := e, errCode := k } = .next { t with err := e, errCode := k }

/-! ### The engine step -/

/-- Every pending word ends its engine step in a next state with BUSY clear, PEND and LASTCMD as before: the
decode is total, and no command stops (R91, R241). -/
def Obligations.EveryEngineStepCompletes : Prop :=
  ∀ s : State, ∃ t, engineStep s = .next t ∧ t.busy = false ∧ t.pend = s.pend ∧ t.lastCmd = s.lastCmd

/-- The checks of an engine step (R243, R244) in their order (R247): a word whose opcode is not in the map or
that fails its row's mask test records ILLEGAL, whatever the VALID bits, the opcode before the fields; only a
legal command is checked for its sources, and then records UNINIT. In each case nothing else changes but BUSY,
which is cleared. -/
def Obligations.ChecksAreMadeInTheGivenOrder : Prop :=
  ∀ s : State,
    (rowOf (opcOf s.pend) = none → decode s.pend = .illegal .reservedOpcode) ∧
    ((∃ why, decode s.pend = .illegal why) ↔
      ∀ r, rowOf (opcOf s.pend) = some r → s.pend &&& r.mask ≠ r.matchWord) ∧
    (∀ why, decode s.pend = .illegal why → engineStep s = .next (s.record .illegal).complete) ∧
    (∀ i r, decode s.pend = .instr i → r ∈ sources i → s.validAt r = false →
      engineStep s = .next (s.record .uninit).complete)

/-- Recording an error (R241): the code of the first error since the last clear is kept, ERR is set, and nothing
else changes. The codes are 1 to 4. -/
def Obligations.RecordKeepsTheFirstError : Prop :=
  ∀ (s : State) (e : ErrorCode),
    (s.record e).err = true ∧
    (s.errCode = 0 → (s.record e).errCode =
      match e with
      | .illegal => 1
      | .uninit => 2
      | .overrun => 3
      | .busyAccess => 4) ∧
    (s.errCode ≠ 0 → (s.record e).errCode = s.errCode) ∧
    s.record e = { s with err := (s.record e).err, errCode := (s.record e).errCode }

/-- ERRCODE changes after the first error only by a CTRL write with SRST or ERRCLR or by a hard reset, and
ERR = 1 exactly when ERRCODE is not 0 (R28). -/
def Obligations.ErrorCodeIsStickyUntilCleared : Prop :=
  ∀ s t : State, s.ErrorsSound → step s = .next t →
    t.ErrorsSound ∧
    (s.err = true → (t.err = true ∧ t.errCode = s.errCode) ∨
      (∃ rest, s.script = .hardReset :: rest) ∨
      (∃ w rest, s.script = .write 32 0x0C w :: rest ∧ (w.getLsbD 0 = true ∨ w.getLsbD 1 = true)))

/-- The engine step is enabled exactly when BUSY = 1 (R20): its turn is the engine step when busy and changes
nothing when idle. That an empty script gives the engine the turn is the model's choice (log 4). -/
def Obligations.EngineRunsExactlyWhenBusy : Prop :=
  ∀ (s : State) (rest : List Event),
    (s.script = .engine :: rest →
      (s.busy = true → step s = engineStep { s with script := rest }) ∧
      (s.busy = false → step s = .next { s with script := rest })) ∧
    (s.script = [] →
      (s.busy = true → step s = engineStep s) ∧ (s.busy = false → step s = .next s))

/-! ### The window -/

/-- The STATUS word, field by field (R30). -/
def Obligations.StatusFieldsAreWhereTheRuleSays : Prop :=
  ∀ s : State,
    s.status.getLsbD 0 = s.busy ∧
    s.status.getLsbD 1 = s.c ∧
    s.status.getLsbD 2 = s.err ∧
    s.status.getLsbD 3 = false ∧
    s.status.extractLsb' 4 4 = s.errCode ∧
    s.status.extractLsb' 8 8 = 0 ∧
    (∀ i : Reg, s.status.getLsbD (16 + i.val) = s.validAt i) ∧
    State.reset.status = 0

/-- A read of each word of the map (R51, R58), and that a read changes nothing of the unit (R56): only the reply
and, for BUF while busy, the count of free draws, which are the model's own (log 5, 6). -/
def Obligations.ReadsAnswerTheMapAndChangeNothing : Prop :=
  ∀ (s : State) (off : BitVec 8) (rest : List Event), off.toNat % 4 = 0 →
    s.script = .read 32 off :: rest →
    ∃ w n, step s = .next { s with script := rest, replies := w :: s.replies, draws := n } ∧
      (s.busy = false ∨ off.toNat < 0x40 ∨ 0x80 ≤ off.toNat → n = s.draws) ∧
      (off = 0x00 → w = 0x46524D31) ∧
      (off = 0x04 → w = s.status) ∧
      (off = 0x08 → w = s.lastCmd) ∧
      (0x0C ≤ off.toNat ∧ off.toNat < 0x40 → w = 0) ∧
      (0x80 ≤ off.toNat → w = 0) ∧
      (0x40 ≤ off.toNat ∧ off.toNat < 0x80 ∧ s.busy = false →
        w.toNat = (s.byteAt (off.toNat - 0x40)).toNat + 2 ^ 8 * (s.byteAt (off.toNat - 0x3F)).toNat
          + 2 ^ 16 * (s.byteAt (off.toNat - 0x3E)).toNat + 2 ^ 24 * (s.byteAt (off.toNat - 0x3D)).toNat)

/-- A CMD write while idle issues the command: PEND and LASTCMD become the word and BUSY is set; nothing else
changes (R31). -/
def Obligations.CmdWriteIssuesWhenIdle : Prop :=
  ∀ (s : State) (w : Word) (rest : List Event), s.script = .write 32 0x08 w :: rest → s.busy = false →
    step s = .next { s with script := rest, pend := w, lastCmd := w, busy := true }

/-- While BUSY = 1 (R60): a CMD write is discarded and records OVERRUN, a BUF write is discarded and records
BUSY_ACCESS, and a BUF read answers with a free word and has no other effect. That the free word is
Config.freeWord at the count of draws, and that the count then advances, is the model's choice (log 6, DESIGN
CHOICE). -/
def Obligations.BusyAccessesAreDiscardedAndRecorded : Prop :=
  ∀ (s : State) (off : BitVec 8) (w : Word) (rest : List Event), s.busy = true → off.toNat % 4 = 0 →
    (s.script = .write 32 0x08 w :: rest →
      step s = .next ({ s with script := rest }.record .overrun)) ∧
    (0x40 ≤ off.toNat → off.toNat < 0x80 → s.script = .write 32 off w :: rest →
      step s = .next ({ s with script := rest }.record .busyAccess)) ∧
    (0x40 ≤ off.toNat → off.toNat < 0x80 → s.script = .read 32 off :: rest →
      step s = .next { s with
        script := rest, replies := Config.freeWord s.draws :: s.replies, draws := s.draws + 1 })

/-- A BUF word is little-endian (R54): read while idle it gives its four bytes, the first in the low bits;
written while idle it sets its four bytes and no other byte, and nothing else of the unit. -/
def Obligations.BufWordsAreLittleEndian : Prop :=
  ∀ (s : State) (k : Nat) (w : Word) (rest : List Event), k < 16 → s.busy = false → s.buf.wf →
    (s.script = .read 32 (BitVec.ofNat 8 (0x40 + 4 * k)) :: rest →
      step s = .next { s with
        script := rest
        replies := (s.byteAt (4 * k + 3) ++ s.byteAt (4 * k + 2) ++ s.byteAt (4 * k + 1) ++ s.byteAt (4 * k))
          :: s.replies }) ∧
    (s.script = .write 32 (BitVec.ofNat 8 (0x40 + 4 * k)) w :: rest →
      ∃ t, step s = .next t ∧
        (∀ j < 4, t.byteAt (4 * k + j) = w.extractLsb' (8 * j) 8) ∧
        (∀ i, i < 4 * k ∨ 4 * k + 4 ≤ i → t.byteAt i = s.byteAt i) ∧
        t = { s with script := rest, buf := t.buf })

/-- Reserved space and read-only words (R58): a read of a reserved offset returns 0, a write to a reserved
offset, to ID, to STATUS or to the reserved bits of CTRL changes nothing, and none of these records an error. -/
def Obligations.ReservedSpaceReadsZeroAndIgnoresWrites : Prop :=
  ∀ (s : State) (off : BitVec 8) (w : Word) (rest : List Event), off.toNat % 4 = 0 →
    let reserved := (0x10 ≤ off.toNat ∧ off.toNat < 0x40) ∨ 0x80 ≤ off.toNat
    (reserved → s.script = .read 32 off :: rest →
      step s = .next { s with script := rest, replies := 0 :: s.replies }) ∧
    (reserved ∨ off = 0x00 ∨ off = 0x04 → s.script = .write 32 off w :: rest →
      step s = .next { s with script := rest }) ∧
    (w.extractLsb' 0 2 = 0 → s.script = .write 32 0x0C w :: rest →
      step s = .next { s with script := rest })

/-- CTRL (R32), whether busy or not: SRST resets and wins over ERRCLR, ERRCLR clears ERR and ERRCODE, every other
bit is ignored, and a read returns 0. -/
def Obligations.CtrlResetsAndClearsErrors : Prop :=
  ∀ (s : State) (w : Word) (rest : List Event),
    (s.script = .write 32 0x0C w :: rest →
      (w.getLsbD 0 = true → step s = .next { s with script := rest }.resetUnit) ∧
      (w.getLsbD 0 = false → w.getLsbD 1 = true →
        step s = .next { s with script := rest, err := false, errCode := 0 }) ∧
      (w.getLsbD 0 = false → w.getLsbD 1 = false → step s = .next { s with script := rest })) ∧
    (s.script = .read 32 0x0C :: rest →
      step s = .next { s with script := rest, replies := 0 :: s.replies })

/-- Hard reset (R270) and soft reset (R271), busy or not: every piece of the unit's state takes its value of R38,
and a pending command is abandoned. The script, the replies and the draws are the outside world's (log 9). -/
def Obligations.ResetsGiveTheResetState : Prop :=
  ∀ (s : State) (rest : List Event),
    (s.script = .hardReset :: rest ∨ (∃ w, s.script = .write 32 0x0C w :: rest ∧ w.getLsbD 0 = true)) →
    ∃ t, step s = .next t ∧
      (∀ i : Reg, t.elem i = ⟨0, 0, 0, 0⟩ ∧ t.validAt i = false) ∧
      t.valid = 0 ∧ t.c = false ∧ (∀ i < 64, t.byteAt i = 0) ∧ t.busy = false ∧ t.pend = 0 ∧
      t.lastCmd = 0 ∧ t.err = false ∧ t.errCode = 0 ∧
      t = { State.reset with script := rest, replies := s.replies, draws := s.draws }

/-- An access of another width, or to an offset that is not a multiple of 4, has no step: the machine stops at it
(R52, R53). -/
def Obligations.RefusedAccessHasNoStep : Prop :=
  ∀ (s : State) (width : Nat) (off : BitVec 8) (w : Word) (rest : List Event),
    width ≠ 32 ∨ off.toNat % 4 ≠ 0 →
    s.script = .read width off :: rest ∨ s.script = .write width off w :: rest →
    step s = .fault .stuckAtRefusedAccess

/-- The window is the 256 byte addresses from BASE, a multiple of 256, and an offset is address - BASE (R50). -/
def Obligations.WindowIsTheBasePage : Prop :=
  Config.base % 256 = 0 ∧
  (∀ off : BitVec 8, windowOffset (Config.base + off.toNat) = some off) ∧
  (∀ addr, addr < Config.base ∨ Config.base + 0xFF < addr → windowOffset addr = none)

/-- Both orders of an overrunning CMD write and the engine step of an illegal pending word (R248): the error
recorded first is kept, and after the engine step the write is an issue. -/
def Obligations.OverrunAndEngineErrorInBothOrders : Prop :=
  ∀ (s : State) (v : Word) (why : Illegal), s.busy = true → s.errCode = 0 →
    decode s.pend = .illegal why →
    (∃ t, core.run 2 { s with script := [.write 32 0x08 v, .engine] } = .next t ∧
      t.errCode = 3 ∧ t.busy = false ∧ t.lastCmd = s.lastCmd) ∧
    (∃ t, core.run 2 { s with script := [.engine, .write 32 0x08 v] } = .next t ∧
      t.errCode = 1 ∧ t.busy = true ∧ t.lastCmd = v)

/-! ### Whole-machine rules -/

/-- Every step keeps the invariant: a register that holds a value holds one below q (R12), the error state is
sound (R28), a pending command is the last accepted, and BUF's list keeps its form. -/
def Obligations.StepKeepsTheInvariant : Prop :=
  ∀ s t : State, s.Inv → step s = .next t → t.Inv

/-- The reset state meets the invariant. -/
def Obligations.ResetMeetsTheInvariant : Prop := State.reset.Inv

/-- A machine whose host makes only accesses the window accepts never stops, however long it runs (R53, R91,
R240): no command traps, faults or is refused. -/
def Obligations.AcceptedScriptsNeverStop : Prop :=
  ∀ (n : Nat) (s : State), accessesAccepted s.script = true → SafeRun n s
end

