-- ==== Sys2Proof/Laws/State.lean ====
section
/-! SUPPORT. One lemma for each field under each update of the state, true by unfolding, so that no later
proof unfolds a record update. -/

namespace Sys2Proof.Machine

variable (s : State)

/-! ### putElem -/

@[simp] theorem State.putElem_regs (d : Reg) (v : Elem) (ok : Bool) : (s.putElem d v ok).regs = s.regs.set d v := rfl
@[simp] theorem State.putElem_valid (d : Reg) (v : Elem) (ok : Bool) : (s.putElem d v ok).valid = setValidBit s.valid d ok := rfl
@[simp] theorem State.putElem_c (d : Reg) (v : Elem) (ok : Bool) : (s.putElem d v ok).c = s.c := rfl
@[simp] theorem State.putElem_buf (d : Reg) (v : Elem) (ok : Bool) : (s.putElem d v ok).buf = s.buf := rfl
@[simp] theorem State.putElem_busy (d : Reg) (v : Elem) (ok : Bool) : (s.putElem d v ok).busy = s.busy := rfl
@[simp] theorem State.putElem_pend (d : Reg) (v : Elem) (ok : Bool) : (s.putElem d v ok).pend = s.pend := rfl
@[simp] theorem State.putElem_lastCmd (d : Reg) (v : Elem) (ok : Bool) : (s.putElem d v ok).lastCmd = s.lastCmd := rfl
@[simp] theorem State.putElem_err (d : Reg) (v : Elem) (ok : Bool) : (s.putElem d v ok).err = s.err := rfl
@[simp] theorem State.putElem_errCode (d : Reg) (v : Elem) (ok : Bool) : (s.putElem d v ok).errCode = s.errCode := rfl
@[simp] theorem State.putElem_script (d : Reg) (v : Elem) (ok : Bool) : (s.putElem d v ok).script = s.script := rfl
@[simp] theorem State.putElem_replies (d : Reg) (v : Elem) (ok : Bool) : (s.putElem d v ok).replies = s.replies := rfl
@[simp] theorem State.putElem_draws (d : Reg) (v : Elem) (ok : Bool) : (s.putElem d v ok).draws = s.draws := rfl

/-! ### putC -/

@[simp] theorem State.putC_regs (b : Bool) : (s.putC b).regs = s.regs := rfl
@[simp] theorem State.putC_valid (b : Bool) : (s.putC b).valid = s.valid := rfl
@[simp] theorem State.putC_c (b : Bool) : (s.putC b).c = b := rfl
@[simp] theorem State.putC_buf (b : Bool) : (s.putC b).buf = s.buf := rfl
@[simp] theorem State.putC_busy (b : Bool) : (s.putC b).busy = s.busy := rfl
@[simp] theorem State.putC_pend (b : Bool) : (s.putC b).pend = s.pend := rfl
@[simp] theorem State.putC_lastCmd (b : Bool) : (s.putC b).lastCmd = s.lastCmd := rfl
@[simp] theorem State.putC_err (b : Bool) : (s.putC b).err = s.err := rfl
@[simp] theorem State.putC_errCode (b : Bool) : (s.putC b).errCode = s.errCode := rfl
@[simp] theorem State.putC_script (b : Bool) : (s.putC b).script = s.script := rfl
@[simp] theorem State.putC_replies (b : Bool) : (s.putC b).replies = s.replies := rfl
@[simp] theorem State.putC_draws (b : Bool) : (s.putC b).draws = s.draws := rfl

/-! ### putMaybe -/

@[simp] theorem State.putMaybe_regs (d : Reg) (v : Elem) (ok : Bool) : (s.putMaybe d v ok).regs = s.regs.set d v := rfl
@[simp] theorem State.putMaybe_valid (d : Reg) (v : Elem) (ok : Bool) : (s.putMaybe d v ok).valid = setValidBit s.valid d ok := rfl
@[simp] theorem State.putMaybe_c (d : Reg) (v : Elem) (ok : Bool) : (s.putMaybe d v ok).c = ok := rfl
@[simp] theorem State.putMaybe_buf (d : Reg) (v : Elem) (ok : Bool) : (s.putMaybe d v ok).buf = s.buf := rfl
@[simp] theorem State.putMaybe_busy (d : Reg) (v : Elem) (ok : Bool) : (s.putMaybe d v ok).busy = s.busy := rfl
@[simp] theorem State.putMaybe_pend (d : Reg) (v : Elem) (ok : Bool) : (s.putMaybe d v ok).pend = s.pend := rfl
@[simp] theorem State.putMaybe_lastCmd (d : Reg) (v : Elem) (ok : Bool) : (s.putMaybe d v ok).lastCmd = s.lastCmd := rfl
@[simp] theorem State.putMaybe_err (d : Reg) (v : Elem) (ok : Bool) : (s.putMaybe d v ok).err = s.err := rfl
@[simp] theorem State.putMaybe_errCode (d : Reg) (v : Elem) (ok : Bool) : (s.putMaybe d v ok).errCode = s.errCode := rfl
@[simp] theorem State.putMaybe_script (d : Reg) (v : Elem) (ok : Bool) : (s.putMaybe d v ok).script = s.script := rfl
@[simp] theorem State.putMaybe_replies (d : Reg) (v : Elem) (ok : Bool) : (s.putMaybe d v ok).replies = s.replies := rfl
@[simp] theorem State.putMaybe_draws (d : Reg) (v : Elem) (ok : Bool) : (s.putMaybe d v ok).draws = s.draws := rfl

/-! ### bufWrite -/

@[simp] theorem State.bufWrite_regs (off : Nat) (bs : List Byte) : (s.bufWrite off bs).regs = s.regs := rfl
@[simp] theorem State.bufWrite_valid (off : Nat) (bs : List Byte) : (s.bufWrite off bs).valid = s.valid := rfl
@[simp] theorem State.bufWrite_c (off : Nat) (bs : List Byte) : (s.bufWrite off bs).c = s.c := rfl
@[simp] theorem State.bufWrite_buf (off : Nat) (bs : List Byte) : (s.bufWrite off bs).buf = s.buf.writeBytes off bs := rfl
@[simp] theorem State.bufWrite_busy (off : Nat) (bs : List Byte) : (s.bufWrite off bs).busy = s.busy := rfl
@[simp] theorem State.bufWrite_pend (off : Nat) (bs : List Byte) : (s.bufWrite off bs).pend = s.pend := rfl
@[simp] theorem State.bufWrite_lastCmd (off : Nat) (bs : List Byte) : (s.bufWrite off bs).lastCmd = s.lastCmd := rfl
@[simp] theorem State.bufWrite_err (off : Nat) (bs : List Byte) : (s.bufWrite off bs).err = s.err := rfl
@[simp] theorem State.bufWrite_errCode (off : Nat) (bs : List Byte) : (s.bufWrite off bs).errCode = s.errCode := rfl
@[simp] theorem State.bufWrite_script (off : Nat) (bs : List Byte) : (s.bufWrite off bs).script = s.script := rfl
@[simp] theorem State.bufWrite_replies (off : Nat) (bs : List Byte) : (s.bufWrite off bs).replies = s.replies := rfl
@[simp] theorem State.bufWrite_draws (off : Nat) (bs : List Byte) : (s.bufWrite off bs).draws = s.draws := rfl

/-! ### record -/

@[simp] theorem State.record_regs (e : ErrorCode) : (s.record e).regs = s.regs := rfl
@[simp] theorem State.record_valid (e : ErrorCode) : (s.record e).valid = s.valid := rfl
@[simp] theorem State.record_c (e : ErrorCode) : (s.record e).c = s.c := rfl
@[simp] theorem State.record_buf (e : ErrorCode) : (s.record e).buf = s.buf := rfl
@[simp] theorem State.record_busy (e : ErrorCode) : (s.record e).busy = s.busy := rfl
@[simp] theorem State.record_pend (e : ErrorCode) : (s.record e).pend = s.pend := rfl
@[simp] theorem State.record_lastCmd (e : ErrorCode) : (s.record e).lastCmd = s.lastCmd := rfl
@[simp] theorem State.record_err (e : ErrorCode) : (s.record e).err = true := rfl
@[simp] theorem State.record_errCode (e : ErrorCode) : (s.record e).errCode = if s.errCode = 0#4 then errorNumber e else s.errCode := rfl
@[simp] theorem State.record_script (e : ErrorCode) : (s.record e).script = s.script := rfl
@[simp] theorem State.record_replies (e : ErrorCode) : (s.record e).replies = s.replies := rfl
@[simp] theorem State.record_draws (e : ErrorCode) : (s.record e).draws = s.draws := rfl

/-! ### clearError -/

@[simp] theorem State.clearError_regs : s.clearError.regs = s.regs := rfl
@[simp] theorem State.clearError_valid : s.clearError.valid = s.valid := rfl
@[simp] theorem State.clearError_c : s.clearError.c = s.c := rfl
@[simp] theorem State.clearError_buf : s.clearError.buf = s.buf := rfl
@[simp] theorem State.clearError_busy : s.clearError.busy = s.busy := rfl
@[simp] theorem State.clearError_pend : s.clearError.pend = s.pend := rfl
@[simp] theorem State.clearError_lastCmd : s.clearError.lastCmd = s.lastCmd := rfl
@[simp] theorem State.clearError_err : s.clearError.err = false := rfl
@[simp] theorem State.clearError_errCode : s.clearError.errCode = 0 := rfl
@[simp] theorem State.clearError_script : s.clearError.script = s.script := rfl
@[simp] theorem State.clearError_replies : s.clearError.replies = s.replies := rfl
@[simp] theorem State.clearError_draws : s.clearError.draws = s.draws := rfl

/-! ### issue -/

@[simp] theorem State.issue_regs (w : Word) : (s.issue w).regs = s.regs := rfl
@[simp] theorem State.issue_valid (w : Word) : (s.issue w).valid = s.valid := rfl
@[simp] theorem State.issue_c (w : Word) : (s.issue w).c = s.c := rfl
@[simp] theorem State.issue_buf (w : Word) : (s.issue w).buf = s.buf := rfl
@[simp] theorem State.issue_busy (w : Word) : (s.issue w).busy = true := rfl
@[simp] theorem State.issue_pend (w : Word) : (s.issue w).pend = w := rfl
@[simp] theorem State.issue_lastCmd (w : Word) : (s.issue w).lastCmd = w := rfl
@[simp] theorem State.issue_err (w : Word) : (s.issue w).err = s.err := rfl
@[simp] theorem State.issue_errCode (w : Word) : (s.issue w).errCode = s.errCode := rfl
@[simp] theorem State.issue_script (w : Word) : (s.issue w).script = s.script := rfl
@[simp] theorem State.issue_replies (w : Word) : (s.issue w).replies = s.replies := rfl
@[simp] theorem State.issue_draws (w : Word) : (s.issue w).draws = s.draws := rfl

/-! ### complete -/

@[simp] theorem State.complete_regs : s.complete.regs = s.regs := rfl
@[simp] theorem State.complete_valid : s.complete.valid = s.valid := rfl
@[simp] theorem State.complete_c : s.complete.c = s.c := rfl
@[simp] theorem State.complete_buf : s.complete.buf = s.buf := rfl
@[simp] theorem State.complete_busy : s.complete.busy = false := rfl
@[simp] theorem State.complete_pend : s.complete.pend = s.pend := rfl
@[simp] theorem State.complete_lastCmd : s.complete.lastCmd = s.lastCmd := rfl
@[simp] theorem State.complete_err : s.complete.err = s.err := rfl
@[simp] theorem State.complete_errCode : s.complete.errCode = s.errCode := rfl
@[simp] theorem State.complete_script : s.complete.script = s.script := rfl
@[simp] theorem State.complete_replies : s.complete.replies = s.replies := rfl
@[simp] theorem State.complete_draws : s.complete.draws = s.draws := rfl

/-! ### resetUnit -/

@[simp] theorem State.resetUnit_regs : s.resetUnit.regs = State.reset.regs := rfl
@[simp] theorem State.resetUnit_valid : s.resetUnit.valid = State.reset.valid := rfl
@[simp] theorem State.resetUnit_c : s.resetUnit.c = State.reset.c := rfl
@[simp] theorem State.resetUnit_buf : s.resetUnit.buf = State.reset.buf := rfl
@[simp] theorem State.resetUnit_busy : s.resetUnit.busy = State.reset.busy := rfl
@[simp] theorem State.resetUnit_pend : s.resetUnit.pend = State.reset.pend := rfl
@[simp] theorem State.resetUnit_lastCmd : s.resetUnit.lastCmd = State.reset.lastCmd := rfl
@[simp] theorem State.resetUnit_err : s.resetUnit.err = State.reset.err := rfl
@[simp] theorem State.resetUnit_errCode : s.resetUnit.errCode = State.reset.errCode := rfl
@[simp] theorem State.resetUnit_script : s.resetUnit.script = s.script := rfl
@[simp] theorem State.resetUnit_replies : s.resetUnit.replies = s.replies := rfl
@[simp] theorem State.resetUnit_draws : s.resetUnit.draws = s.draws := rfl

/-! ### reply -/

@[simp] theorem State.reply_regs (w : Word) : (s.reply w).regs = s.regs := rfl
@[simp] theorem State.reply_valid (w : Word) : (s.reply w).valid = s.valid := rfl
@[simp] theorem State.reply_c (w : Word) : (s.reply w).c = s.c := rfl
@[simp] theorem State.reply_buf (w : Word) : (s.reply w).buf = s.buf := rfl
@[simp] theorem State.reply_busy (w : Word) : (s.reply w).busy = s.busy := rfl
@[simp] theorem State.reply_pend (w : Word) : (s.reply w).pend = s.pend := rfl
@[simp] theorem State.reply_lastCmd (w : Word) : (s.reply w).lastCmd = s.lastCmd := rfl
@[simp] theorem State.reply_err (w : Word) : (s.reply w).err = s.err := rfl
@[simp] theorem State.reply_errCode (w : Word) : (s.reply w).errCode = s.errCode := rfl
@[simp] theorem State.reply_script (w : Word) : (s.reply w).script = s.script := rfl
@[simp] theorem State.reply_replies (w : Word) : (s.reply w).replies = w :: s.replies := rfl
@[simp] theorem State.reply_draws (w : Word) : (s.reply w).draws = s.draws := rfl

/-! ### The register and BUF readers under the updates that do not touch them -/

@[simp] theorem State.putElem_byteAt (d : Reg) (v : Elem) (ok : Bool) (i : Nat) : (s.putElem d v ok).byteAt i = s.byteAt i := rfl
@[simp] theorem State.putElem_bufRead (d : Reg) (v : Elem) (ok : Bool) (o n : Nat) : (s.putElem d v ok).bufRead o n = s.bufRead o n := rfl
@[simp] theorem State.putC_elem (b : Bool) (i : Reg) : (s.putC b).elem i = s.elem i := rfl
@[simp] theorem State.putC_validAt (b : Bool) (i : Reg) : (s.putC b).validAt i = s.validAt i := rfl
@[simp] theorem State.putC_byteAt (b : Bool) (i : Nat) : (s.putC b).byteAt i = s.byteAt i := rfl
@[simp] theorem State.putC_bufRead (b : Bool) (o n : Nat) : (s.putC b).bufRead o n = s.bufRead o n := rfl
@[simp] theorem State.putMaybe_byteAt (d : Reg) (v : Elem) (ok : Bool) (i : Nat) : (s.putMaybe d v ok).byteAt i = s.byteAt i := rfl
@[simp] theorem State.putMaybe_bufRead (d : Reg) (v : Elem) (ok : Bool) (o n : Nat) : (s.putMaybe d v ok).bufRead o n = s.bufRead o n := rfl
@[simp] theorem State.bufWrite_elem (off : Nat) (bs : List Byte) (i : Reg) : (s.bufWrite off bs).elem i = s.elem i := rfl
@[simp] theorem State.bufWrite_validAt (off : Nat) (bs : List Byte) (i : Reg) : (s.bufWrite off bs).validAt i = s.validAt i := rfl
@[simp] theorem State.record_elem (e : ErrorCode) (i : Reg) : (s.record e).elem i = s.elem i := rfl
@[simp] theorem State.record_validAt (e : ErrorCode) (i : Reg) : (s.record e).validAt i = s.validAt i := rfl
@[simp] theorem State.record_byteAt (e : ErrorCode) (i : Nat) : (s.record e).byteAt i = s.byteAt i := rfl
@[simp] theorem State.record_bufRead (e : ErrorCode) (o n : Nat) : (s.record e).bufRead o n = s.bufRead o n := rfl
@[simp] theorem State.clearError_elem (i : Reg) : s.clearError.elem i = s.elem i := rfl
@[simp] theorem State.clearError_validAt (i : Reg) : s.clearError.validAt i = s.validAt i := rfl
@[simp] theorem State.clearError_byteAt (i : Nat) : s.clearError.byteAt i = s.byteAt i := rfl
@[simp] theorem State.clearError_bufRead (o n : Nat) : s.clearError.bufRead o n = s.bufRead o n := rfl
@[simp] theorem State.issue_elem (w : Word) (i : Reg) : (s.issue w).elem i = s.elem i := rfl
@[simp] theorem State.issue_validAt (w : Word) (i : Reg) : (s.issue w).validAt i = s.validAt i := rfl
@[simp] theorem State.issue_byteAt (w : Word) (i : Nat) : (s.issue w).byteAt i = s.byteAt i := rfl
@[simp] theorem State.issue_bufRead (w : Word) (o n : Nat) : (s.issue w).bufRead o n = s.bufRead o n := rfl
@[simp] theorem State.complete_elem (i : Reg) : s.complete.elem i = s.elem i := rfl
@[simp] theorem State.complete_validAt (i : Reg) : s.complete.validAt i = s.validAt i := rfl
@[simp] theorem State.complete_byteAt (i : Nat) : s.complete.byteAt i = s.byteAt i := rfl
@[simp] theorem State.complete_bufRead (o n : Nat) : s.complete.bufRead o n = s.bufRead o n := rfl
@[simp] theorem State.reply_elem (w : Word) (i : Reg) : (s.reply w).elem i = s.elem i := rfl
@[simp] theorem State.reply_validAt (w : Word) (i : Reg) : (s.reply w).validAt i = s.validAt i := rfl
@[simp] theorem State.reply_byteAt (w : Word) (i : Nat) : (s.reply w).byteAt i = s.byteAt i := rfl
@[simp] theorem State.reply_bufRead (w : Word) (o n : Nat) : (s.reply w).bufRead o n = s.bufRead o n := rfl

/-! ### What a register write leaves to read -/

@[simp] theorem State.putElem_elem (d : Reg) (v : Elem) (ok : Bool) (i : Reg) :
    (s.putElem d v ok).elem i = if d = i then v else s.elem i := by
  simp [State.elem, Vector.getElem_set, Fin.ext_iff]

theorem setValidBit_getLsbD (v : BitVec 16) (i : Reg) (b : Bool) (j : Reg) :
    (setValidBit v i b).getLsbD j = if i = j then b else v.getLsbD j := by
  have one : (1#16 <<< i.val).getLsbD j.val = decide (i = j) := by
    rw [← BitVec.twoPow_eq, BitVec.getLsbD_twoPow]
    simp [Fin.ext_iff]
  have hj : j.val < 16 := j.isLt
  cases b
  · simp only [setValidBit, Bool.false_eq_true, if_false, BitVec.getLsbD_and, BitVec.getLsbD_not, one]
    by_cases h : i = j <;> simp [h, hj]
  · simp only [setValidBit, if_true, BitVec.getLsbD_or, one]
    by_cases h : i = j <;> simp [h]

@[simp] theorem State.putElem_validAt (d : Reg) (v : Elem) (ok : Bool) (i : Reg) :
    (s.putElem d v ok).validAt i = if d = i then ok else s.validAt i :=
  setValidBit_getLsbD s.valid d ok i

@[simp] theorem State.putMaybe_elem (d : Reg) (v : Elem) (ok : Bool) (i : Reg) :
    (s.putMaybe d v ok).elem i = if d = i then v else s.elem i :=
  s.putElem_elem d v ok i

@[simp] theorem State.putMaybe_validAt (d : Reg) (v : Elem) (ok : Bool) (i : Reg) :
    (s.putMaybe d v ok).validAt i = if d = i then ok else s.validAt i :=
  s.putElem_validAt d v ok i

@[simp] theorem State.resetUnit_elem (i : Reg) : s.resetUnit.elem i = ⟨0, 0, 0, 0⟩ := by
  simp [State.elem, State.reset]

@[simp] theorem State.resetUnit_validAt (i : Reg) : s.resetUnit.validAt i = false := by
  simp [State.validAt, State.reset]

end Sys2Proof.Machine
end

