-- ==== Sys2Proof/Laws/Memory.lean ====
section
/-! SUPPORT. BUF: a read after a write, the frame of a write, and that every operation keeps the form of
the list. -/

namespace Sys2Proof.Machine

namespace Memory

@[simp] theorem read_nil (i : Nat) : Memory.read i [] = 0#8 := rfl

theorem wf_nil : Memory.wf [] := by simp [Memory.wf]

theorem wf_tail {x : Host.Cell} {m : Memory} (h : Memory.wf (x :: m)) : Memory.wf m :=
  ⟨(List.pairwise_cons.1 h.1).2, fun y hy => h.2 y (List.mem_cons_of_mem _ hy)⟩

/-- An index below every listed index reads 0x00. -/
theorem read_below {m : Memory} {i : Nat} (h : ∀ x ∈ m, i < x.1) : m.read i = 0#8 := by
  induction m with
  | nil => rfl
  | cons x rest ih =>
    obtain ⟨j, b⟩ := x
    have hj : i < j := h (j, b) (List.mem_cons_self ..)
    rw [Memory.read, if_neg (by omega)]
    exact ih fun y hy => h y (List.mem_cons_of_mem _ hy)

/-- A write leaves every other byte alone, whatever the form of the list. -/
theorem read_write_of_ne (m : Memory) {i j : Nat} (v : Byte) (h : i ≠ j) :
    (m.write i v).read j = m.read j := by
  induction m with
  | nil => by_cases hv : v = 0#8 <;> simp [Memory.write, Memory.read, hv, h]
  | cons x rest ih =>
    obtain ⟨k, b⟩ := x
    by_cases h1 : i < k
    · by_cases hv : v = 0#8 <;> simp [Memory.write, Memory.read, h1, hv, h]
    · by_cases h2 : i = k
      · subst h2
        by_cases hv : v = 0#8 <;> simp [Memory.write, Memory.read, hv, h]
      · simp only [Memory.write, h1, h2, if_false, Memory.read, ih]

/-- A byte written reads back. -/
theorem read_write_self {m : Memory} (hm : m.Pairwise (fun x y => x.1 < y.1)) (i : Nat) (v : Byte) :
    (m.write i v).read i = v := by
  induction m with
  | nil => by_cases hv : v = 0#8 <;> simp [Memory.write, Memory.read, hv]
  | cons x rest ih =>
    obtain ⟨k, b⟩ := x
    obtain ⟨hk, hrest⟩ := List.pairwise_cons.1 hm
    by_cases h1 : i < k
    · by_cases hv : v = 0#8
      · have : Memory.read i ((k, b) :: rest) = 0#8 := read_below fun y hy => by
          rcases List.mem_cons.1 hy with rfl | hy
          · exact h1
          · exact h1.trans (hk y hy)
        simp [Memory.write, h1, hv, this]
      · simp [Memory.write, Memory.read, h1, hv]
    · by_cases h2 : i = k
      · subst h2
        by_cases hv : v = 0#8
        · simp [Memory.write, hv, read_below hk]
        · simp [Memory.write, Memory.read, hv]
      · have : k ≠ i := fun h => h2 h.symm
        simp only [Memory.write, h1, h2, if_false, Memory.read, this, ih hrest]

theorem read_write {m : Memory} (hm : m.Pairwise (fun x y => x.1 < y.1)) (i j : Nat) (v : Byte) :
    (m.write i v).read j = if i = j then v else m.read j := by
  by_cases h : i = j
  · subst h; simp [read_write_self hm]
  · simp [h, read_write_of_ne m v h]

theorem mem_write {m : Memory} {i : Nat} {v : Byte} {x : Host.Cell} (h : x ∈ m.write i v) :
    x ∈ m ∨ (x = (i, v) ∧ v ≠ 0#8) := by
  induction m with
  | nil =>
    by_cases hv : v = 0#8 <;> simp [Memory.write, hv] at h
    exact .inr ⟨h, hv⟩
  | cons y rest ih =>
    obtain ⟨k, b⟩ := y
    by_cases h1 : i < k
    · by_cases hv : v = 0#8 <;> simp only [Memory.write, h1, hv, if_true, if_false] at h
      · exact .inl h
      · rcases List.mem_cons.1 h with rfl | h
        · exact .inr ⟨rfl, hv⟩
        · exact .inl h
    · by_cases h2 : i = k
      · by_cases hv : v = 0#8 <;> simp only [Memory.write, h2, hv, if_true, if_false] at h
        · simp only [lt_irrefl, if_false] at h
          exact .inl (List.mem_cons_of_mem _ h)
        · simp only [lt_irrefl, if_false] at h
          rcases List.mem_cons.1 h with rfl | h
          · exact .inr ⟨by rw [h2], hv⟩
          · exact .inl (List.mem_cons_of_mem _ h)
      · simp only [Memory.write, h1, h2, if_false] at h
        rcases List.mem_cons.1 h with rfl | h
        · exact .inl (List.mem_cons_self ..)
        · rcases ih h with h | h
          · exact .inl (List.mem_cons_of_mem _ h)
          · exact .inr h

theorem pairwise_write {m : Memory} (hm : m.Pairwise (fun x y => x.1 < y.1)) (i : Nat) (v : Byte) :
    (m.write i v).Pairwise (fun x y => x.1 < y.1) := by
  induction m with
  | nil => by_cases hv : v = 0#8 <;> simp [Memory.write, hv]
  | cons y rest ih =>
    obtain ⟨k, b⟩ := y
    obtain ⟨hk, hrest⟩ := List.pairwise_cons.1 hm
    by_cases h1 : i < k
    · by_cases hv : v = 0#8 <;> simp only [Memory.write, h1, hv, if_true, if_false]
      · exact hm
      · refine List.pairwise_cons.2 ⟨fun z hz => ?_, hm⟩
        rcases List.mem_cons.1 hz with rfl | hz
        · exact h1
        · exact h1.trans (hk z hz)
    · by_cases h2 : i = k
      · subst h2
        by_cases hv : v = 0#8 <;> simp only [Memory.write, lt_irrefl, hv, if_true, if_false]
        · exact hrest
        · exact List.pairwise_cons.2 ⟨hk, hrest⟩
      · simp only [Memory.write, h1, h2, if_false]
        refine List.pairwise_cons.2 ⟨fun z hz => ?_, ih hrest⟩
        rcases mem_write hz with hz | ⟨rfl, -⟩
        · exact hk z hz
        · show k < i
          omega

/-- A write of a byte of BUF keeps the form. -/
theorem wf_write {m : Memory} (hm : m.wf) {i : Nat} (hi : i < bufSize) (v : Byte) :
    (m.write i v).wf := by
  refine ⟨pairwise_write hm.1 i v, fun x hx => ?_⟩
  rcases mem_write hx with hx | ⟨rfl, hv⟩
  · exact hm.2 x hx
  · exact ⟨hi, hv⟩

/-- Writing bytes inside BUF keeps the form. -/
theorem wf_writeBytes {m : Memory} (hm : m.wf) {off : Nat} (bs : List Byte)
    (h : off + bs.length ≤ bufSize) : (Memory.writeBytes off bs m).wf := by
  induction bs generalizing off m with
  | nil => exact hm
  | cons b bs ih =>
    simp only [List.length_cons] at h
    exact ih (wf_write hm (by omega) b) (by omega)

/-- What BUF reads after a write of bytes: the bytes where they were stored, the old byte elsewhere. -/
theorem read_writeBytes {m : Memory} (hm : m.Pairwise (fun x y => x.1 < y.1)) (off : Nat)
    (bs : List Byte) (j : Nat) :
    (Memory.writeBytes off bs m).read j =
      if h : off ≤ j ∧ j - off < bs.length then bs[j - off]'h.2 else m.read j := by
  induction bs generalizing off m with
  | nil => simp [Memory.writeBytes]
  | cons b bs ih =>
    rw [Memory.writeBytes, ih (pairwise_write hm off b), read_write hm]
    by_cases h1 : off = j
    · subst h1; simp
    · by_cases h2 : off ≤ j ∧ j - off < (b :: bs).length
      · have h3 : off + 1 ≤ j ∧ j - (off + 1) < bs.length := by
          simp only [List.length_cons] at h2; omega
        have h4 : j - off = (j - (off + 1)) + 1 := by omega
        rw [dif_pos h3, dif_pos h2]
        simp only [h4, List.getElem_cons_succ]
      · have h3 : ¬(off + 1 ≤ j ∧ j - (off + 1) < bs.length) := by
          simp only [List.length_cons] at h2; omega
        rw [dif_neg h3, dif_neg h2, if_neg h1]

/-- A write of bytes leaves the bytes outside them alone, whatever the form of the list. -/
theorem read_writeBytes_outside (m : Memory) (off : Nat) (bs : List Byte) {j : Nat}
    (h : j < off ∨ off + bs.length ≤ j) : (Memory.writeBytes off bs m).read j = m.read j := by
  induction bs generalizing off m with
  | nil => rfl
  | cons b bs ih =>
    simp only [List.length_cons] at h
    rw [Memory.writeBytes, ih _ _ (by omega), read_write_of_ne m b (by omega)]

@[simp] theorem length_readBytes (m : Memory) (off n : Nat) : (m.readBytes off n).length = n := by
  induction n generalizing off with
  | zero => rfl
  | succ n ih => simp [Memory.readBytes, ih]

theorem getElem_readBytes (m : Memory) (off n j : Nat) (h : j < (m.readBytes off n).length) :
    (m.readBytes off n)[j] = m.read (off + j) := by
  induction n generalizing off j with
  | zero => simp [Memory.readBytes] at h
  | succ n ih =>
    cases j with
    | zero => rfl
    | succ j =>
      have hj : j < (m.readBytes (off + 1) n).length := by simpa using h
      simp only [Memory.readBytes, List.getElem_cons_succ, ih (off + 1) j hj]
      congr 1
      omega

/-- Bytes written read back. -/
theorem readBytes_writeBytes {m : Memory} (hm : m.Pairwise (fun x y => x.1 < y.1)) (off : Nat)
    (bs : List Byte) : (Memory.writeBytes off bs m).readBytes off bs.length = bs := by
  refine List.ext_getElem (by simp) fun j h1 h2 => ?_
  rw [getElem_readBytes, read_writeBytes hm]
  simp [h2]

end Memory

/-- BUF reads after a write of bytes. -/
theorem State.bufWrite_byteAt {s : State} (h : s.buf.wf) (off : Nat) (bs : List Byte) (j : Nat) :
    (s.bufWrite off bs).byteAt j =
      if h : off ≤ j ∧ j - off < bs.length then bs[j - off]'h.2 else s.byteAt j :=
  Memory.read_writeBytes h.1 off bs j

theorem State.bufRead_bufWrite {s : State} (h : s.buf.wf) (off : Nat) (bs : List Byte) :
    (s.bufWrite off bs).bufRead off bs.length = bs :=
  Memory.readBytes_writeBytes h.1 off bs

theorem State.bufWrite_byteAt_outside (s : State) (off : Nat) (bs : List Byte) {j : Nat}
    (h : j < off ∨ off + bs.length ≤ j) : (s.bufWrite off bs).byteAt j = s.byteAt j :=
  Memory.read_writeBytes_outside s.buf off bs h

theorem State.bufWrite_wf {s : State} (h : s.buf.wf) {off : Nat} (bs : List Byte)
    (hb : off + bs.length ≤ bufSize) : (s.bufWrite off bs).buf.wf :=
  Memory.wf_writeBytes h bs hb

@[simp] theorem State.length_bufRead (s : State) (off n : Nat) : (s.bufRead off n).length = n :=
  Memory.length_readBytes s.buf off n

theorem State.reset_buf_wf : State.reset.buf.wf := Memory.wf_nil

end Sys2Proof.Machine
end

