-- ==== Sys2Proof/Laws/Bytes.lean ====
section
/-! SUPPORT. Byte orders and hexadecimal strings: le and le_bytes, be and be_bytes, and the two hex maps are
inverse (R10, R54, R206). -/

namespace Sys2Proof.Machine

theorem leInt_lt (bs : List Byte) : leInt bs < 256 ^ bs.length := by
  induction bs with
  | nil => simp [leInt]
  | cons b bs ih =>
    have hb := b.isLt
    rw [leInt, List.length_cons, pow_succ]
    omega

theorem beInt_lt (bs : List Byte) : beInt bs < 256 ^ bs.length := by
  simpa [beInt] using leInt_lt bs.reverse

@[simp] theorem length_leBytes (n k : Nat) : (leBytes n k).length = k := by
  induction k generalizing n with
  | zero => rfl
  | succ k ih => simp [leBytes, ih]

@[simp] theorem length_beBytes (n k : Nat) : (beBytes n k).length = k := by
  simp [beBytes]

theorem leInt_leBytes (n k : Nat) : leInt (leBytes n k) = n % 256 ^ k := by
  induction k generalizing n with
  | zero => simp [leBytes, leInt, Nat.mod_one]
  | succ k ih =>
    rw [leBytes, leInt, ih, BitVec.toNat_ofNat, show 2 ^ 8 = 256 from rfl, pow_succ' 256 k, Nat.mod_mul]

theorem leInt_leBytes_of_lt {n k : Nat} (h : n < 256 ^ k) : leInt (leBytes n k) = n := by
  rw [leInt_leBytes, Nat.mod_eq_of_lt h]

theorem beInt_beBytes_of_lt {n k : Nat} (h : n < 256 ^ k) : beInt (beBytes n k) = n := by
  rw [beInt, beBytes, List.reverse_reverse, leInt_leBytes_of_lt h]

theorem leBytes_leInt (bs : List Byte) : leBytes (leInt bs) bs.length = bs := by
  induction bs with
  | nil => rfl
  | cons b bs ih =>
    have h1 : (b.toNat + 256 * leInt bs) / 256 = leInt bs := by have := b.isLt; omega
    have h2 : BitVec.ofNat 8 (b.toNat + 256 * leInt bs) = b := by
      apply BitVec.eq_of_toNat_eq
      rw [BitVec.toNat_ofNat]
      have := b.isLt
      omega
    rw [leInt, List.length_cons, leBytes, h1, h2, ih]

theorem leInt_append (xs ys : List Byte) : leInt (xs ++ ys) = leInt xs + 256 ^ xs.length * leInt ys := by
  induction xs with
  | nil => simp [leInt]
  | cons x xs ih =>
    rw [List.cons_append, leInt, leInt, ih, List.length_cons, pow_succ]
    ring

/-- A big-endian string of two parts (R212). -/
theorem beInt_append (xs ys : List Byte) : beInt (xs ++ ys) = beInt xs * 256 ^ ys.length + beInt ys := by
  rw [beInt, List.reverse_append, leInt_append, List.length_reverse, beInt, beInt]
  ring

@[simp] theorem length_orderedBytes (little : Bool) (n : Nat) : (orderedBytes little n).length = 32 := by
  cases little <;> simp [orderedBytes]

theorem orderedInt_orderedBytes (little : Bool) {n : Nat} (h : n < 2 ^ 256) :
    orderedInt little (orderedBytes little n) = n := by
  have h' : n < 256 ^ 32 := h.trans_eq (by norm_num)
  cases little
  · exact beInt_beBytes_of_lt h'
  · exact leInt_leBytes_of_lt h'

@[simp] theorem length_hexString (upper : Bool) (bs : List Byte) :
    (hexString upper bs).length = 2 * bs.length := by
  induction bs with
  | nil => rfl
  | cons b bs ih => simp only [hexString, List.length_cons, ih]; omega

/-- A character the encoder writes reads as its nibble, in either case (R206). -/
theorem nib_hexChr : ∀ v < 16, ∀ upper : Bool, nib (hexChr v upper) = (v, true) := by decide

/-- Decoding the hex string of a list of bytes gives the bytes back (R206, R207, R208). -/
theorem hexBytes_hexString (upper : Bool) (bs : List Byte) :
    hexBytes (hexString upper bs) = (bs, true) := by
  induction bs with
  | nil => rfl
  | cons b bs ih =>
    have hb := b.isLt
    have h1 := nib_hexChr (b.toNat / 16) (by omega) upper
    have h2 := nib_hexChr (b.toNat % 16) (by omega) upper
    have h3 : BitVec.ofNat 8 (16 * (b.toNat / 16) + b.toNat % 16) = b := by
      rw [Nat.div_add_mod]
      simp
    simp only [hexString, hexBytes, ih, h1, h2, h3, Bool.and_self]

theorem wordOf_bytesOf (w : Word) : wordOf (bytesOf w) = w := by
  have : w.toNat < 256 ^ 4 := w.isLt
  rw [wordOf, bytesOf, leInt_leBytes_of_lt this]
  simp

end Sys2Proof.Machine
end

