-- ==== Sys2Proof/Laws/Limbs.lean ====
section
/-! SUPPORT. The laws of limb tuples and of the 64-bit primitives: integers of limb tuples are bounded and
determine them, and mac, adc and sbb lose no bit (R100). -/

namespace Sys2Proof

theorem Elem.int_lt (A : Elem) : A.int < 2 ^ 256 := by
  have h0 := A.l0.isLt
  have h1 := A.l1.isLt
  have h2 := A.l2.isLt
  have h3 := A.l3.isLt
  unfold Elem.int
  omega

theorem Wide.int_lt (T : Wide) : T.int < 2 ^ 512 := by
  have h0 := T.l0.isLt
  have h1 := T.l1.isLt
  have h2 := T.l2.isLt
  have h3 := T.l3.isLt
  have h4 := T.l4.isLt
  have h5 := T.l5.isLt
  have h6 := T.l6.isLt
  have h7 := T.l7.isLt
  unfold Wide.int
  omega

/-- `limbs4` and `int` are inverse below 2^256 (R9). -/
theorem limbs4_int (n : Nat) : (limbs4 n).int = n % 2 ^ 256 := by
  simp only [limbs4, Elem.int, BitVec.toNat_ofNat]
  omega

theorem limbs4_int_of_lt {n : Nat} (h : n < 2 ^ 256) : (limbs4 n).int = n := by
  rw [limbs4_int, Nat.mod_eq_of_lt h]

theorem Elem.int_injective {A B : Elem} (h : A.int = B.int) : A = B := by
  obtain ⟨a0, a1, a2, a3⟩ := A
  obtain ⟨b0, b1, b2, b3⟩ := B
  simp only [Elem.int] at h
  have := a0.isLt
  have := a1.isLt
  have := a2.isLt
  have := a3.isLt
  have := b0.isLt
  have := b1.isLt
  have := b2.isLt
  have := b3.isLt
  simp only [Elem.mk.injEq, BitVec.toNat_eq]
  omega

theorem Elem.int_eq_iff {A B : Elem} : A.int = B.int ↔ A = B :=
  ⟨Elem.int_injective, fun h => h ▸ rfl⟩

theorem limbs4_of_int (A : Elem) : limbs4 A.int = A :=
  Elem.int_injective (limbs4_int_of_lt A.int_lt)

theorem limbs8_int (n : Nat) : (limbs8 n).int = n % 2 ^ 512 := by
  simp only [limbs8, Wide.int, BitVec.toNat_ofNat]
  omega

theorem limbs8_int_of_lt {n : Nat} (h : n < 2 ^ 512) : (limbs8 n).int = n := by
  rw [limbs8_int, Nat.mod_eq_of_lt h]

theorem Wide.int_injective {S T : Wide} (h : S.int = T.int) : S = T := by
  obtain ⟨a0, a1, a2, a3, a4, a5, a6, a7⟩ := S
  obtain ⟨b0, b1, b2, b3, b4, b5, b6, b7⟩ := T
  simp only [Wide.int] at h
  have := a0.isLt
  have := a1.isLt
  have := a2.isLt
  have := a3.isLt
  have := a4.isLt
  have := a5.isLt
  have := a6.isLt
  have := a7.isLt
  have := b0.isLt
  have := b1.isLt
  have := b2.isLt
  have := b3.isLt
  have := b4.isLt
  have := b5.isLt
  have := b6.isLt
  have := b7.isLt
  simp only [Wide.mk.injEq, BitVec.toNat_eq]
  omega

namespace Machine

@[simp] theorem mask_true : mask true = M64 := rfl
@[simp] theorem mask_false : mask false = 0 := rfl

@[simp] theorem selLimb_true (a b : Limb) : selLimb a b true = b := by
  have : M64 = BitVec.allOnes 64 := by decide
  simp only [selLimb, mask_true, this, BitVec.not_allOnes, BitVec.and_zero, BitVec.zero_or,
    BitVec.and_allOnes]

@[simp] theorem selLimb_false (a b : Limb) : selLimb a b false = a := by
  simp only [selLimb, mask_false, BitVec.ofNat_eq_ofNat, BitVec.not_zero, BitVec.and_allOnes,
    BitVec.and_zero, BitVec.or_zero]

/-- The masked select selects (R10). -/
@[simp] theorem sel_true (a b : Elem) : sel a b true = b := by simp [sel]

@[simp] theorem sel_false (a b : Elem) : sel a b false = a := by simp [sel]

theorem sel_eq (a b : Elem) (c : Bool) : sel a b c = if c then b else a := by
  cases c <;> simp

@[simp] theorem countDown_zero {α : Type} (f : Nat → α → α) (x : α) : countDown f 0 x = x := rfl
theorem countDown_succ {α : Type} (f : Nat → α → α) (n : Nat) (x : α) :
    countDown f (n + 1) x = countDown f n (f n x) := rfl
@[simp] theorem countUp_zero {α : Type} (f : Nat → α → α) (j : Nat) (x : α) : countUp f 0 j x = x := rfl
theorem countUp_succ {α : Type} (f : Nat → α → α) (n j : Nat) (x : α) :
    countUp f (n + 1) j x = countUp f n (j + 1) (f j x) := rfl

@[simp] theorem selNat_true (a b : Nat) : selNat a b true = b := rfl
@[simp] theorem selNat_false (a b : Nat) : selNat a b false = a := rfl

theorem loHi_exact {t : Nat} (h : t < 2 ^ 128) :
    (loHi t).1.toNat + (loHi t).2.toNat * 2 ^ 64 = t := by
  simp only [loHi, BitVec.toNat_ofNat]
  omega

/-- `mac` cannot overflow 128 bits (R100). -/
theorem mac_exact (a b c k : Limb) :
    (mac a b c k).1.toNat + (mac a b c k).2.toNat * 2 ^ 64
      = a.toNat + b.toNat * c.toNat + k.toNat := by
  refine loHi_exact ?_
  have ha := a.isLt
  have hk := k.isLt
  have : b.toNat * c.toNat ≤ (2 ^ 64 - 1) * (2 ^ 64 - 1) :=
    Nat.mul_le_mul (by have := b.isLt; omega) (by have := c.isLt; omega)
  omega

/-- `adc` loses no bit (R100). -/
theorem adc_exact (a b k : Limb) :
    (adc a b k).1.toNat + (adc a b k).2.toNat * 2 ^ 64 = a.toNat + b.toNat + k.toNat := by
  refine loHi_exact ?_
  have ha := a.isLt
  have hb := b.isLt
  have hk := k.isLt
  omega

/-- `adc` never carries out more than 1 when its carry in is a bit. -/
theorem adc_carry_le_one {a b k : Limb} (hk : k.toNat ≤ 1) : (adc a b k).2.toNat ≤ 1 := by
  have := adc_exact a b k
  have := a.isLt
  have := b.isLt
  omega

/-- `sbb` with a borrow of 0 or M64: the difference is exact, and the new borrow is 0 or M64 (R100). -/
theorem sbb_exact (a b k : Limb) (hk : k = 0 ∨ k = M64) :
    ((sbb a b k).2 = 0 ∧ (sbb a b k).1.toNat + b.toNat + k.toNat / 2 ^ 63 = a.toNat) ∨
    ((sbb a b k).2 = M64 ∧
      (sbb a b k).1.toNat + b.toNat + k.toNat / 2 ^ 63 = a.toNat + 2 ^ 64) := by
  have ha := a.isLt
  have hb := b.isLt
  have hm : M64.toNat = 2 ^ 64 - 1 := by decide
  have h0 : (0 : Limb).toNat = 0 := rfl
  have hβ : k.toNat / 2 ^ 63 = 0 ∨ k.toNat / 2 ^ 63 = 1 := by
    rcases hk with rfl | rfl
    · exact .inl rfl
    · exact .inr (by decide)
  simp only [sbb, loHi, BitVec.toNat_eq, BitVec.toNat_ofNat, hm, h0]
  by_cases h : b.toNat + k.toNat / 2 ^ 63 ≤ a.toNat
  · left; omega
  · right; omega

end Machine

end Sys2Proof
end

