-- ==== Sys2Proof/Laws/Datapath.lean ====
section
/-! SUPPORT. One law for each piece of the datapath, saying what integer it computes (R102 to R107, R112,
R115, R177, R200, R203). -/

namespace Sys2Proof.Machine

theorem Q_int : Q.int = q := by decide

theorem q_lt : q < 2 ^ 255 := by decide

theorem q_pos : 0 < q := by decide

/-- A borrow chain over the four limbs of A - B: the difference and the final borrow. -/
theorem sbb_chain (A B : Elem) :
    let d0 := sbb A.l0 B.l0 0
    let d1 := sbb A.l1 B.l1 d0.2
    let d2 := sbb A.l2 B.l2 d1.2
    let d3 := sbb A.l3 B.l3 d2.2
    let D : Elem := ⟨d0.1, d1.1, d2.1, d3.1⟩
    (d3.2 = 0 ∧ B.int ≤ A.int ∧ D.int = A.int - B.int) ∨
    (d3.2 = M64 ∧ A.int < B.int ∧ D.int = A.int + 2 ^ 256 - B.int) := by
  intro d0
  have h0 := sbb_exact A.l0 B.l0 0 (.inl rfl)
  change (d0.2 = 0 ∧ d0.1.toNat + _ + _ = _) ∨ (d0.2 = M64 ∧ d0.1.toNat + _ + _ = _) at h0
  clear_value d0
  intro d1
  have h1 := sbb_exact A.l1 B.l1 d0.2 (h0.imp And.left And.left)
  change (d1.2 = 0 ∧ d1.1.toNat + _ + _ = _) ∨ (d1.2 = M64 ∧ d1.1.toNat + _ + _ = _) at h1
  clear_value d1
  intro d2
  have h2 := sbb_exact A.l2 B.l2 d1.2 (h1.imp And.left And.left)
  change (d2.2 = 0 ∧ d2.1.toNat + _ + _ = _) ∨ (d2.2 = M64 ∧ d2.1.toNat + _ + _ = _) at h2
  clear_value d2
  intro d3
  have h3 := sbb_exact A.l3 B.l3 d2.2 (h2.imp And.left And.left)
  change (d3.2 = 0 ∧ d3.1.toNat + _ + _ = _) ∨ (d3.2 = M64 ∧ d3.1.toNat + _ + _ = _) at h3
  clear_value d3
  intro D
  have z : (0 : Limb).toNat / 2 ^ 63 = 0 := rfl
  have m : M64.toNat / 2 ^ 63 = 1 := by decide
  have a0 := A.l0.isLt
  have a1 := A.l1.isLt
  have a2 := A.l2.isLt
  have a3 := A.l3.isLt
  have c0 := B.l0.isLt
  have c1 := B.l1.isLt
  have c2 := B.l2.isLt
  have c3 := B.l3.isLt
  have e0 := d0.1.isLt
  have e1 := d1.1.isLt
  have e2 := d2.1.isLt
  have e3 := d3.1.isLt
  simp only [Elem.int, D]
  rcases h0 with ⟨g0, h0⟩ | ⟨g0, h0⟩ <;> rw [g0] at h1 <;>
  rcases h1 with ⟨g1, h1⟩ | ⟨g1, h1⟩ <;> rw [g1] at h2 <;>
  rcases h2 with ⟨g2, h2⟩ | ⟨g2, h2⟩ <;> rw [g2] at h3 <;>
  rcases h3 with ⟨g3, h3⟩ | ⟨g3, h3⟩ <;>
  simp only [z, m] at h0 h1 h2 h3
  all_goals first
    | (left; refine ⟨g3, ?_, ?_⟩ <;> omega)
    | (right; refine ⟨g3, ?_, ?_⟩ <;> omega)

/-- A carry chain over the four limbs of A + B: the sum modulo 2^256. -/
theorem adc_chain (A B : Elem) :
    let s0 := adc A.l0 B.l0 0
    let s1 := adc A.l1 B.l1 s0.2
    let s2 := adc A.l2 B.l2 s1.2
    let s3 := adc A.l3 B.l3 s2.2
    (⟨s0.1, s1.1, s2.1, s3.1⟩ : Elem).int = (A.int + B.int) % 2 ^ 256 := by
  intro s0
  have h0 := adc_exact A.l0 B.l0 0
  change s0.1.toNat + s0.2.toNat * _ = _ at h0
  clear_value s0
  intro s1
  have h1 := adc_exact A.l1 B.l1 s0.2
  change s1.1.toNat + s1.2.toNat * _ = _ at h1
  clear_value s1
  intro s2
  have h2 := adc_exact A.l2 B.l2 s1.2
  change s2.1.toNat + s2.2.toNat * _ = _ at h2
  clear_value s2
  intro s3
  have h3 := adc_exact A.l3 B.l3 s2.2
  change s3.1.toNat + s3.2.toNat * _ = _ at h3
  clear_value s3
  have z : (0 : Limb).toNat = 0 := rfl
  have e0 := s0.1.isLt
  have e1 := s1.1.isLt
  have e2 := s2.1.isLt
  have e3 := s3.1.isLt
  simp only [Elem.int]
  omega

/-- The mask of a borrow on q (R104). -/
theorem Q_and_borrow {br : Limb} (h : br = 0 ∨ br = M64) :
    (⟨Q.l0 &&& br, Q.l1 &&& br, Q.l2 &&& br, Q.l3 &&& br⟩ : Elem).int = if br = 0 then 0 else q := by
  rcases h with rfl | rfl <;> decide

/-- `subm` (R104): the difference, plus q modulo 2^256 when it borrows. -/
theorem subm_int (A B : Elem) :
    (subm A B).int =
      if A.int < B.int then (A.int + 2 ^ 256 - B.int + q) % 2 ^ 256 else A.int - B.int := by
  have h := sbb_chain A B
  unfold subm
  revert h
  intro h
  dsimp only at h ⊢
  generalize sbb A.l0 B.l0 0 = d0 at *
  generalize sbb A.l1 B.l1 d0.2 = d1 at *
  generalize sbb A.l2 B.l2 d1.2 = d2 at *
  generalize sbb A.l3 B.l3 d2.2 = d3 at *
  have hbr : d3.2 = 0 ∨ d3.2 = M64 := h.imp And.left And.left
  have hs := adc_chain ⟨d0.1, d1.1, d2.1, d3.1⟩ ⟨Q.l0 &&& d3.2, Q.l1 &&& d3.2, Q.l2 &&& d3.2, Q.l3 &&& d3.2⟩
  dsimp only at hs
  rw [hs, Q_and_borrow hbr]
  have hA := A.int_lt
  have hB := B.int_lt
  have hq := q_lt
  have hM : M64 ≠ 0 := by decide
  rcases h with ⟨g, hle, hD⟩ | ⟨g, hlt, hD⟩
  · rw [hD, if_pos g, if_neg (by omega), Nat.add_zero, Nat.mod_eq_of_lt (by omega)]
  · rw [hD, if_neg (by rw [g]; exact hM), if_pos hlt]

/-- Modular subtraction of two values below q (R104, R111). -/
theorem subm_int_of_lt {A B : Elem} (hA : A.int < q) (hB : B.int < q) :
    (subm A B).int = (A.int + q - B.int) % q := by
  have hq := q_lt
  rw [subm_int]
  split
  · rw [show A.int + 2 ^ 256 - B.int + q = (A.int + q - B.int) + 2 ^ 256 by omega, Nat.add_mod_right,
      Nat.mod_eq_of_lt (by omega), Nat.mod_eq_of_lt (by omega)]
  · rw [show A.int + q - B.int = (A.int - B.int) + q by omega, Nat.add_mod_right,
      Nat.mod_eq_of_lt (by omega)]

/-- Trial subtraction of q below 2q (R104). -/
theorem subm_Q_int {X : Elem} (h : X.int < 2 * q) : (subm X Q).int = X.int % q := by
  have hq := q_lt
  rw [subm_int, Q_int]
  split
  · rw [show X.int + 2 ^ 256 - q + q = X.int + 2 ^ 256 by omega, Nat.add_mod_right,
      Nat.mod_eq_of_lt (by omega), Nat.mod_eq_of_lt (by omega)]
  · rw [show X.int = (X.int - q) + q by omega, Nat.add_mod_right, Nat.mod_eq_of_lt (by omega)]
    omega

/-- `addm` (R105): the sum modulo q of two values below q. -/
theorem addm_int {A B : Elem} (hA : A.int < q) (hB : B.int < q) :
    (addm A B).int = (A.int + B.int) % q := by
  have hq := q_lt
  have hs := adc_chain A B
  unfold addm
  dsimp only at hs ⊢
  rw [subm_Q_int, hs, Nat.mod_eq_of_lt (a := A.int + B.int) (by omega)]
  rw [hs, Nat.mod_eq_of_lt (by omega)]
  omega

/-- The last borrow of A - B tells A < B (R142, R200). -/
theorem borrowOf_bit (A B : Elem) : (borrowOf A B).getLsbD 0 = decide (A.int < B.int) := by
  have h := sbb_chain A B
  unfold borrowOf
  dsimp only at h ⊢
  have h0 : (0 : Limb).getLsbD 0 = false := by decide
  have h1 : M64.getLsbD 0 = true := by decide
  rcases h with ⟨g, hle, -⟩ | ⟨g, hlt, -⟩
  · rw [g, h0]; exact (decide_eq_false (by omega)).symm
  · rw [g, h1]; exact (decide_eq_true hlt).symm

/-- `lt_q` (R200). -/
theorem ltQ_eq (N : Elem) : ltQ N = decide (N.int < q) := by
  rw [ltQ, borrowOf_bit, Q_int]

/-- The OR of four limbs is zero exactly for the value 0. -/
theorem or_limbs_eq_zero (A : Elem) : (A.l0 ||| A.l1 ||| A.l2 ||| A.l3) = 0 ↔ A.int = 0 := by
  have e : (0 : Limb) = 0#64 := rfl
  have z : (0#64 : Limb).toNat = 0 := rfl
  rw [e, BitVec.or_eq_zero_iff, BitVec.or_eq_zero_iff, BitVec.or_eq_zero_iff]
  simp only [BitVec.toNat_eq, z, Elem.int]
  omega

/-- `NEG`'s datapath (R112): q minus the value, and 0 for 0. -/
theorem negm_int {A : Elem} (hA : A.int < q) : (negm A).int = (q - A.int) % q := by
  have h := sbb_chain Q A
  rw [Q_int] at h
  unfold negm
  dsimp only at h ⊢
  have hd := h.resolve_right (by omega)
  by_cases hz : A.int = 0
  · rw [if_pos ((or_limbs_eq_zero A).2 hz), hz]
    simp [Elem.int]
  · rw [if_neg (mt (or_limbs_eq_zero A).1 hz)]
    have : (0 : Limb) - 1 = BitVec.allOnes 64 := by decide
    rw [this]
    simp only [BitVec.and_allOnes]
    rw [hd.2.2, Nat.mod_eq_of_lt (by omega)]

/-- One row of the multiplier (R102) loses no carry. -/
theorem mulRow_int (t : Elem) (a : Limb) (B : Elem) :
    (mulRow t a B).1.toNat + (mulRow t a B).2.int * 2 ^ 64 = t.int + a.toNat * B.int := by
  unfold mulRow
  dsimp only
  have h0 := mac_exact t.l0 a B.l0 0
  generalize mac t.l0 a B.l0 0 = m0 at *
  have h1 := mac_exact t.l1 a B.l1 m0.2
  generalize mac t.l1 a B.l1 m0.2 = m1 at *
  have h2 := mac_exact t.l2 a B.l2 m1.2
  generalize mac t.l2 a B.l2 m1.2 = m2 at *
  have h3 := mac_exact t.l3 a B.l3 m2.2
  generalize mac t.l3 a B.l3 m2.2 = m3 at *
  have z : (0 : Limb).toNat = 0 := rfl
  rw [z] at h0
  simp only [Elem.int]
  zify at h0 h1 h2 h3 ⊢
  linear_combination h0 + 2 ^ 64 * h1 + 2 ^ 128 * h2 + 2 ^ 192 * h3

/-- `schoolbook` is exact on every pair of 256-bit operands (R103). -/
theorem schoolbook_int (A B : Elem) : (schoolbook A B).int = A.int * B.int := by
  have h0 := mulRow_int ZERO A.l0 B
  have h1 := mulRow_int (mulRow ZERO A.l0 B).2 A.l1 B
  have h2 := mulRow_int (mulRow (mulRow ZERO A.l0 B).2 A.l1 B).2 A.l2 B
  have h3 := mulRow_int (mulRow (mulRow (mulRow ZERO A.l0 B).2 A.l1 B).2 A.l2 B).2 A.l3 B
  have z : ZERO.int = 0 := by decide
  rw [z] at h0
  unfold schoolbook
  dsimp only
  generalize mulRow ZERO A.l0 B = r0 at *
  generalize mulRow r0.2 A.l1 B = r1 at *
  generalize mulRow r1.2 A.l2 B = r2 at *
  generalize mulRow r2.2 A.l3 B = r3 at *
  have hA : A.int * B.int = A.l0.toNat * B.int + A.l1.toNat * B.int * 2 ^ 64
      + A.l2.toNat * B.int * 2 ^ 128 + A.l3.toNat * B.int * 2 ^ 192 := by
    simp only [Elem.int]; ring
  rw [hA]
  simp only [Wide.int]
  have e3 : r3.2.int = r3.2.l0.toNat + 2 ^ 64 * r3.2.l1.toNat + 2 ^ 128 * r3.2.l2.toNat
      + 2 ^ 192 * r3.2.l3.toNat := rfl
  omega

/-- `square_product` is exact (R115), so it is the schoolbook product of A with itself. -/
theorem squareProduct_int (A : Elem) : (squareProduct A).int = A.int * A.int := by
  refine limbs8_int_of_lt ?_
  rw [show 512 = 256 + 256 from rfl, pow_add]
  exact Nat.mul_lt_mul'' A.int_lt A.int_lt

theorem squareProduct_eq (A : Elem) : squareProduct A = schoolbook A A :=
  Wide.int_injective (by rw [squareProduct_int, schoolbook_int])

theorem sqr_eq_mul (A : Elem) : sqr A = mul A A := by rw [sqr, mul, squareProduct_eq]

/-- One round of the reduction engine adds a multiple of q that clears the low limb (R106). -/
theorem redcRound_int (r0 r1 r2 r3 r4 c : Limb) :
    ∃ k < 2 ^ 64,
      ((redcRound r0 r1 r2 r3 r4 c).1.int + (redcRound r0 r1 r2 r3 r4 c).2.toNat * 2 ^ 256) * 2 ^ 64
        = r0.toNat + r1.toNat * 2 ^ 64 + r2.toNat * 2 ^ 128 + r3.toNat * 2 ^ 192
          + (r4.toNat + c.toNat) * 2 ^ 256 + k * q := by
  refine ⟨(r0 * INV).toNat, (r0 * INV).isLt, ?_⟩
  have hk : (r0.toNat + (r0 * INV).toNat * Q.l0.toNat) % 2 ^ 64 = 0 := by
    have hQ : Q.l0.toNat = 0xffffffff00000001 := rfl
    have hI : INV.toNat = 0xfffffffeffffffff := rfl
    rw [hQ, BitVec.toNat_mul, hI]
    omega
  unfold redcRound
  dsimp only
  generalize r0 * INV = k at *
  have h0 := mac_exact r0 k Q.l0 0
  generalize mac r0 k Q.l0 0 = m0 at *
  have h1 := mac_exact r1 k Q.l1 m0.2
  generalize mac r1 k Q.l1 m0.2 = m1 at *
  have h2 := mac_exact r2 k Q.l2 m1.2
  generalize mac r2 k Q.l2 m1.2 = m2 at *
  have h3 := mac_exact r3 k Q.l3 m2.2
  generalize mac r3 k Q.l3 m2.2 = m3 at *
  have h4 := adc_exact r4 c m3.2
  generalize adc r4 c m3.2 = s at *
  have z : (0 : Limb).toNat = 0 := rfl
  have b0 := m0.1.isLt
  have hq : k.toNat * q = k.toNat * Q.l0.toNat + k.toNat * Q.l1.toNat * 2 ^ 64
      + k.toNat * Q.l2.toNat * 2 ^ 128 + k.toNat * Q.l3.toNat * 2 ^ 192 := by
    rw [← Q_int]; simp only [Elem.int]; ring
  rw [hq]
  simp only [Elem.int]
  generalize k.toNat * Q.l0.toNat = p0 at *
  generalize k.toNat * Q.l1.toNat = p1 at *
  generalize k.toNat * Q.l2.toNat = p2 at *
  generalize k.toNat * Q.l3.toNat = p3 at *
  omega

/-- The reduction engine under its bound (R107): the four rounds add m * q with m below 2^256, the top four
limbs hold U = (T + m * q) / 2^256 < 2q, and the trial subtraction reduces U. -/
theorem redc_exact {T : Wide} (hT : T.int < q * 2 ^ 256) :
    (redc T).int < q ∧ ∃ m < 2 ^ 256, ∃ e, ((redc T).int + e * q) * 2 ^ 256 = T.int + m * q := by
  unfold redc
  dsimp only
  obtain ⟨k0, hk0, h0⟩ := redcRound_int T.l0 T.l1 T.l2 T.l3 T.l4 0
  generalize redcRound T.l0 T.l1 T.l2 T.l3 T.l4 0 = a at *
  obtain ⟨k1, hk1, h1⟩ := redcRound_int a.1.l0 a.1.l1 a.1.l2 a.1.l3 T.l5 a.2
  generalize redcRound a.1.l0 a.1.l1 a.1.l2 a.1.l3 T.l5 a.2 = b at *
  obtain ⟨k2, hk2, h2⟩ := redcRound_int b.1.l0 b.1.l1 b.1.l2 b.1.l3 T.l6 b.2
  generalize redcRound b.1.l0 b.1.l1 b.1.l2 b.1.l3 T.l6 b.2 = c at *
  obtain ⟨k3, hk3, h3⟩ := redcRound_int c.1.l0 c.1.l1 c.1.l2 c.1.l3 T.l7 c.2
  generalize redcRound c.1.l0 c.1.l1 c.1.l2 c.1.l3 T.l7 c.2 = d at *
  have z : (0 : Limb).toNat = 0 := rfl
  have hm : (k0 + k1 * 2 ^ 64 + k2 * 2 ^ 128 + k3 * 2 ^ 192) < 2 ^ 256 := by omega
  have hU : (d.1.int + d.2.toNat * 2 ^ 256) * 2 ^ 256
      = T.int + (k0 + k1 * 2 ^ 64 + k2 * 2 ^ 128 + k3 * 2 ^ 192) * q := by
    rw [z] at h0
    simp only [Wide.int]
    simp only [Elem.int] at h0 h1 h2 h3 ⊢
    have e2 : (2 : ℕ) ^ 128 = (2 ^ 64) ^ 2 := by rw [← pow_mul]
    have e3 : (2 : ℕ) ^ 192 = (2 ^ 64) ^ 3 := by rw [← pow_mul]
    have e4 : (2 : ℕ) ^ 256 = (2 ^ 64) ^ 4 := by rw [← pow_mul]
    have e5 : (2 : ℕ) ^ 320 = (2 ^ 64) ^ 5 := by rw [← pow_mul]
    have e6 : (2 : ℕ) ^ 384 = (2 ^ 64) ^ 6 := by rw [← pow_mul]
    have e7 : (2 : ℕ) ^ 448 = (2 ^ 64) ^ 7 := by rw [← pow_mul]
    simp only [e2, e3, e4, e5, e6, e7] at h0 h1 h2 h3 ⊢
    generalize (2 : ℕ) ^ 64 = X at h0 h1 h2 h3 ⊢
    zify at h0 h1 h2 h3 ⊢
    linear_combination h0 + X * h1 + X ^ 2 * h2 + X ^ 3 * h3
  have hq := q_lt
  have hbound : d.1.int + d.2.toNat * 2 ^ 256 < 2 * q := by
    have : (k0 + k1 * 2 ^ 64 + k2 * 2 ^ 128 + k3 * 2 ^ 192) * q ≤ 2 ^ 256 * q :=
      Nat.mul_le_mul_right _ hm.le
    omega
  have hc : d.2.toNat = 0 := by omega
  rw [hc, Nat.zero_mul, Nat.add_zero] at hU hbound
  rw [subm_Q_int hbound]
  refine ⟨Nat.mod_lt _ q_pos, _, hm, d.1.int / q, ?_⟩
  rw [← hU, Nat.mod_add_div']

theorem redc_lt {T : Wide} (hT : T.int < q * 2 ^ 256) : (redc T).int < q := (redc_exact hT).1

/-- The inverse of 2^256 modulo q (R11). -/
theorem rInv_mul : 2 ^ 256 * rInv % q = 1 := by decide

/-- `redc(T)` is T * 2^-256 mod q under the bound (R107). -/
theorem redc_int {T : Wide} (hT : T.int < q * 2 ^ 256) : (redc T).int = T.int * rInv % q := by
  obtain ⟨hlt, m, -, e, h⟩ := redc_exact hT
  have h1 : (redc T).int * 2 ^ 256 ≡ T.int [MOD q] := by
    have h2 : ((redc T).int + e * q) * 2 ^ 256 ≡ T.int + m * q [MOD q] := by rw [h]
    have h3 : (redc T).int * 2 ^ 256 ≡ ((redc T).int + e * q) * 2 ^ 256 [MOD q] := by
      refine Nat.ModEq.mul_right _ ?_
      simp [Nat.ModEq]
    exact h3.trans (h2.trans (by simp [Nat.ModEq]))
  have h4 : (redc T).int * (2 ^ 256 * rInv) ≡ T.int * rInv [MOD q] := by
    rw [← Nat.mul_assoc]; exact h1.mul_right _
  have h5 : (redc T).int * (2 ^ 256 * rInv) ≡ (redc T).int * 1 [MOD q] :=
    Nat.ModEq.mul_left _ rInv_mul
  have h6 : (redc T).int ≡ T.int * rInv [MOD q] := by simpa using h5.symm.trans h4
  rw [← h6, Nat.mod_eq_of_lt hlt]

/-- A product of a value below q and any 256-bit value meets the bound of R107. -/
theorem mul_bound_left {A : Elem} (hA : A.int < q) (B : Elem) :
    (schoolbook A B).int < q * 2 ^ 256 := by
  rw [schoolbook_int]
  exact Nat.mul_lt_mul'' hA B.int_lt

theorem mul_bound_right (A : Elem) {B : Elem} (hB : B.int < q) :
    (schoolbook A B).int < q * 2 ^ 256 := by
  rw [schoolbook_int, Nat.mul_comm]
  exact Nat.mul_lt_mul'' hB A.int_lt

/-- `mul` with one operand below q (R107, R114). -/
theorem mul_int_left {A : Elem} (hA : A.int < q) (B : Elem) :
    (mul A B).int = A.int * B.int * rInv % q := by
  rw [mul, redc_int (mul_bound_left hA B), schoolbook_int]

theorem mul_int_right (A : Elem) {B : Elem} (hB : B.int < q) :
    (mul A B).int = A.int * B.int * rInv % q := by
  rw [mul, redc_int (mul_bound_right A hB), schoolbook_int]

theorem add_zeros (x a b c d h : Nat) (hh : h = 0) : x + a * h + b * h + c * h + d * h = x := by
  subst hh; simp
theorem int_of_high_zero (l0 l1 l2 l3 h : Limb) (hh : h.toNat = 0) :
    (⟨l0, l1, l2, l3, h, h, h, h⟩ : Wide).int = (⟨l0, l1, l2, l3⟩ : Elem).int :=
  add_zeros (l0.toNat + 2 ^ 64 * l1.toNat + 2 ^ 128 * l2.toNat + 2 ^ 192 * l3.toNat) _ _ _ _ _ hh

theorem padded_int (A : Elem) : (padded A).int = A.int := by
  have z : (0 : Limb).toNat = 0 := by decide
  obtain ⟨l0, l1, l2, l3⟩ := A
  exact int_of_high_zero l0 l1 l2 l3 0 z

/-- `canon(A)` is val(A) for a stored value of any 256 bits (R203). -/
theorem canon_int (A : Elem) : (canon A).int = A.val := by
  have : (padded A).int < q * 2 ^ 256 := by
    rw [padded_int]
    exact A.int_lt.trans_le (Nat.le_mul_of_pos_left _ q_pos)
  rw [canon, redc_int this, padded_int, Elem.val]

theorem canon_lt (A : Elem) : (canon A).int < q := by
  rw [canon_int]; exact Nat.mod_lt _ q_pos

/-- The shifted limbs are half the integer, rounded down (R177). -/
theorem shiftRight1_int (c : Elem) : (shiftRight1 c).int = c.int / 2 := by
  have or_add (x y : Limb) : ((x >>> 1) ||| (y <<< 63)).toNat
      = x.toNat / 2 + (y.toNat % 2) * 2 ^ 63 := by
    have hx := x.isLt
    have hy := y.isLt
    rw [BitVec.toNat_or, BitVec.toNat_ushiftRight, BitVec.toNat_shiftLeft, Nat.shiftRight_eq_div_pow,
      Nat.shiftLeft_eq, show y.toNat * 2 ^ 63 % 2 ^ 64 = 2 ^ 63 * (y.toNat % 2) by omega, Nat.or_comm,
      ← Nat.two_pow_add_eq_or_of_lt (by omega)]
    ring
  have h3 : (c.l3 >>> 1).toNat = c.l3.toNat / 2 := by
    rw [BitVec.toNat_ushiftRight, Nat.shiftRight_eq_div_pow]
  simp only [shiftRight1, Elem.int, or_add, h3]
  omega

end Sys2Proof.Machine
end

