-- ==== Sys2Proof/Laws/Decode.lean ====
section
/-! SUPPORT. The fields of format F: a word's number, its fields, the word of its fields, and a mask taken
field by field (R81, R85). -/

namespace Sys2Proof

/-- The command word as a number (R81). -/
theorem formatF_toNat (o : BitVec 8) (d a b : Reg) (i : Imm) :
    (formatF o d a b i).toNat =
      o.toNat * 2 ^ 24 + d.val * 2 ^ 20 + a.val * 2 ^ 16 + b.val * 2 ^ 12 + i.toNat := by
  have hd := d.isLt
  have ha := a.isLt
  have hb := b.isLt
  have hi := i.isLt
  unfold formatF
  simp only [BitVec.toNat_append, BitVec.toNat_ofFin]
  rw [← Nat.shiftLeft_add_eq_or_of_lt (by omega), ← Nat.shiftLeft_add_eq_or_of_lt (by omega),
    ← Nat.shiftLeft_add_eq_or_of_lt (by omega), ← Nat.shiftLeft_add_eq_or_of_lt (by omega)]
  simp only [Nat.shiftLeft_eq]
  omega

@[simp] theorem opcOf_formatF (o : BitVec 8) (d a b : Reg) (i : Imm) : opcOf (formatF o d a b i) = o := by
  apply BitVec.eq_of_toNat_eq
  have hd := d.isLt
  have ha := a.isLt
  have hb := b.isLt
  have hi := i.isLt
  have ho := o.isLt
  rw [opcOf, BitVec.extractLsb'_toNat, formatF_toNat, Nat.shiftRight_eq_div_pow]
  omega

@[simp] theorem fieldsOf_formatF (o : BitVec 8) (d a b : Reg) (i : Imm) :
    fieldsOf (formatF o d a b i) = ⟨d, a, b, i⟩ := by
  have hd := d.isLt
  have ha := a.isLt
  have hb := b.isLt
  have hi := i.isLt
  have ho := o.isLt
  unfold fieldsOf
  simp only [Fields.mk.injEq, Fin.ext_iff, BitVec.val_toFin, BitVec.extractLsb'_toNat, formatF_toNat,
    Nat.shiftRight_eq_div_pow, BitVec.toNat_eq]
  omega

/-- A word is the word of its fields (R81). -/
theorem formatF_fields (w : Word) :
    formatF (opcOf w) (fieldsOf w).rd (fieldsOf w).rs1 (fieldsOf w).rs2 (fieldsOf w).imm = w := by
  apply BitVec.eq_of_toNat_eq
  have := w.isLt
  simp only [formatF_toNat, opcOf, fieldsOf, BitVec.val_toFin, BitVec.extractLsb'_toNat,
    Nat.shiftRight_eq_div_pow]
  omega

/-- A mask acts field by field (R85). -/
theorem formatF_and (o mo : BitVec 8) (d a b : Reg) (md ma mb : BitVec 4) (i mi : Imm) :
    formatF o d a b i &&& (mo ++ md ++ ma ++ mb ++ mi) =
      (o &&& mo) ++ (BitVec.ofFin (w := 4) d &&& md) ++ (BitVec.ofFin (w := 4) a &&& ma)
        ++ (BitVec.ofFin (w := 4) b &&& mb) ++ (i &&& mi) := by
  unfold formatF
  refine (BitVec.and_append (x₁ := o ++ BitVec.ofFin (w := 4) d ++ BitVec.ofFin (w := 4) a
    ++ BitVec.ofFin (w := 4) b)).trans ?_
  rw [BitVec.and_append, BitVec.and_append, BitVec.and_append]

/-- The word in the spec's notation, `OPC<<24 | d<<20 | a<<16 | b<<12 | imm` (R89). -/
theorem formatF_eq_or (o : BitVec 8) (d a b : Reg) (i : Imm) :
    formatF o d a b i =
      o.setWidth 32 <<< 24 ||| Machine.field d 20 ||| Machine.field a 16 ||| Machine.field b 12
        ||| i.setWidth 32 := by
  apply BitVec.eq_of_toNat_eq
  have ho := o.isLt
  have hd := d.isLt
  have ha := a.isLt
  have hb := b.isLt
  have hi := i.isLt
  have low (n k m : Nat) (h : m < 2 ^ k) : n * 2 ^ k ||| m = n * 2 ^ k + m := by
    rw [← Nat.shiftLeft_eq, Nat.shiftLeft_add_eq_or_of_lt h]
  have shifted (n k : Nat) (h : n * 2 ^ k < 2 ^ 32) : n % 2 ^ 32 * 2 ^ k % 2 ^ 32 = n * 2 ^ k := by
    have : n ≤ n * 2 ^ k := Nat.le_mul_of_pos_right n (Nat.two_pow_pos k)
    rw [Nat.mod_eq_of_lt (this.trans_lt h), Nat.mod_eq_of_lt h]
  have e1 : o.toNat % 2 ^ 32 * 2 ^ 24 % 2 ^ 32 = o.toNat * 2 ^ 24 := by omega
  have e2 : d.val % 2 ^ 32 * 2 ^ 20 % 2 ^ 32 = d.val * 2 ^ 20 := shifted d.val 20 (by omega)
  have e3 : a.val % 2 ^ 32 * 2 ^ 16 % 2 ^ 32 = a.val * 2 ^ 16 := shifted a.val 16 (by omega)
  have e4 : b.val % 2 ^ 32 * 2 ^ 12 % 2 ^ 32 = b.val * 2 ^ 12 := shifted b.val 12 (by omega)
  have e5 : i.toNat % 2 ^ 32 = i.toNat := by omega
  simp only [formatF_toNat, Machine.field, BitVec.toNat_or, BitVec.toNat_shiftLeft, BitVec.toNat_setWidth,
    BitVec.toNat_ofNat, Nat.shiftLeft_eq, e1, e2, e3, e4, e5]
  rw [low _ 24 _ (by omega),
    show o.toNat * 2 ^ 24 + d.val * 2 ^ 20 = (o.toNat * 2 ^ 4 + d.val) * 2 ^ 20 by ring,
    low _ 20 _ (by omega),
    show (o.toNat * 2 ^ 4 + d.val) * 2 ^ 20 + a.val * 2 ^ 16
      = ((o.toNat * 2 ^ 4 + d.val) * 2 ^ 4 + a.val) * 2 ^ 16 by ring,
    low _ 16 _ (by omega),
    show ((o.toNat * 2 ^ 4 + d.val) * 2 ^ 4 + a.val) * 2 ^ 16 + b.val * 2 ^ 12
      = (((o.toNat * 2 ^ 4 + d.val) * 2 ^ 4 + a.val) * 2 ^ 4 + b.val) * 2 ^ 12 by ring,
    low _ 12 _ (by omega)]

end Sys2Proof
end

