-- ==== Sys2Proof/Laws/Values.lean ====
section
/-! SUPPORT. The value level (R11, R108): mont and val are inverse, and what each operation of the datapath
does to the represented values. -/

namespace Sys2Proof.Machine

theorem val_lt (A : Elem) : A.val < q := Nat.mod_lt _ q_pos

theorem mod_q_lt_two_pow (n : Nat) : n % q < 2 ^ 256 :=
  (Nat.mod_lt _ q_pos).trans (by decide)

theorem mont_int (a : Nat) : (mont a).int = a * 2 ^ 256 % q :=
  limbs4_int_of_lt (mod_q_lt_two_pow _)

theorem mont_lt (a : Nat) : (mont a).int < q := by rw [mont_int]; exact Nat.mod_lt _ q_pos

theorem rInv_modEq : 2 ^ 256 * rInv ≡ 1 [MOD q] := rInv_mul

/-- `val` undoes `mont` (R11). -/
theorem mont_val (a : Nat) : (mont a).val = a % q := by
  have h : a * 2 ^ 256 % q * rInv ≡ a [MOD q] :=
    calc a * 2 ^ 256 % q * rInv ≡ a * 2 ^ 256 * rInv [MOD q] := (Nat.mod_modEq _ _).mul_right _
      _ = a * (2 ^ 256 * rInv) := Nat.mul_assoc _ _ _
      _ ≡ a * 1 [MOD q] := rInv_modEq.mul_left _
      _ = a := Nat.mul_one _
  rw [Elem.val, mont_int]
  exact h

/-- `mont` undoes `val` on a stored value below q (R11). -/
theorem mont_of_val {A : Elem} (hA : A.int < q) : mont A.val = A := by
  refine Elem.int_injective ?_
  have h : A.int * rInv % q * 2 ^ 256 ≡ A.int [MOD q] :=
    calc A.int * rInv % q * 2 ^ 256 ≡ A.int * rInv * 2 ^ 256 [MOD q] := (Nat.mod_modEq _ _).mul_right _
      _ = A.int * (2 ^ 256 * rInv) := by rw [Nat.mul_assoc, Nat.mul_comm rInv]
      _ ≡ A.int * 1 [MOD q] := rInv_modEq.mul_left _
      _ = A.int := Nat.mul_one _
  rw [mont_int, Elem.val, h, Nat.mod_eq_of_lt hA]

/-- A stored value below q is the stored value of the integer it represents (R11). -/
theorem eq_mont {A : Elem} (hA : A.int < q) {v : Nat} (h : A.val = v) : A = mont v := by
  rw [← h, mont_of_val hA]

/-- No two stored values below q represent the same element (R11). -/
theorem val_injective {A B : Elem} (hA : A.int < q) (hB : B.int < q) (h : A.val = B.val) : A = B := by
  rw [← mont_of_val hA, h, mont_of_val hB]

theorem mont_mod (a : Nat) : mont (a % q) = mont a :=
  Elem.int_injective (by
    rw [mont_int, mont_int]
    exact (Nat.mod_modEq a q).mul_right _)

theorem addm_lt {A B : Elem} (hA : A.int < q) (hB : B.int < q) : (addm A B).int < q := by
  rw [addm_int hA hB]; exact Nat.mod_lt _ q_pos

theorem addm_val {A B : Elem} (hA : A.int < q) (hB : B.int < q) :
    (addm A B).val = (A.val + B.val) % q := by
  rw [Elem.val, addm_int hA hB]
  have h1 : (A.int + B.int) % q * rInv ≡ A.int * rInv + B.int * rInv [MOD q] := by
    rw [← Nat.add_mul]; exact (Nat.mod_modEq _ _).mul_right _
  exact h1.trans ((Nat.mod_modEq _ _).add (Nat.mod_modEq _ _)).symm

theorem subm_lt {A B : Elem} (hA : A.int < q) (hB : B.int < q) : (subm A B).int < q := by
  rw [subm_int_of_lt hA hB]; exact Nat.mod_lt _ q_pos

/-- A difference modulo q is the number that added to the subtrahend gives the minuend. -/
theorem sub_mod_unique {x a b : Nat} (hb : b < q) (h : x + b ≡ a [MOD q]) :
    x % q = (a + q - b) % q := by
  have h2 : x + b ≡ (a + q - b) + b [MOD q] := by
    rw [Nat.sub_add_cancel (by omega)]
    exact h.trans (by simp [Nat.ModEq])
  exact Nat.ModEq.add_right_cancel' b h2

theorem subm_val {A B : Elem} (hA : A.int < q) (hB : B.int < q) :
    (subm A B).val = (A.val + q - B.val) % q := by
  rw [Elem.val, subm_int_of_lt hA hB]
  refine sub_mod_unique (val_lt B) ?_
  have h1 : (A.int + q - B.int) % q + B.int ≡ A.int [MOD q] := by
    have : (A.int + q - B.int) + B.int ≡ A.int [MOD q] := by
      rw [Nat.sub_add_cancel (by omega)]; simp [Nat.ModEq]
    exact ((Nat.mod_modEq _ _).add_right _).trans this
  have h2 := h1.mul_right rInv
  rw [Nat.add_mul] at h2
  refine Nat.ModEq.trans ?_ (h2.trans (Nat.mod_modEq _ _).symm)
  exact Nat.ModEq.add_left _ (Nat.mod_modEq _ _)

theorem negm_lt {A : Elem} (hA : A.int < q) : (negm A).int < q := by
  rw [negm_int hA]; exact Nat.mod_lt _ q_pos

theorem negm_val {A : Elem} (hA : A.int < q) : (negm A).val = (q - A.val) % q := by
  have hz : ZERO.int = 0 := by decide
  have h : negm A = subm ZERO A :=
    Elem.int_injective (by rw [negm_int hA, subm_int_of_lt (by rw [hz]; exact q_pos) hA, hz, Nat.zero_add])
  have hv : ZERO.val = 0 := by decide
  rw [h, subm_val (by rw [hz]; exact q_pos) hA, hv, Nat.zero_add]

theorem mul_lt_left {A : Elem} (hA : A.int < q) (B : Elem) : (mul A B).int < q :=
  redc_lt (mul_bound_left hA B)

theorem mul_lt_right (A : Elem) {B : Elem} (hB : B.int < q) : (mul A B).int < q :=
  redc_lt (mul_bound_right A hB)

theorem mul_mod_vals (a b : Nat) : a * b * rInv % q * rInv % q = a * rInv % q * (b * rInv % q) % q := by
  have h1 : a * b * rInv % q * rInv ≡ a * b * rInv * rInv [MOD q] := (Nat.mod_modEq _ _).mul_right _
  have h2 : a * rInv % q * (b * rInv % q) ≡ a * rInv * (b * rInv) [MOD q] :=
    (Nat.mod_modEq _ _).mul (Nat.mod_modEq _ _)
  refine (h1.trans ?_).trans h2.symm
  rw [show a * b * rInv * rInv = a * rInv * (b * rInv) by ring]

theorem mul_val_left {A : Elem} (hA : A.int < q) (B : Elem) : (mul A B).val = A.val * B.val % q := by
  simp only [Elem.val, mul_int_left hA B, mul_mod_vals]

theorem mul_val_right (A : Elem) {B : Elem} (hB : B.int < q) : (mul A B).val = A.val * B.val % q := by
  simp only [Elem.val, mul_int_right A hB, mul_mod_vals]

theorem sqr_lt {A : Elem} (hA : A.int < q) : (sqr A).int < q := by
  rw [sqr_eq_mul]; exact mul_lt_left hA A

theorem sqr_val {A : Elem} (hA : A.int < q) : (sqr A).val = A.val * A.val % q := by
  rw [sqr_eq_mul, mul_val_left hA]

theorem R2_lt : R2.int < q := by decide

theorem R3_lt : R3.int < q := by decide

theorem F2_192_lt : F2_192.int < q := by decide

theorem ONE_lt : ONE.int < q := by decide

theorem ZROOT_lt : ZROOT.int < q := by decide

theorem ONE_val : ONE.val = 1 := by decide

theorem ZERO_val : ZERO.val = 0 := by decide

theorem R2_val : R2.val = 2 ^ 256 % q := by decide

theorem lift_lt (n : Nat) : (lift n).int < q := mul_lt_right _ R2_lt

/-- The lift of an integer below 2^256 represents it modulo q (R201, R213). -/
theorem lift_val {n : Nat} (h : n < 2 ^ 256) : (lift n).val = n % q := by
  rw [lift, mul_val_right _ R2_lt, R2_val, Elem.val, limbs4_int_of_lt h]
  have : n * rInv % q * (2 ^ 256 % q) ≡ n [MOD q] :=
    calc n * rInv % q * (2 ^ 256 % q) ≡ n * rInv * 2 ^ 256 [MOD q] :=
          (Nat.mod_modEq _ _).mul (Nat.mod_modEq _ _)
      _ = n * (2 ^ 256 * rInv) := by rw [Nat.mul_assoc, Nat.mul_comm rInv]
      _ ≡ n * 1 [MOD q] := rInv_modEq.mul_left _
      _ = n := Nat.mul_one _
  exact this

theorem lift_eq_mont {n : Nat} (h : n < 2 ^ 256) : lift n = mont n := by
  rw [eq_mont (lift_lt n) (lift_val h), mont_mod]

theorem wide_lt (n : Nat) : (wide n).int < q :=
  addm_lt (mul_lt_right _ R2_lt) (mul_lt_right _ R3_lt)

theorem R3_val : R3.val = 2 ^ 256 * 2 ^ 256 % q := by decide

/-- `wide` is the exact reduction modulo q (R209). -/
theorem wide_val {n : Nat} (h : n < 2 ^ 512) : (wide n).val = n % q := by
  have hhi : n / 2 ^ 256 < 2 ^ 256 := by
    rw [show 512 = 256 + 256 from rfl, pow_add] at h
    exact Nat.div_lt_of_lt_mul h
  have hlo : n % 2 ^ 256 < 2 ^ 256 := Nat.mod_lt _ (Nat.two_pow_pos 256)
  have h1 : (mul (limbs4 (n % 2 ^ 256)) R2).val = n % 2 ^ 256 % q := lift_val hlo
  have h2 : (mul (limbs4 (n / 2 ^ 256)) R3).val ≡ n / 2 ^ 256 * 2 ^ 256 [MOD q] := by
    rw [mul_val_right _ R3_lt, R3_val, Elem.val, limbs4_int_of_lt hhi]
    calc n / 2 ^ 256 * rInv % q * (2 ^ 256 * 2 ^ 256 % q) % q
        ≡ n / 2 ^ 256 * rInv * (2 ^ 256 * 2 ^ 256) [MOD q] :=
          (Nat.mod_modEq _ _).trans ((Nat.mod_modEq _ _).mul (Nat.mod_modEq _ _))
      _ = n / 2 ^ 256 * 2 ^ 256 * (2 ^ 256 * rInv) := by ring
      _ ≡ n / 2 ^ 256 * 2 ^ 256 * 1 [MOD q] := rInv_modEq.mul_left _
      _ = n / 2 ^ 256 * 2 ^ 256 := Nat.mul_one _
  rw [wide, addm_val (mul_lt_right _ R2_lt) (mul_lt_right _ R3_lt), h1]
  have h3 : n % 2 ^ 256 % q + (mul (limbs4 (n / 2 ^ 256)) R3).val ≡ n % 2 ^ 256 + n / 2 ^ 256 * 2 ^ 256 [MOD q] :=
    (Nat.mod_modEq _ _).add h2
  rw [Nat.mod_add_div'] at h3
  exact h3

theorem wide_eq_mont {n : Nat} (h : n < 2 ^ 512) : wide n = mont n := by
  rw [eq_mont (wide_lt n) (wide_val h), mont_mod]

/-! ### The bits -/

theorem eqBit_eq (A B : Elem) : eqBit A B = decide (A = B) := by
  have e : (0 : Limb) = 0#64 := rfl
  obtain ⟨a0, a1, a2, a3⟩ := A
  obtain ⟨b0, b1, b2, b3⟩ := B
  rw [Bool.eq_iff_iff, eqBit, beq_iff_eq, decide_eq_true_iff]
  simp only [e, BitVec.or_eq_zero_iff, BitVec.xor_eq_zero_iff, Elem.mk.injEq, and_assoc]

theorem zeroBit_eq (A : Elem) : zeroBit A = decide (A.int = 0) := by
  rw [Bool.eq_iff_iff, zeroBit, beq_iff_eq, decide_eq_true_iff, or_limbs_eq_zero]

/-- The stored value is 0 exactly when the represented value is (R11, R141). -/
theorem int_eq_zero_iff {A : Elem} (hA : A.int < q) : A.int = 0 ↔ A.val = 0 := by
  constructor
  · intro h; rw [Elem.val, h, Nat.zero_mul, Nat.zero_mod]
  · intro h
    have := mont_of_val hA
    rw [h] at this
    rw [← this, mont_int, Nat.zero_mul, Nat.zero_mod]

theorem HALF_int : HALF.int = (q - 1) / 2 := by decide

theorem highBit_eq (A : Elem) : highBit A = decide ((q - 1) / 2 < A.val) := by
  rw [highBit, borrowOf_bit, HALF_int, canon_int]

/-! ### Exponentiation -/

theorem powStep_eq (base : Elem) (bit : Bool) (acc : Elem) :
    powStep base bit acc = if bit then mul (sqr acc) base else sqr acc := sel_eq _ _ _

/-- A conditional multiply keeps what the masked select keeps (R172). -/
theorem powVtStep_eq (base : Elem) (bit : Bool) (acc : Elem) :
    powVtStep base bit acc = powStep base bit acc := (powStep_eq base bit acc).symm

theorem powLoop_zero (base : Elem) (e : Nat) (acc : Elem) : powLoop base e 0 acc = acc :=
  countDown_zero _ _

theorem powLoop_succ (base : Elem) (e n : Nat) (acc : Elem) :
    powLoop base e (n + 1) acc = powLoop base e n (powStep base (e.testBit n) acc) :=
  countDown_succ _ _ _

/-- POWVT's loop computes what POW's does (R172). -/
theorem powVtLoop_eq (base : Elem) (e n : Nat) (acc : Elem) :
    powVtLoop base e n acc = powLoop base e n acc := by
  simp only [powVtLoop, powLoop, powVtStep_eq]

theorem powStep_lt {base acc : Elem} (hb : base.int < q) (ha : acc.int < q) (bit : Bool) :
    (powStep base bit acc).int < q := by
  rw [powStep_eq]
  split
  · exact mul_lt_right _ hb
  · exact sqr_lt ha

theorem powStep_val {base acc : Elem} (hb : base.int < q) (ha : acc.int < q) (bit : Bool) :
    (powStep base bit acc).val ≡ acc.val * acc.val * base.val ^ bit.toNat [MOD q] := by
  have hs : (sqr acc).val ≡ acc.val * acc.val [MOD q] := by rw [sqr_val ha]; exact Nat.mod_modEq _ _
  rw [powStep_eq]
  cases bit
  · simpa using hs
  · simp only [if_true, Bool.toNat_true, pow_one]
    rw [mul_val_right _ hb]
    exact (Nat.mod_modEq _ _).trans (hs.mul_right _)

theorem powLoop_lt {base acc : Elem} (hb : base.int < q) (ha : acc.int < q) (e n : Nat) :
    (powLoop base e n acc).int < q := by
  induction n generalizing acc with
  | zero => rw [powLoop_zero]; exact ha
  | succ n ih => rw [powLoop_succ]; exact ih (powStep_lt hb ha _)

/-- The loop from bit n-1 down raises the accumulator to 2^n and multiplies in base^(e mod 2^n) (R171). -/
theorem powLoop_val {base acc : Elem} (hb : base.int < q) (ha : acc.int < q) (e n : Nat) :
    (powLoop base e n acc).val ≡ acc.val ^ 2 ^ n * base.val ^ (e % 2 ^ n) [MOD q] := by
  induction n generalizing acc with
  | zero =>
    rw [powLoop_zero, pow_zero, pow_one, Nat.mod_one, pow_zero, Nat.mul_one]
  | succ n ih =>
    have hstep := powStep_val hb ha (e.testBit n)
    have hexp : e % 2 ^ (n + 1) = 2 ^ n * (e.testBit n).toNat + e % 2 ^ n := by
      rw [Nat.mod_pow_succ, Nat.toNat_testBit, Nat.add_comm]
    rw [powLoop_succ]
    refine (ih (powStep_lt hb ha _)).trans ?_
    refine ((hstep.pow (2 ^ n)).mul_right _).trans ?_
    rw [hexp, pow_add base.val, pow_mul' base.val, pow_succ 2 n, pow_mul' acc.val, pow_two, mul_pow,
      mul_assoc]

/-- The loop from ONE computes the power (R171). -/
theorem powLoop_ONE_val {base : Elem} (hb : base.int < q) {e n : Nat} (he : e < 2 ^ n) :
    (powLoop base e n ONE).val = base.val ^ e % q := by
  have h := powLoop_val hb ONE_lt e n
  rw [ONE_val, one_pow, Nat.one_mul, Nat.mod_eq_of_lt he] at h
  rw [← h, Nat.mod_eq_of_lt (val_lt _)]

theorem powCt_lt {base : Elem} (hb : base.int < q) (e : Nat) : (powCt base e).int < q :=
  powLoop_lt hb ONE_lt e 256

/-- POW raises to the exponent (R171). -/
theorem powCt_val {base : Elem} (hb : base.int < q) {e : Nat} (he : e < 2 ^ 256) :
    (powCt base e).val = base.val ^ e % q := powLoop_ONE_val hb he

theorem powVt_eq (base : Elem) (e : Nat) : powVt base e = powCt base e := powVtLoop_eq base e 256 ONE

theorem invChain_lt {A : Elem} (hA : A.int < q) : (invChain A).int < q := powCt_lt hA _

theorem invChain_val {A : Elem} (hA : A.int < q) : (invChain A).val = A.val ^ (q - 2) % q :=
  powCt_val hA (by decide)

/-! ### The loadable constants -/

/-- The ROM holds mont(CONST[k]) (R147). -/
theorem loadable_eq : loadable = constValues.map mont := by decide

end Sys2Proof.Machine
end

