-- ==== Sys2Proof/Laws/Ops.lean ====
section
/-! SUPPORT. What the shared operations of meanings can do: one law each for `withSources`, `raiseError`,
`finish`, and the frames of the updates. -/

namespace Sys2Proof.Machine

/-- A command whose source registers all hold a value has its effect (R22). -/
theorem withSources_valid {srcs : List Reg} {s : State} (h : ∀ r ∈ srcs, s.validAt r = true)
    (effect : State) : withSources srcs s effect = .next effect := by
  have : srcs.all s.validAt = true := List.all_eq_true.2 h
  simp only [withSources, this, if_true]

/-- A command with a source register that holds no value raises UNINIT (R22, R244). -/
theorem withSources_invalid {srcs : List Reg} {s : State} {r : Reg} (hr : r ∈ srcs)
    (h : s.validAt r = false) (effect : State) :
    withSources srcs s effect = .next (s.record .uninit) := by
  have : srcs.all s.validAt = false := List.all_eq_false.2 ⟨r, hr, by simp [h]⟩
  simp [withSources, this, raiseError]

/-- All a command of `withSources` can do: its effect when every source holds a value, else UNINIT. -/
theorem withSources_cases {srcs : List Reg} {s effect t : State}
    (h : withSources srcs s effect = .next t) :
    ((∀ r ∈ srcs, s.validAt r = true) ∧ t = effect) ∨
    ((∃ r ∈ srcs, s.validAt r = false) ∧ t = s.record .uninit) := by
  by_cases hv : srcs.all s.validAt = true
  · left
    simp only [withSources, hv, if_true, Host.Outcome.next.injEq] at h
    exact ⟨List.all_eq_true.1 hv, h.symm⟩
  · right
    obtain ⟨r, hr, hf⟩ := List.all_eq_false.1 (Bool.eq_false_iff.2 hv)
    rw [withSources_invalid hr (by simpa using hf)] at h
    exact ⟨⟨r, hr, by simpa using hf⟩, (Host.Outcome.next.inj h).symm⟩

/-- The same, over one source register. -/
theorem withSources_one {a : Reg} {s : State} (h : s.validAt a = true) (effect : State) :
    withSources [a] s effect = .next effect :=
  withSources_valid (by simpa using h) effect

theorem withSources_two {a b : Reg} {s : State} (ha : s.validAt a = true) (hb : s.validAt b = true)
    (effect : State) : withSources [a, b] s effect = .next effect :=
  withSources_valid (by simp [ha, hb]) effect

@[simp] theorem finish_next (s : State) : finish (.next s) = .next s.complete := rfl

/-- A finished engine step that goes on is a command that went on, with BUSY cleared (R283). -/
theorem finish_cases {o : Host.Outcome State Fault Refusal} {t : State} (h : finish o = .next t) :
    ∃ s, o = .next s ∧ t = s.complete := by
  cases o with
  | next s => exact ⟨s, rfl, (Host.Outcome.next.inj h).symm⟩
  | fault r => cases h
  | refused r => cases h

/-- The first error since the last clear is kept, ERR is set (R28, R241). -/
theorem record_errorsSound {s : State} (h : s.ErrorsSound) (e : ErrorCode) : (s.record e).ErrorsSound := by
  obtain ⟨-, h2⟩ := h
  by_cases h0 : s.errCode = 0#4
  · cases e <;> simp [State.ErrorsSound, h0, errorNumber]
  · exact ⟨by simp [h0], by simpa [h0] using h2⟩

/-! ### Frames of the updates -/

theorem Frame.refl (dst : Option Reg) (flag : Bool) (bytes : Nat) (s : State) :
    Frame dst flag bytes s s :=
  ⟨fun _ _ => rfl, fun _ _ => rfl, fun _ => rfl, fun _ _ => rfl, rfl, rfl, rfl, rfl, rfl, rfl, rfl, rfl⟩

/-- A register write changes the register and its VALID bit alone. -/
theorem frame_putElem (s : State) (d : Reg) (v : Elem) (ok : Bool) :
    Frame (some d) false 0 s (s.putElem d v ok) where
  elems j h := by simp [show d ≠ j from fun e => h (e ▸ rfl)]
  valids j h := by simp [show d ≠ j from fun e => h (e ▸ rfl)]
  choice _ := rfl
  buffer _ _ := rfl
  busy := rfl
  pend := rfl
  lastCmd := rfl
  err := rfl
  errCode := rfl
  script := rfl
  replies := rfl
  draws := rfl

/-- A maybe result changes the register, its VALID bit and C alone. -/
theorem frame_putMaybe (s : State) (d : Reg) (v : Elem) (ok : Bool) :
    Frame (some d) true 0 s (s.putMaybe d v ok) where
  elems j h := by simp [show d ≠ j from fun e => h (e ▸ rfl)]
  valids j h := by simp [show d ≠ j from fun e => h (e ▸ rfl)]
  choice h := absurd h (by simp)
  buffer _ _ := rfl
  busy := rfl
  pend := rfl
  lastCmd := rfl
  err := rfl
  errCode := rfl
  script := rfl
  replies := rfl
  draws := rfl

/-- A write of the choice flag changes C alone. -/
theorem frame_putC (s : State) (b : Bool) : Frame none true 0 s (s.putC b) where
  elems _ _ := rfl
  valids _ _ := rfl
  choice h := absurd h (by simp)
  buffer _ _ := rfl
  busy := rfl
  pend := rfl
  lastCmd := rfl
  err := rfl
  errCode := rfl
  script := rfl
  replies := rfl
  draws := rfl

/-- A write of BUF's first bytes changes those bytes alone. -/
theorem frame_bufWrite (s : State) (bs : List Byte) : Frame none false bs.length s (s.bufWrite 0 bs) where
  elems _ _ := rfl
  valids _ _ := rfl
  choice _ := rfl
  buffer i h := s.bufWrite_byteAt_outside 0 bs (.inr (by simpa using h))
  busy := rfl
  pend := rfl
  lastCmd := rfl
  err := rfl
  errCode := rfl
  script := rfl
  replies := rfl
  draws := rfl

end Sys2Proof.Machine
end

