-- ==== Sys2Proof/Laws/PerInstr.lean ====
section
/-! SUPPORT. The family of laws over all commands: the opcode of an encoded command has a row, and that
row's fields of the encoded word make the command (R85). One lemma for each constructor. -/

namespace Sys2Proof.Laws.EncodeRow

/-- The row of the encoded word's opcode rebuilds the command from the word's fields. -/
def Statement (i : Instr) : Prop :=
  ∃ r, rowOf (opcOf (encode i)) = some r ∧ r.build (fieldsOf (encode i)) = i

/-- One proof for every command of format F. -/
theorem of_formatF {i : Instr} {o : BitVec 8} {d a b : Reg} {imm : Imm} {r : Row}
    (he : encode i = formatF o d a b imm) (hr : rowOf o = some r) (hb : r.build ⟨d, a, b, imm⟩ = i) :
    Statement i :=
  ⟨r, by rw [he, opcOf_formatF, hr], by rw [he, fieldsOf_formatF, hb]⟩

theorem nop : Statement .nop := of_formatF rfl rfl rfl
theorem add (d a b : Reg) : Statement (.add d a b) := of_formatF rfl rfl rfl
theorem sub (d a b : Reg) : Statement (.sub d a b) := of_formatF rfl rfl rfl
theorem neg (d a : Reg) : Statement (.neg d a) := of_formatF rfl rfl rfl
theorem dbl (d a : Reg) : Statement (.dbl d a) := of_formatF rfl rfl rfl
theorem mul (d a b : Reg) : Statement (.mul d a b) := of_formatF rfl rfl rfl
theorem sqr (d a : Reg) : Statement (.sqr d a) := of_formatF rfl rfl rfl
theorem eq (a b : Reg) : Statement (.eq a b) := of_formatF rfl rfl rfl
theorem iszero (a : Reg) : Statement (.iszero a) := of_formatF rfl rfl rfl
theorem ishigh (a : Reg) : Statement (.ishigh a) := of_formatF rfl rfl rfl
theorem csel (d a b : Reg) : Statement (.csel d a b) := of_formatF rfl rfl rfl
theorem setc (imm : Imm) : Statement (.setc imm) := of_formatF rfl rfl rfl
theorem mov (d a : Reg) : Statement (.mov d a) := of_formatF rfl rfl rfl
theorem clr (d : Reg) : Statement (.clr d) := of_formatF rfl rfl rfl
theorem ldc (d : Reg) (imm : Imm) : Statement (.ldc d imm) := of_formatF rfl rfl rfl
theorem pow (d a : Reg) : Statement (.pow d a) := of_formatF rfl rfl rfl
theorem powvt (d a : Reg) : Statement (.powvt d a) := of_formatF rfl rfl rfl
theorem invert (d a : Reg) : Statement (.invert d a) := of_formatF rfl rfl rfl
theorem sqrt (d a : Reg) : Statement (.sqrt d a) := of_formatF rfl rfl rfl
theorem shr1 (d a : Reg) : Statement (.shr1 d a) := of_formatF rfl rfl rfl
theorem fromle (d : Reg) : Statement (.fromle d) := of_formatF rfl rfl rfl
theorem frombe (d : Reg) : Statement (.frombe d) := of_formatF rfl rfl rfl
theorem tole (a : Reg) : Statement (.tole a) := of_formatF rfl rfl rfl
theorem tobe (a : Reg) : Statement (.tobe a) := of_formatF rfl rfl rfl
theorem hexdec (d : Reg) (imm : Imm) : Statement (.hexdec d imm) := of_formatF rfl rfl rfl
theorem hexenc (a : Reg) (imm : Imm) : Statement (.hexenc a imm) := of_formatF rfl rfl rfl
theorem wide512 (d : Reg) : Statement (.wide512 d) := of_formatF rfl rfl rfl
theorem wide384 (d : Reg) : Statement (.wide384 d) := of_formatF rfl rfl rfl
theorem okm (d : Reg) : Statement (.okm d) := of_formatF rfl rfl rfl
theorem fromu64 (d : Reg) : Statement (.fromu64 d) := of_formatF rfl rfl rfl
theorem fromu32 (d : Reg) : Statement (.fromu32 d) := of_formatF rfl rfl rfl

end Sys2Proof.Laws.EncodeRow
end

