-- ==== Sys2Proof/Laws/Prime.lean ====
section
/-! SUPPORT. The modulus is prime (R2: "The unit computes in the prime field GF(q)"), by the factorisation of
q - 1 and the primitive root 7 that 93_implementation_defined.md K6 names; and the square-root constants meet their definitions (R174). -/

namespace Sys2Proof.Laws

open Sys2Proof.Machine

/-- `b ^ e % m` by squaring, for exponents below `2 ^ n`. -/
def powMod (m : Nat) : Nat → Nat → Nat → Nat
  | 0, _, _ => 1 % m
  | n + 1, b, e => (if e % 2 = 1 then b else 1) * powMod m n (b * b % m) (e / 2) % m

theorem powMod_eq (m : Nat) : ∀ n b e, e < 2 ^ n → powMod m n b e = b ^ e % m
  | 0, b, e, h => by
    have : e = 0 := by simpa using h
    simp [powMod, this]
  | n + 1, b, e, h => by
    have h' : e / 2 < 2 ^ n := by rw [pow_succ] at h; omega
    rw [powMod, powMod_eq m n _ _ h', ← Nat.pow_mod, ← pow_two, ← pow_mul, Nat.mul_mod_mod]
    rcases Nat.mod_two_eq_zero_or_one e with h0 | h1
    · rw [if_neg (by omega), one_mul, show 2 * (e / 2) = e by omega]
    · rw [if_pos h1, ← pow_succ', show 2 * (e / 2) + 1 = e by omega]

theorem powMod_seven (n e : Nat) (h : e < 2 ^ n) (r : Nat) (hr : powMod q n 7 e = r) :
    (7 : ZMod q) ^ e = (r : ZMod q) := by
  rw [powMod_eq q n 7 e h] at hr
  rw [← hr, ZMod.natCast_mod]
  push_cast
  rfl

theorem powMod_seven_ne (n e : Nat) (h : e < 2 ^ n) (hr : powMod q n 7 e ≠ 1) :
    (7 : ZMod q) ^ e ≠ 1 := by
  rw [powMod_eq q n 7 e h] at hr
  intro hc
  apply hr
  have : ((7 ^ e : Nat) : ZMod q) = ((1 : Nat) : ZMod q) := by push_cast; exact hc
  rw [ZMod.natCast_eq_natCast_iff'] at this
  rw [this]
  decide +kernel

theorem q_sub_one :
    q - 1 = 2 ^ 32 * 3 * 11 * 19 * 10177 * 125527 * 859267 * 906349 ^ 2 * 2508409 * 2529403 * 52437899
      * 254760293 ^ 2 := by decide +kernel

/-- q is prime. -/
theorem q_prime : Nat.Prime q := by
  refine lucas_primality q 7 ?_ ?_
  · have := powMod_seven 255 (q - 1) (by decide +kernel) 1 (by decide +kernel)
    simpa using this
  · intro p hp hd
    rw [q_sub_one] at hd
    have key : p = 2 ∨ p = 3 ∨ p = 11 ∨ p = 19 ∨ p = 10177 ∨ p = 125527 ∨ p = 859267 ∨ p = 906349 ∨
        p = 2508409 ∨ p = 2529403 ∨ p = 52437899 ∨ p = 254760293 := by
      have one {r : Nat} (hr : Nat.Prime r) (h : p ∣ r) : p = r := (Nat.prime_dvd_prime_iff_eq hp hr).1 h
      have pw {r n : Nat} (hr : Nat.Prime r) (h : p ∣ r ^ n) : p = r := one hr (hp.dvd_of_dvd_pow h)
      simp only [hp.dvd_mul] at hd
      rcases hd with ((((((((((h | h) | h) | h) | h) | h) | h) | h) | h) | h) | h) | h
      · simp [pw (by norm_num) h]
      · simp [one (by norm_num) h]
      · simp [one (by norm_num) h]
      · simp [one (by norm_num) h]
      · simp [one (by norm_num) h]
      · simp [one (by norm_num) h]
      · simp [one (by norm_num) h]
      · simp [pw (by norm_num) h]
      · simp [one (by norm_num) h]
      · simp [one (by norm_num) h]
      · simp [one (by norm_num) h]
      · simp [pw (by norm_num) h]
    rcases key with rfl | rfl | rfl | rfl | rfl | rfl | rfl | rfl | rfl | rfl | rfl | rfl <;>
      exact powMod_seven_ne 255 _ (by decide +kernel) (by decide +kernel)

/-! ### The square-root constants (R174) -/

/-- `q - 1 = t * 2^S` with t odd. -/
theorem q_sub_one_eq_oddPart : q - 1 = oddPart * 2 ^ twoAdicity ∧ oddPart % 2 = 1 := by decide +kernel

/-- `TM1D2` is half of t - 1, with the limbs of R174. -/
theorem TM1D2_eq : TM1D2 = (oddPart - 1) / 2 ∧
    limbs4 TM1D2 = ⟨0x7fff2dff7fffffff, 0x04d0ec02a9ded201, 0x94cebea4199cec04, 0x0000000039f6d3a9⟩ := by
  decide +kernel

/-- `ZROOT` is the stored value of `7^t`, the root of unity (R147, R174). -/
theorem ZROOT_eq : ZROOT = mont (7 ^ oddPart % q) := by
  rw [← powMod_eq q 256 7 oddPart (by decide +kernel)]
  decide +kernel

/-- 7 is no square modulo q: its power (q-1)/2 is not 1 (R175 "5 and 7 are non-residues"). -/
theorem seven_not_square : ¬∃ r : Nat, r * r % q = 7 := by
  rintro ⟨r, hr⟩
  have : Fact (Nat.Prime q) := ⟨q_prime⟩
  have h7 : (7 : ZMod q) = (r : ZMod q) ^ 2 := by
    have h := congrArg (Nat.cast : Nat → ZMod q) hr
    rw [ZMod.natCast_mod] at h
    push_cast at h
    rw [pow_two, h]
  have h0 : (r : ZMod q) ≠ 0 := by
    intro h
    rw [h, zero_pow two_ne_zero] at h7
    have : ((7 : Nat) : ZMod q) = 0 := by exact_mod_cast h7
    exact absurd (Nat.le_of_dvd (by decide) ((ZMod.natCast_eq_zero_iff 7 q).1 this)) (by decide +kernel)
  refine powMod_seven_ne 255 ((q - 1) / 2) (by decide +kernel) (by decide +kernel) ?_
  rw [h7, ← pow_mul, show 2 * ((q - 1) / 2) = q - 1 by decide +kernel]
  exact ZMod.pow_card_sub_one_eq_one h0

end Sys2Proof.Laws
end

