-- ==== Sys2Proof/Machine/Assembly.lean ====
section
/-! DEFINITION. The assembler's view of commands: the text of a command (R89), the names of immediates
(R89, R147), and the pseudo-instructions (R90). No command's meaning depends on it. DESIGN CHOICE,
log 16: there is no parser. -/

namespace Sys2Proof

/-- A register is written `E0` to `E15` (R89). -/
def regText (r : Reg) : String := "E" ++ toString r.val

/-- An immediate in decimal (R89). -/
def immText (imm : Imm) : String := "#" ++ toString imm.toNat

/-- The constant names LDC also accepts, in the order of the index (R89, R147). -/
def constNames : List String :=
  ["ZERO", "ONE", "TWO_INV", "GENERATOR", "ROOT_OF_UNITY", "ROOT_OF_UNITY_INV", "DELTA", "MODULUS_HALF"]

/-- The names HEXDEC's immediates also have (R89). -/
def hexdecNames : List String := ["BE", "LE"]

/-- The names HEXENC's immediates also have (R89). -/
def hexencNames : List String := ["LOWER_BE", "UPPER_BE", "LOWER_LE", "UPPER_LE"]

/-- An immediate by its name, in decimal where it has none (R89). -/
def namedImm (names : List String) (imm : Imm) : String :=
  match names[imm.toNat]? with
  | some name => "#" ++ name
  | none => immText imm

/-- A mnemonic and its operands, separated by commas (R89). -/
def commandText (mnemonic : String) (operands : List String) : String :=
  if operands.isEmpty then mnemonic else mnemonic ++ " " ++ String.intercalate ", " operands

/-- The assembler text of a command, its operands in the order RD, RS1, RS2, IMM (R89). -/
def Instr.text : Instr → String
  | .nop => commandText "NOP" []
  | .add d a b => commandText "ADD" [regText d, regText a, regText b]
  | .sub d a b => commandText "SUB" [regText d, regText a, regText b]
  | .neg d a => commandText "NEG" [regText d, regText a]
  | .dbl d a => commandText "DBL" [regText d, regText a]
  | .mul d a b => commandText "MUL" [regText d, regText a, regText b]
  | .sqr d a => commandText "SQR" [regText d, regText a]
  | .eq a b => commandText "EQ" [regText a, regText b]
  | .iszero a => commandText "ISZERO" [regText a]
  | .ishigh a => commandText "ISHIGH" [regText a]
  | .csel d a b => commandText "CSEL" [regText d, regText a, regText b]
  | .setc imm => commandText "SETC" [immText imm]
  | .mov d a => commandText "MOV" [regText d, regText a]
  | .clr d => commandText "CLR" [regText d]
  | .ldc d imm => commandText "LDC" [regText d, namedImm constNames imm]
  | .pow d a => commandText "POW" [regText d, regText a]
  | .powvt d a => commandText "POWVT" [regText d, regText a]
  | .invert d a => commandText "INVERT" [regText d, regText a]
  | .sqrt d a => commandText "SQRT" [regText d, regText a]
  | .shr1 d a => commandText "SHR1" [regText d, regText a]
  | .fromle d => commandText "FROMLE" [regText d]
  | .frombe d => commandText "FROMBE" [regText d]
  | .tole a => commandText "TOLE" [regText a]
  | .tobe a => commandText "TOBE" [regText a]
  | .hexdec d imm => commandText "HEXDEC" [regText d, namedImm hexdecNames imm]
  | .hexenc a imm => commandText "HEXENC" [regText a, namedImm hexencNames imm]
  | .wide512 d => commandText "WIDE512" [regText d]
  | .wide384 d => commandText "WIDE384" [regText d]
  | .okm d => commandText "OKM" [regText d]
  | .fromu64 d => commandText "FROMU64" [regText d]
  | .fromu32 d => commandText "FROMU32" [regText d]

/-- The pseudo-instructions (R90). -/
inductive Pseudo where
  | ldzero (d : Reg)
  | ldone (d : Reg)
  | clrc
  | setc1
  | cmov (d a : Reg)
  | tohex (a : Reg)
  | fromhex (d : Reg)
  deriving DecidableEq, Repr

/-- The one command a pseudo-instruction expands to (R90). -/
def expandPseudo : Pseudo → Instr
  | .ldzero d => .ldc d 0
  | .ldone d => .ldc d 1
  | .clrc => .setc 0
  | .setc1 => .setc 1
  | .cmov d a => .csel d d a
  | .tohex a => .hexenc a 0
  | .fromhex d => .hexdec d 0

end Sys2Proof
end

