-- ==== Sys2Proof/Tests/Slice0.lean ====
section
/-! SUPPORT. Tests of the model. Expected values are the spec's (30_encoding.md, 95_test_vectors.md); the
source of each group stands above it. -/

namespace Sys2Proof.Tests

set_option Elab.async false

open Sys2Proof Sys2Proof.Machine

/-! ### Helpers -/

/-- The next state of an outcome that has one. -/
def nextOf : Host.Outcome State Fault Refusal → Option State
  | .next s => some s
  | .fault _ => none
  | .refused _ => none

/-- What a command leaves: a view of its next state. -/
def after {α : Type} (i : Instr) (s : State) (view : State → α) : Option α := (nextOf (exec i s)).map view

/-- The canonical values in the registers of the test state. -/
def testValues : Vector Nat 16 :=
  #v[0, 1, 2, 3, 4, 5, 7, q - 1, q - 2, q - 3, (q - 1) / 2, (q + 1) / 2, 2 ^ 128, 9, 15, 49]

/-- The test state: every register holds a value. -/
def full : State := { State.reset with regs := testValues.map mont, valid := 0xFFFF }

/-- The test state with these bytes at the start of BUF. -/
def fullWith (bs : List Byte) : State := full.bufWrite 0 bs

/-- The test state with this command word pending and these events to come. -/
def pending (w : Word) (events : List Event) : State := { full.issue w with script := events }

/-- The test state, idle, with these events to come. -/
def idle (events : List Event) : State := { full with script := events }

/-- The 64 characters of the big-endian hex string of q - 1, uppercase (95 section 2.5). -/
def hexOfQMinusOne : List Byte :=
  [0x37, 0x33, 0x45, 0x44, 0x41, 0x37, 0x35, 0x33, 0x32, 0x39, 0x39, 0x44, 0x37, 0x44, 0x34, 0x38] ++
  [0x33, 0x33, 0x33, 0x39, 0x44, 0x38, 0x30, 0x38, 0x30, 0x39, 0x41, 0x31, 0x44, 0x38, 0x30, 0x35] ++
  [0x35, 0x33, 0x42, 0x44, 0x41, 0x34, 0x30, 0x32, 0x46, 0x46, 0x46, 0x45, 0x35, 0x42, 0x46, 0x45] ++
  [0x46, 0x46, 0x46, 0x46, 0x46, 0x46, 0x46, 0x46, 0x30, 0x30, 0x30, 0x30, 0x30, 0x30, 0x30, 0x30]

/-! ### Decoding: each word written out field by field, OPC RD RS1 RS2 IMM (R81, R85) -/

theorem test_decode_arith :
    decode (0x00#8 ++ 0#4 ++ 0#4 ++ 0#4 ++ 0#12) = .instr (.nop) ∧
    decode (0x01#8 ++ 3#4 ++ 9#4 ++ 14#4 ++ 0#12) = .instr (.add 3 9 14) ∧
    decode (0x02#8 ++ 15#4 ++ 1#4 ++ 2#4 ++ 0#12) = .instr (.sub 15 1 2) ∧
    decode (0x03#8 ++ 1#4 ++ 8#4 ++ 0#4 ++ 0#12) = .instr (.neg 1 8) ∧
    decode (0x04#8 ++ 8#4 ++ 1#4 ++ 0#4 ++ 0#12) = .instr (.dbl 8 1) ∧
    decode (0x05#8 ++ 2#4 ++ 1#4 ++ 0#4 ++ 0#12) = .instr (.mul 2 1 0) ∧
    decode (0x06#8 ++ 4#4 ++ 11#4 ++ 0#4 ++ 0#12) = .instr (.sqr 4 11) := by decide +kernel

theorem test_decode_select :
    decode (0x10#8 ++ 0#4 ++ 2#4 ++ 3#4 ++ 0#12) = .instr (.eq 2 3) ∧
    decode (0x11#8 ++ 0#4 ++ 13#4 ++ 0#4 ++ 0#12) = .instr (.iszero 13) ∧
    decode (0x12#8 ++ 0#4 ++ 1#4 ++ 0#4 ++ 0#12) = .instr (.ishigh 1) ∧
    decode (0x13#8 ++ 3#4 ++ 1#4 ++ 2#4 ++ 0#12) = .instr (.csel 3 1 2) ∧
    decode (0x14#8 ++ 0#4 ++ 0#4 ++ 0#4 ++ 1#12) = .instr (.setc 1) ∧
    decode (0x15#8 ++ 2#4 ++ 7#4 ++ 0#4 ++ 0#12) = .instr (.mov 2 7) ∧
    decode (0x16#8 ++ 5#4 ++ 0#4 ++ 0#4 ++ 0#12) = .instr (.clr 5) ∧
    decode (0x17#8 ++ 1#4 ++ 0#4 ++ 0#4 ++ 7#12) = .instr (.ldc 1 7) := by decide +kernel

theorem test_decode_derived :
    decode (0x20#8 ++ 2#4 ++ 1#4 ++ 0#4 ++ 0#12) = .instr (.pow 2 1) ∧
    decode (0x21#8 ++ 1#4 ++ 2#4 ++ 0#4 ++ 0#12) = .instr (.powvt 1 2) ∧
    decode (0x22#8 ++ 5#4 ++ 4#4 ++ 0#4 ++ 0#12) = .instr (.invert 5 4) ∧
    decode (0x23#8 ++ 1#4 ++ 0#4 ++ 0#4 ++ 0#12) = .instr (.sqrt 1 0) ∧
    decode (0x24#8 ++ 12#4 ++ 3#4 ++ 0#4 ++ 0#12) = .instr (.shr1 12 3) := by decide +kernel

theorem test_decode_boundary :
    decode (0x30#8 ++ 7#4 ++ 0#4 ++ 0#4 ++ 0#12) = .instr (.fromle 7) ∧
    decode (0x31#8 ++ 8#4 ++ 0#4 ++ 0#4 ++ 0#12) = .instr (.frombe 8) ∧
    decode (0x32#8 ++ 0#4 ++ 9#4 ++ 0#4 ++ 0#12) = .instr (.tole 9) ∧
    decode (0x33#8 ++ 0#4 ++ 1#4 ++ 0#4 ++ 0#12) = .instr (.tobe 1) ∧
    decode (0x34#8 ++ 2#4 ++ 0#4 ++ 0#4 ++ 1#12) = .instr (.hexdec 2 1) ∧
    decode (0x35#8 ++ 0#4 ++ 6#4 ++ 0#4 ++ 3#12) = .instr (.hexenc 6 3) ∧
    decode (0x36#8 ++ 10#4 ++ 0#4 ++ 0#4 ++ 0#12) = .instr (.wide512 10) ∧
    decode (0x37#8 ++ 11#4 ++ 0#4 ++ 0#4 ++ 0#12) = .instr (.wide384 11) ∧
    decode (0x38#8 ++ 12#4 ++ 0#4 ++ 0#4 ++ 0#12) = .instr (.okm 12) ∧
    decode (0x39#8 ++ 13#4 ++ 0#4 ++ 0#4 ++ 0#12) = .instr (.fromu64 13) ∧
    decode (0x3A#8 ++ 14#4 ++ 0#4 ++ 0#4 ++ 0#12) = .instr (.fromu32 14) := by decide +kernel

/-- The illegal words of 95 section 4. -/
theorem test_decode_illegal :
    decode 0x00000001 = .illegal .fieldViolation ∧ decode 0x07000000 = .illegal .reservedOpcode ∧
    decode 0xFF000000 = .illegal .reservedOpcode ∧ decode 0x01100001 = .illegal .fieldViolation ∧
    decode 0x03101000 = .illegal .fieldViolation ∧ decode 0x17000008 = .illegal .fieldViolation ∧
    decode 0x35000004 = .illegal .fieldViolation ∧ decode 0x34000002 = .illegal .fieldViolation ∧
    decode 0x14000002 = .illegal .fieldViolation := by decide +kernel

/-- The rows of the opcode map do not overlap (R85). -/
theorem test_opcodes_distinct : (opcodeMap.map (·.opc)).Nodup := by decide +kernel

/-! ### Well-formedness: an immediate outside its legal set is refused (R83) -/

theorem test_wf_setc : (Instr.setc 1).wf = true ∧ (Instr.setc 2).wf = false := by decide +kernel
theorem test_wf_ldc : (Instr.ldc 0 7).wf = true ∧ (Instr.ldc 0 8).wf = false := by decide +kernel
theorem test_wf_hexdec : (Instr.hexdec 0 1).wf = true ∧ (Instr.hexdec 0 2).wf = false := by decide +kernel
theorem test_wf_hexenc : (Instr.hexenc 0 3).wf = true ∧ (Instr.hexenc 0 4).wf = false := by decide +kernel

/-! ### The assembler's view (R89, R90) -/

theorem test_text :
    (Instr.ldc 1 1).text = "LDC E1, #ONE" ∧ (Instr.csel 3 1 2).text = "CSEL E3, E1, E2" ∧
    (Instr.hexenc 0 3).text = "HEXENC E0, #UPPER_LE" := by decide +kernel

theorem test_pseudo : encode (expandPseudo (.ldone 1)) = 0x17100001 ∧
    expandPseudo (.cmov 2 3) = .csel 2 2 3 := by decide +kernel

/-! ### The datapath (95 section 2.1) -/

theorem test_mac : mac M64 M64 M64 M64 = (0xffffffffffffffff, 0xffffffffffffffff) := by decide +kernel
theorem test_sbb : sbb 0 1 0 = (0xffffffffffffffff, M64) ∧ sbb 5 5 M64 = (0xffffffffffffffff, M64) := by decide +kernel
theorem test_adc : adc M64 1 1 = (1, 1) := by decide +kernel
theorem test_schoolbook : schoolbook ⟨M64, M64, M64, M64⟩ ⟨M64, M64, M64, M64⟩ =
    ⟨1, 0, 0, 0, 0xfffffffffffffffe, M64, M64, M64⟩ := by decide +kernel
theorem test_redc : (redc ⟨1, 0, 0, 0, 0, 0, 0, 0⟩).int =
    0x1bbe869330009d577204078a4f77266aab6fca8f09dc705f13f75b69fe75c040 := by decide +kernel
theorem test_redc_product :
    redc (schoolbook
      ⟨0x00000005fffffffa, 0x098e27ee0009d806, 0xcca4efcfc634efe0, 0x486e140d064f104e⟩
      ⟨0x0000000afffffff5, 0x66d9f3df00120c0b, 0xcc83b7a7960bb7c5, 0x04c9cf6d363b9de5⟩) =
    ⟨0x00000020ffffffdf, 0x348ddb9d00362421, 0x658b26f6c2232750, 0x0e5d6e47a2b2d9b1⟩ := by decide +kernel

/-! ### One step of each command (95 sections 2.2 to 2.5) -/

theorem test_add_wraps : after (.add 0 7 1) full (fun t => ((t.elem 0).val, t.validAt 0)) = some (0, true) := by decide +kernel
theorem test_add_source_is_destination : after (.add 5 5 5) full (fun t => ((t.elem 5).val, t.validAt 5)) = some (10, true) := by decide +kernel
theorem test_sub_borrows : after (.sub 0 3 5) full (fun t => ((t.elem 0).val, t.validAt 0)) = some (q - 2, true) := by decide +kernel
theorem test_sub_same_register : after (.sub 6 6 6) full (fun t => ((t.elem 6).val, t.validAt 6)) = some (0, true) := by decide +kernel
theorem test_neg_zero : after (.neg 15 0) full (fun t => ((t.elem 15).val, t.validAt 15)) = some (0, true) := by decide +kernel
theorem test_neg_three : after (.neg 15 3) full (fun t => ((t.elem 15).val, t.validAt 15)) = some (q - 3, true) := by decide +kernel
theorem test_dbl_half : after (.dbl 15 10) full (fun t => ((t.elem 15).val, t.validAt 15)) = some (q - 1, true) := by decide +kernel
theorem test_dbl_half_plus_one : after (.dbl 15 11) full (fun t => ((t.elem 15).val, t.validAt 15)) = some (1, true) := by decide +kernel
theorem test_mul_minus_ones : after (.mul 0 7 7) full (fun t => ((t.elem 0).val, t.validAt 0)) = some (1, true) := by decide +kernel
theorem test_mul_powers : after (.mul 0 12 12) full (fun t => ((t.elem 0).val, t.validAt 0)) = some (0x1824b159acc5056f998c4fefecbc4ff55884b7fa0003480200000001fffffffe, true) := by decide +kernel
theorem test_sqr_seven : after (.sqr 0 6) full (fun t => ((t.elem 0).val, t.validAt 0)) = some (49, true) := by decide +kernel
theorem test_sqr_minus_one : after (.sqr 0 7) full (fun t => ((t.elem 0).val, t.validAt 0)) = some (1, true) := by decide +kernel
theorem test_eq_values : after (.eq 5 5) full (·.c) = some true ∧ after (.eq 1 7) full (·.c) = some false := by decide +kernel
theorem test_iszero_values : after (.iszero 0) full (·.c) = some true ∧ after (.iszero 7) full (·.c) = some false := by decide +kernel
theorem test_ishigh_at_half : after (.ishigh 10) full (·.c) = some false ∧ after (.ishigh 11) full (·.c) = some true := by decide +kernel
theorem test_csel_by_choice : after (.csel 0 2 8) full (·.elem 0) = some (mont 2) ∧
    after (.csel 0 2 8) (full.putC true) (·.elem 0) = some (mont (q - 2)) := by decide +kernel
theorem test_setc_sets : after (.setc 1) full (·.c) = some true ∧ after (.setc 0) (full.putC true) (·.c) = some false := by decide +kernel
theorem test_mov_copies : after (.mov 2 6) full (fun t => ((t.elem 2).val, t.validAt 2)) = some (7, true) := by decide +kernel
theorem test_clr_clears_status_bit : after (.clr 5) full (fun t => (t.elem 5, t.status.getLsbD 21)) = some (⟨0, 0, 0, 0⟩, false) := by decide +kernel
theorem test_ldc_limbs : after (.ldc 1 4) State.reset (·.elem 1) =
    some ⟨0xb9b58d8c5f0e466a, 0x5b1b4c801819d7ec, 0x0af53ae352a31e64, 0x5bf3adda19e9b27b⟩ := by decide +kernel
theorem test_ldc_last : after (.ldc 1 7) State.reset (·.elem 1) =
    some ⟨0xfffffffe00000002, 0xa77b4805fffcb7fd, 0x6673b0101343b00a, 0x67db4ea6533afa90⟩ := by decide +kernel
theorem test_nop_changes_nothing : nextOf (exec .nop full) = some full := by decide +kernel
theorem test_pow_ten : after (.pow 0 2) (fullWith [10]) (fun t => ((t.elem 0).val, t.validAt 0)) = some (1024, true) := by decide +kernel
theorem test_powvt_ten : after (.powvt 0 2) (fullWith [10]) (fun t => ((t.elem 0).val, t.validAt 0)) = some (1024, true) := by decide +kernel
theorem test_invert_seven : after (.invert 1 6) full (fun t => ((t.elem 1).val, t.c, t.validAt 1)) =
    some (0x211f5460e751918257c7624b7077624aaa362edc49241a48db6db6db24924925, true, true) := by decide +kernel
theorem test_invert_zero : after (.invert 0 0) full (fun t => (t.c, t.validAt 0)) = some (false, false) := by decide +kernel
theorem test_sqrt_four : after (.sqrt 1 4) full (fun t => ((t.elem 1).val, t.c, t.validAt 1)) = some (q - 2, true, true) := by decide +kernel
theorem test_sqrt_five : after (.sqrt 5 5) full (fun t => (t.c, t.validAt 5)) = some (false, false) := by decide +kernel
theorem test_shr1_three : after (.shr1 0 3) full (fun t => ((t.elem 0).val, t.validAt 0)) = some (1, true) := by decide +kernel
theorem test_shr1_minus_one : after (.shr1 0 7) full (fun t => ((t.elem 0).val, t.validAt 0)) = some ((q - 1) / 2, true) := by decide +kernel
theorem test_fromle_bounds : after (.fromle 0) (fullWith (leBytes (q - 1) 32)) (fun t => ((t.elem 0).val, t.c)) = some (q - 1, true) ∧
    after (.fromle 0) (fullWith (leBytes q 32)) (fun t => (t.validAt 0, t.c)) = some (false, false) := by decide +kernel
theorem test_frombe_order : after (.frombe 0) (fullWith (List.replicate 31 0 ++ [3])) (fun t => ((t.elem 0).val, t.c)) = some (3, true) := by decide +kernel
theorem test_tole_three : after (.tole 3) (fullWith (List.replicate 33 0xAA)) (·.bufRead 0 33) =
    some ([3] ++ List.replicate 31 0 ++ [0xAA]) := by decide +kernel
theorem test_tobe_minus_three : after (.tobe 9) full (·.bufRead 0 32) =
    some ([0x73, 0xed, 0xa7, 0x53, 0x29, 0x9d, 0x7d, 0x48, 0x33, 0x39, 0xd8, 0x08, 0x09, 0xa1, 0xd8, 0x05] ++
      [0x53, 0xbd, 0xa4, 0x02, 0xff, 0xfe, 0x5b, 0xfe, 0xff, 0xff, 0xff, 0xfe, 0xff, 0xff, 0xff, 0xfe]) := by decide +kernel
theorem test_hexdec_uppercase : after (.hexdec 0 0) (fullWith hexOfQMinusOne) (fun t => ((t.elem 0).val, t.c)) = some (q - 1, true) := by decide +kernel
theorem test_hexdec_not_hex : after (.hexdec 0 0) (fullWith (hexOfQMinusOne.set 63 0x67)) (fun t => (t.validAt 0, t.c)) = some (false, false) := by decide +kernel
theorem test_hexenc_upper : after (.hexenc 7 1) full (·.bufRead 0 64) = some hexOfQMinusOne := by decide +kernel
theorem test_hexenc_upper_little : after (.hexenc 1 3) full (·.bufRead 0 4) = some [0x30, 0x31, 0x30, 0x30] := by decide +kernel
theorem test_wide512_of_q : after (.wide512 0) (fullWith (leBytes q 64)) (fun t => ((t.elem 0).val, t.validAt 0)) = some (0, true) := by decide +kernel
theorem test_wide512_two_256 : after (.wide512 0) (fullWith (List.replicate 32 0 ++ [1])) (·.elem 0) =
    some ⟨0xc999e990f3f29c6d, 0x2b6cedcb87925c23, 0x05d314967254398f, 0x0748d9d99f59ff11⟩ := by decide +kernel
theorem test_wide384_ones : after (.wide384 0) (fullWith (List.replicate 64 0xff)) (fun t => ((t.elem 0).val, t.validAt 0)) = some (0x2dbeaf1fd4843acb7abbe5687369510a9277efb8ac0a600dcf2ab21bf81f712c, true) := by decide +kernel
theorem test_okm_counting : after (.okm 0) (fullWith ((List.range 48).map (BitVec.ofNat 8))) (fun t => ((t.elem 0).val, t.validAt 0)) = some (0x1beb01a0db17ad14f6f9daa88f841ac34ab5f49a7385dfe98a0d5fdcceb18c87, true) := by decide +kernel
theorem test_fromu64_max : after (.fromu64 0) (fullWith (List.replicate 9 0xff)) (fun t => ((t.elem 0).val, t.validAt 0)) = some (2 ^ 64 - 1, true) := by decide +kernel
theorem test_fromu32_max : after (.fromu32 0) (fullWith (List.replicate 9 0xff)) (fun t => ((t.elem 0).val, t.validAt 0)) = some (4294967295, true) := by decide +kernel

/-! ### Errors, the engine and the window (95 section 4, section 5) -/

theorem test_uninit : nextOf (exec (.mul 2 1 0) State.reset) = some (State.reset.record .uninit) := by decide +kernel
theorem test_csel_unselected_source :
    after (.csel 0 1 2) (full.putElem 2 ZERO false) (·.errCode) = some 2 := by decide +kernel
theorem test_illegal_before_uninit :
    (nextOf (step (State.reset.withFetchWord 32 0x07100000))).map (fun t => (t.errCode, t.busy)) =
      some (1, false) := by decide +kernel
theorem test_status_word :
    ({ State.reset with valid := 0x001F, err := true, errCode := 2 } : State).status = 0x001F0024 := by decide +kernel
theorem test_overrun :
    (nextOf (step (pending 0 [.write 32 0x08 0x06410000]))).map (fun t => (t.errCode, t.lastCmd, t.busy)) =
      some (3, 0, true) := by decide +kernel
theorem test_busy_access :
    (nextOf (step (pending 0 [.write 32 0x40 7]))).map (fun t => (t.errCode, t.buf)) = some (4, []) := by decide +kernel
theorem test_buf_word :
    (nextOf (step (idle [.write 32 0x40 0x53a7ed73]))).map (·.bufRead 0 5) =
      some [0x73, 0xed, 0xa7, 0x53, 0x00] := by decide +kernel
theorem test_fetch_runs_the_command :
    (nextOf (step (State.reset.withFetchWord 32 0x17100001))).map
      (fun t => ((t.elem 1).val, t.busy, t.lastCmd)) = some (1, false, 0x17100001) := by decide +kernel
theorem test_reset_state : State.reset.buf.wf ∧ State.reset.status = 0 := by decide +kernel

/-! ### Witnesses: for each statement with hypotheses, a state and operands that meet them together -/

theorem full_valid : ∀ i : Reg, full.validAt i = true := by decide +kernel
theorem full_inv : full.Inv := by decide +kernel
theorem reset_invalid : ∀ i : Reg, State.reset.validAt i = false := by decide +kernel

theorem witness_DecodeOfEncodeIsTheCommand :
    (Instr.hexenc 15 3).wf = true ∧ (Instr.ldc 15 7).wf = true := by decide +kernel
theorem witness_DecodedWordIsItsEncoding :
    decode 0x35000003 = .instr (.hexenc 0 3) := by decide +kernel
theorem witness_IllegalWordsAreThoseOfTheRule :
    (pending 0x07000000 []).pend = 0x07000000 ∧ decode 0x07000000 = .illegal .reservedOpcode := by decide +kernel
theorem witness_StepRunsTheDecodedCommand :
    (pending 0x17100001 [.engine]).busy = true ∧ (pending 0x17100001 [.engine]).script = .engine :: [] ∧
    (pending 0x17100001 []).script = [] ∧ decode (pending 0x17100001 []).pend = .instr (.ldc 1 1) := by decide +kernel
theorem witness_AddIsModularAddition :
    opcOf 0x01000000 = 0x01 ∧ (pending 0x01000000 []).pend = 0x01000000 ∧
    full.validAt 7 = true ∧ full.validAt 1 = true ∧ full.RegsReduced ∧ (State.reset.validAt 7 = false ∨ State.reset.validAt 1 = false) := by decide +kernel
theorem witness_SubIsModularSubtraction :
    opcOf 0x02000000 = 0x02 ∧ (pending 0x02000000 []).pend = 0x02000000 ∧
    full.validAt 3 = true ∧ full.validAt 5 = true ∧ full.RegsReduced ∧ (State.reset.validAt 3 = false ∨ State.reset.validAt 5 = false) := by decide +kernel
theorem witness_NegIsModularNegation :
    opcOf 0x03000000 = 0x03 ∧ (pending 0x03000000 []).pend = 0x03000000 ∧
    full.validAt 0 = true ∧ full.RegsReduced ∧ (State.reset.validAt 0 = false) := by decide +kernel
theorem witness_DblDoublesLikeAdd :
    opcOf 0x04000000 = 0x04 ∧ (pending 0x04000000 []).pend = 0x04000000 ∧
    full.validAt 11 = true ∧ full.RegsReduced ∧ (State.reset.validAt 11 = false) := by decide +kernel
theorem witness_MulIsMontgomeryMultiplication :
    opcOf 0x05000000 = 0x05 ∧ (pending 0x05000000 []).pend = 0x05000000 ∧
    full.validAt 7 = true ∧ full.validAt 7 = true ∧ full.RegsReduced ∧ (State.reset.validAt 7 = false ∨ State.reset.validAt 7 = false) := by decide +kernel
theorem witness_SqrSquaresLikeMul :
    opcOf 0x06000000 = 0x06 ∧ (pending 0x06000000 []).pend = 0x06000000 ∧
    full.validAt 7 = true ∧ full.RegsReduced ∧ (State.reset.validAt 7 = false) := by decide +kernel
theorem witness_EqComparesRepresentedValues :
    opcOf 0x10000000 = 0x10 ∧ (pending 0x10000000 []).pend = 0x10000000 ∧
    full.validAt 1 = true ∧ full.validAt 7 = true ∧ full.RegsReduced ∧ (State.reset.validAt 1 = false ∨ State.reset.validAt 7 = false) := by decide +kernel
theorem witness_IszeroTestsForZero :
    opcOf 0x11000000 = 0x11 ∧ (pending 0x11000000 []).pend = 0x11000000 ∧
    full.validAt 0 = true ∧ full.RegsReduced ∧ (State.reset.validAt 0 = false) := by decide +kernel
theorem witness_IshighTestsTheHighHalf :
    opcOf 0x12000000 = 0x12 ∧ (pending 0x12000000 []).pend = 0x12000000 ∧
    (full.elem 11).int < q ∧ (full.elem 11).val ≠ 0 ∧ full.validAt 11 = true ∧ State.reset.validAt 11 = false := by decide +kernel
theorem witness_CselSelectsByTheChoiceFlag :
    opcOf 0x13000000 = 0x13 ∧ (pending 0x13000000 []).pend = 0x13000000 ∧
    full.validAt 2 = true ∧ full.validAt 8 = true ∧ (State.reset.validAt 2 = false ∨ State.reset.validAt 8 = false) := by decide +kernel
theorem witness_CselChoices : full.c = false ∧ (full.putC true).c = true := by decide +kernel
theorem witness_SetcSetsTheChoiceFlag :
    opcOf 0x14000000 = 0x14 ∧ (pending 0x14000000 []).pend = 0x14000000 := by decide +kernel
theorem witness_MovCopies :
    opcOf 0x15000000 = 0x15 ∧ (pending 0x15000000 []).pend = 0x15000000 ∧
    full.validAt 6 = true ∧ (State.reset.validAt 6 = false) := by decide +kernel
theorem witness_ClrZeroisesAndInvalidates :
    opcOf 0x16000000 = 0x16 ∧ (pending 0x16000000 []).pend = 0x16000000 ∧
    (Instr.neg 0 5).wf = true ∧ (5 : Reg) ∈ sources (.neg 0 5) := by decide +kernel
theorem witness_LdcLoadsTheConstant :
    opcOf 0x17000000 = 0x17 ∧ (pending 0x17000000 []).pend = 0x17000000 ∧
    (0 : Imm).toNat < constValues.length ∧ (7 : Imm).toNat < constValues.length := by decide +kernel
theorem witness_NopChangesNothing :
    opcOf 0x00000000 = 0x00 ∧ (pending 0x00000000 []).pend = 0x00000000 ∧
    (idle [.write 32 0x08 0, .engine]).busy = false ∧
    (idle [.write 32 0x08 0, .engine]).script = .write 32 0x08 0 :: .engine :: [] := by decide +kernel
theorem witness_PowAndPowvtRaiseToTheExponent :
    opcOf 0x20000000 = 0x20 ∧ (pending 0x20000000 []).pend = 0x20000000 ∧
    full.validAt 2 = true ∧ full.RegsReduced ∧ (State.reset.validAt 2 = false) := by decide +kernel
theorem witness_InvertGivesTheInverseOrNothing :
    opcOf 0x22000000 = 0x22 ∧ (pending 0x22000000 []).pend = 0x22000000 ∧
    full.validAt 0 = true ∧ full.validAt 6 = true ∧ full.RegsReduced ∧ State.reset.validAt 6 = false ∧
    (full.elem 6).val ≠ 0 ∧ (full.elem 0).val = 0 := by decide +kernel
theorem witness_SqrtPresentResultIsARoot :
    full.validAt 4 = true ∧ full.RegsReduced := by decide +kernel
theorem witness_SqrtIsPresentExactlyOnSquares :
    opcOf 0x23000000 = 0x23 ∧ (pending 0x23000000 []).pend = 0x23000000 ∧
    full.validAt 4 = true ∧ full.RegsReduced ∧ State.reset.validAt 4 = false ∧ 2 * 2 % q = (full.elem 4).val := by decide +kernel
/-- The operand 7 is no square (R175: "5 and 7 are non-residues"). -/
theorem witness_SqrtIsPresentExactlyOnSquares_nonSquare :
    full.validAt 6 = true ∧ full.RegsReduced ∧ ¬∃ r, r * r % q = (full.elem 6).val := by
  refine ⟨by decide +kernel, by decide +kernel, ?_⟩
  rw [show (full.elem 6).val = 7 by decide +kernel]
  exact Laws.seven_not_square
theorem witness_SqrtFollowsTheEulerCriterion :
    full.validAt 5 = true ∧ full.RegsReduced := by decide +kernel
theorem witness_Shr1HalvesTheCanonicalValue :
    opcOf 0x24000000 = 0x24 ∧ (pending 0x24000000 []).pend = 0x24000000 ∧
    full.validAt 3 = true ∧ (State.reset.validAt 3 = false) := by decide +kernel
theorem witness_FromleAndFrombeDecodeCanonically :
    opcOf 0x30000000 = 0x30 ∧ (pending 0x30000000 []).pend = 0x30000000 ∧ opcOf 0x31000000 = 0x31 ∧
    leInt ((fullWith (leBytes (q - 1) 32)).bufRead 0 32) < q ∧ ¬leInt ((fullWith (leBytes q 32)).bufRead 0 32) < q := by decide +kernel
theorem witness_ToleAndTobeEncodeCanonically :
    opcOf 0x32000000 = 0x32 ∧ (pending 0x32000000 []).pend = 0x32000000 ∧ opcOf 0x33000000 = 0x33 ∧
    full.validAt 3 = true ∧ full.buf.wf ∧ State.reset.validAt 3 = false := by decide +kernel
theorem witness_HexdecDecodesAHexString :
    opcOf 0x34000000 = 0x34 ∧ (pending 0x34000000 []).pend = 0x34000000 ∧ (0 : Imm).toNat ≤ 1 ∧ (1 : Imm).toNat ≤ 1 ∧
    (∀ k < 64, (nib ((fullWith hexOfQMinusOne).byteAt k)).2 = true) ∧ (nib ((fullWith [0x67]).byteAt 0)).2 = false := by decide +kernel
theorem witness_HexencEncodesAHexString :
    opcOf 0x35000000 = 0x35 ∧ (pending 0x35000000 []).pend = 0x35000000 ∧ (0 : Imm).toNat ≤ 3 ∧ (3 : Imm).toNat ≤ 3 ∧
    full.validAt 7 = true ∧ full.buf.wf ∧ State.reset.validAt 7 = false ∧ (beBytes (full.elem 7).val 32)[31]? = some 0x00 := by decide +kernel
theorem witness_WideReductionIsExact :
    opcOf 0x36000000 = 0x36 ∧ (pending 0x36000000 []).pend = 0x36000000 ∧ opcOf 0x37000000 = 0x37 := by decide +kernel
theorem witness_OkmReducesTheFortyEightBytes :
    opcOf 0x38000000 = 0x38 ∧ (pending 0x38000000 []).pend = 0x38000000 := by decide +kernel
theorem witness_SmallIntegersAreConstructed :
    opcOf 0x39000000 = 0x39 ∧ (pending 0x39000000 []).pend = 0x39000000 ∧ opcOf 0x3A000000 = 0x3A := by decide +kernel
theorem witness_DecodeOfEncodedRegisterIsTheRegister :
    full.validAt 9 = true ∧ full.Inv ∧ (3 : Imm).toNat ≤ 3 ∧ (1 : Imm).toNat = (3 : Imm).toNat / 2 := by decide +kernel
theorem witness_DatapathAgreesWithTheValueLevel :
    0 < q ∧ q - 1 < q := by decide +kernel
theorem witness_FieldAxiomsHoldOfStoredValues :
    (full.elem 7).int < q ∧ (full.elem 0).int < q ∧ (full.elem 12).int < q := by decide +kernel
theorem witness_InvalidSourceRaisesUninit :
    (Instr.csel 0 1 2).wf = true ∧ (2 : Reg) ∈ sources (.csel 0 1 2) ∧ State.reset.validAt 2 = false ∧
    (∀ r ∈ sources (.csel 0 1 2), (full.putElem 0 ZERO false).validAt r = true) := by decide +kernel
theorem witness_ChoiceIsWrittenOnlyByTheListedCommands :
    full.validAt 2 = true ∧ full.validAt 8 = true ∧ nextOf (exec (.csel 0 2 8) full) ≠ none ∧
    nextOf (exec (.mov 0 1) full) ≠ none ∧ writesChoice (.mov 0 1) = false ∧
    nextOf (exec (.eq 0 1) State.reset) = some (State.reset.record .uninit) := by decide +kernel
theorem witness_BufIsTouchedOnlyByTheListedCommands :
    nextOf (exec (.add 0 1 2) full) ≠ none ∧ writesBuf (.add 0 1 2) = false ∧ readsBuf (.add 0 1 2) = false ∧
    nextOf (exec (.tole 3) full) ≠ none ∧ nextOf (exec (.tole 3) (fullWith [7])) ≠ none ∧
    readsBuf (.tole 3) = false ∧ full.buf.wf ∧ (fullWith [7]).buf.wf ∧
    (nextOf (exec (.tole 3) full)).map (·.byteAt 0) = some 3 ∧ full.byteAt 0 = 0 := by decide +kernel
theorem witness_RecordedErrorsDoNotBlock :
    (Instr.add 0 1 2).wf = true ∧ (∀ r ∈ sources (.add 0 1 2), full.validAt r = true) ∧
    nextOf (exec (.add 0 1 2) full) ≠ none := by decide +kernel
theorem witness_ChecksAreMadeInTheGivenOrder :
    rowOf (opcOf (pending 0x07100000 []).pend) = none ∧
    decode (pending 0x01100001 []).pend = .illegal .fieldViolation ∧
    decode (State.reset.issue 0x05210000).pend = .instr (.mul 2 1 0) ∧ (0 : Reg) ∈ sources (.mul 2 1 0) ∧
    (State.reset.issue 0x05210000).validAt 0 = false := by decide +kernel
theorem witness_RecordKeepsTheFirstError :
    full.errCode = 0 ∧ (full.record .overrun).errCode ≠ 0 := by decide +kernel
theorem witness_ErrorCodeIsStickyUntilCleared :
    (full.record .illegal).ErrorsSound ∧ (full.record .illegal).err = true ∧
    nextOf (step (full.record .illegal)) ≠ none := by decide +kernel
theorem witness_EngineRunsExactlyWhenBusy :
    (pending 0 [.engine]).script = .engine :: [] ∧ (pending 0 [.engine]).busy = true ∧
    (idle [.engine]).script = .engine :: [] ∧ (idle [.engine]).busy = false ∧
    (pending 0 []).script = [] ∧ (idle []).script = [] := by decide +kernel
/-- One offset for each clause, at the ends of its range. -/
theorem witness_ReadsAnswerTheMapAndChangeNothing :
    (∀ off ∈ ([0x00, 0x04, 0x08, 0x0C, 0x10, 0x3C, 0x40, 0x7C, 0x80, 0xFC] : List (BitVec 8)), off.toNat % 4 = 0) ∧
    (idle [.read 32 0x7C]).script = .read 32 0x7C :: [] ∧ (idle []).busy = false := by decide +kernel
theorem witness_CmdWriteIssuesWhenIdle :
    (idle [.write 32 0x08 0x05210000]).script = .write 32 0x08 0x05210000 :: [] ∧ (idle []).busy = false := by decide +kernel
theorem witness_BusyAccessesAreDiscardedAndRecorded :
    (pending 0 []).busy = true ∧ (0x08 : BitVec 8).toNat % 4 = 0 ∧
    (0x40 : BitVec 8).toNat % 4 = 0 ∧ (0x7C : BitVec 8).toNat % 4 = 0 ∧ (0x7C : BitVec 8).toNat < 0x80 ∧
    (pending 0 [.write 32 0x08 1]).script = .write 32 0x08 1 :: [] ∧
    (pending 0 [.write 32 0x7C 1]).script = .write 32 0x7C 1 :: [] ∧
    (pending 0 [.read 32 0x40]).script = .read 32 0x40 :: [] := by decide +kernel
theorem witness_BufWordsAreLittleEndian :
    (15 : Nat) < 16 ∧ (idle []).busy = false ∧ (idle []).buf.wf ∧
    (idle [.read 32 0x7C]).script = .read 32 (BitVec.ofNat 8 (0x40 + 4 * 15)) :: [] ∧
    (idle [.write 32 0x7C 1]).script = .write 32 (BitVec.ofNat 8 (0x40 + 4 * 15)) 1 :: [] := by decide +kernel
/-- A reserved offset at each end of both ranges, a read-only word, and a CTRL word of reserved bits. -/
theorem witness_ReservedSpaceReadsZeroAndIgnoresWrites :
    (∀ off ∈ ([0x10, 0x3C, 0x80, 0xFC] : List (BitVec 8)),
      off.toNat % 4 = 0 ∧ ((0x10 ≤ off.toNat ∧ off.toNat < 0x40) ∨ 0x80 ≤ off.toNat)) ∧
    (idle [.read 32 0xFC]).script = .read 32 0xFC :: [] ∧
    (idle [.write 32 0x04 9]).script = .write 32 0x04 9 :: [] ∧
    (0xFFFFFFFC : Word).extractLsb' 0 2 = 0 ∧
    (idle [.write 32 0x0C 0xFFFFFFFC]).script = .write 32 0x0C 0xFFFFFFFC :: [] := by decide +kernel
theorem witness_CtrlResetsAndClearsErrors :
    (pending 0 [.write 32 0x0C 3]).script = .write 32 0x0C 3 :: [] ∧ (3 : Word).getLsbD 0 = true ∧
    (2 : Word).getLsbD 0 = false ∧ (2 : Word).getLsbD 1 = true ∧ (4 : Word).getLsbD 0 = false ∧
    (4 : Word).getLsbD 1 = false ∧
    (idle [.read 32 0x0C]).script = .read 32 0x0C :: [] := by decide +kernel
theorem witness_ResetsGiveTheResetState :
    (pending 0 [.hardReset]).script = .hardReset :: [] ∧
    (pending 0 [.write 32 0x0C 1]).script = .write 32 0x0C 1 :: [] ∧ (1 : Word).getLsbD 0 = true := by decide +kernel
theorem witness_RefusedAccessHasNoStep :
    (8 ≠ 32 ∨ (0x40 : BitVec 8).toNat % 4 ≠ 0) ∧ (32 ≠ 32 ∨ (0x41 : BitVec 8).toNat % 4 ≠ 0) ∧
    (idle [.read 8 0x40]).script = .read 8 0x40 :: [] ∧
    (idle [.write 32 0x41 0]).script = .write 32 0x41 0 :: [] := by decide +kernel
theorem witness_WindowIsTheBasePage :
    Config.base + 0xFF < Config.base + 0x100 ∧ Config.base < Config.base + 1 := by omega
theorem witness_OverrunAndEngineErrorInBothOrders :
    (pending 0x07000000 []).busy = true ∧ (pending 0x07000000 []).errCode = 0 ∧
    decode (pending 0x07000000 []).pend = .illegal .reservedOpcode := by decide +kernel
theorem witness_StepKeepsTheInvariant :
    (pending 0x01501000 []).Inv ∧ nextOf (step (pending 0x01501000 [])) ≠ none := by decide +kernel
theorem witness_AcceptedScriptsNeverStop :
    accessesAccepted (idle [.read 32 0x7C, .write 32 0x08 0, .engine, .hardReset]).script = true := by decide +kernel

end Sys2Proof.Tests
end

/-! PROOFS. The rules of 10_state.md: what every command can do (its error, or its effect with its frame),
what every step does to the error state, the step at the head of a script, and the four obligations settled
from them. -/

namespace Sys2Proof.Machine

/-! ### What a command can do -/

/-- The register a command writes when it raises no error. -/
def destOf : Instr → Option Reg
  | .add d _ _ | .sub d _ _ | .mul d _ _ | .csel d _ _ => some d
  | .neg d _ | .dbl d _ | .sqr d _ | .mov d _ | .shr1 d _ => some d
  | .pow d _ | .powvt d _ | .invert d _ | .sqrt d _ => some d
  | .clr d | .ldc d _ => some d
  | .fromle d | .frombe d | .hexdec d _ => some d
  | .wide512 d | .wide384 d | .okm d | .fromu64 d | .fromu32 d => some d
  | .nop | .setc _ | .eq _ _ | .iszero _ | .ishigh _ => none
  | .tole _ | .tobe _ | .hexenc _ _ => none

/-- How many bytes at the start of BUF a command writes when it raises no error (R204, R205, R208). -/
def bufBytesOf : Instr → Nat
  | .tole _ | .tobe _ => 32
  | .hexenc _ _ => 64
  | _ => 0

/-- The frame of a command as its tables give it: destination, choice flag and BUF bytes. -/
abbrev FrameOf (i : Instr) (s t : State) : Prop := Frame (destOf i) (writesChoice i) (bufBytesOf i) s t

theorem frame_bufWrite_of_length (s : State) {bs : List Byte} {n : Nat} (h : bs.length = n) :
    Frame none false n s (s.bufWrite 0 bs) :=
  h ▸ frame_bufWrite s bs

/-- A command outside its legal immediates raises ILLEGAL before any source is checked (R247; log 13). -/
theorem exec_of_not_wf {i : Instr} (h : i.wf = false) (s : State) :
    exec i s = .next (s.record .illegal) := by
  cases i with
  | setc imm =>
    have : ¬imm.toNat ≤ 1 := by simpa [Instr.wf] using h
    simp [exec, execSetc, this, raiseError]
  | ldc d imm =>
    have : loadable[imm.toNat]? = none := List.getElem?_eq_none (by simpa [Instr.wf, loadable, Nat.succ_le_iff] using h)
    simp [exec, execLdc, this, raiseError]
  | hexdec d imm =>
    have : ¬imm.toNat ≤ 1 := by simpa [Instr.wf] using h
    simp [exec, execHexdec, this, raiseError]
  | hexenc a imm =>
    have : ¬imm.toNat ≤ 3 := by simpa [Instr.wf] using h
    simp [exec, execHexenc, this, raiseError]
  | _ => cases h

/-- Every legal command checks its source registers and then has one effect within its frame (R22, R91). -/
theorem exec_of_wf {i : Instr} (h : i.wf = true) (s : State) :
    ∃ t, exec i s = withSources (sources i) s t ∧ FrameOf i s t := by
  cases i with
  | nop => exact ⟨s, rfl, .refl ..⟩
  | add | sub | neg | dbl | mul | sqr | csel | mov | clr | pow | powvt | shr1
  | wide512 | wide384 | okm | fromu64 | fromu32 => exact ⟨_, rfl, frame_putElem ..⟩
  | invert | sqrt | fromle | frombe => exact ⟨_, rfl, frame_putMaybe ..⟩
  | eq | iszero | ishigh => exact ⟨_, rfl, frame_putC ..⟩
  | tole => exact ⟨_, rfl, frame_bufWrite_of_length s (length_leBytes ..)⟩
  | tobe => exact ⟨_, rfl, frame_bufWrite_of_length s (length_beBytes ..)⟩
  | setc imm =>
    exact ⟨_, if_pos (by simpa [Instr.wf] using h), frame_putC ..⟩
  | ldc d imm =>
    have : imm.toNat < loadable.length := by simpa [Instr.wf, loadable, Nat.lt_succ_iff] using h
    refine ⟨s.putElem d loadable[imm.toNat] true, ?_, frame_putElem ..⟩
    simp only [exec, execLdc, List.getElem?_eq_getElem this]
    rfl
  | hexdec d imm => exact ⟨_, if_pos (by simpa [Instr.wf] using h), frame_putMaybe ..⟩
  | hexenc a imm =>
    exact ⟨_, if_pos (by simpa [Instr.wf] using h), frame_bufWrite_of_length s (by simp [bufBytesOf])⟩

/-- All a command that goes on can do: raise ILLEGAL, raise UNINIT, or have its effect. -/
theorem exec_cases {i : Instr} {s t : State} (h : exec i s = .next t) :
    (i.wf = false ∧ t = s.record .illegal) ∨
    (i.wf = true ∧ (∃ r ∈ sources i, s.validAt r = false) ∧ t = s.record .uninit) ∨
    (i.wf = true ∧ (∀ r ∈ sources i, s.validAt r = true) ∧ FrameOf i s t) := by
  cases hw : i.wf with
  | false =>
    rw [exec_of_not_wf hw, Host.Outcome.next.injEq] at h
    exact .inl ⟨rfl, h.symm⟩
  | true =>
    obtain ⟨u, he, hframe⟩ := exec_of_wf hw s
    obtain ⟨hv, rfl⟩ | ⟨hr, rfl⟩ := withSources_cases (he ▸ h)
    · exact .inr (.inr ⟨rfl, hv, hframe⟩)
    · exact .inr (.inl ⟨rfl, hr, rfl⟩)

/-- A command that does not list C among its results leaves it, whether or not it raises an error (R25). -/
theorem exec_keeps_choice {i : Instr} {s t : State} (h : exec i s = .next t)
    (hc : writesChoice i = false) : t.c = s.c := by
  obtain ⟨-, rfl⟩ | ⟨-, -, rfl⟩ | ⟨-, -, hframe⟩ := exec_cases h
  · rfl
  · rfl
  · exact hframe.choice hc

/-- CSEL with two valid sources leaves in its destination the source C selects (R143). -/
theorem exec_csel_elem {d a b : Reg} {s t : State} (ha : s.validAt a = true) (hb : s.validAt b = true)
    (h : exec (.csel d a b) s = .next t) : t.elem d = if s.c then s.elem b else s.elem a := by
  have he : exec (.csel d a b) s = .next (s.putElem d (sel (s.elem a) (s.elem b) s.c) true) :=
    withSources_two ha hb _
  rw [he, Host.Outcome.next.injEq] at h
  subst h
  rw [State.putElem_elem, if_pos rfl, sel_eq]

/-- STATUS.C is bit 1 (R30). -/
theorem status_choice (s : State) : s.status.getLsbD 1 = s.c := by
  simp only [State.status, BitVec.getLsbD_append]
  simp

/-! ### The step at the head of a script -/

theorem step_of_script_nil {s : State} (h : s.script = []) : step s = engineTurn s := by
  simp only [step, advance, h]

theorem step_of_script_cons {s : State} {e : Event} {rest : List Event} (h : s.script = e :: rest) :
    step s = perform e { s with script := rest } := by
  simp only [step, advance, h]

/-- A read that goes on is one the window accepts, and is the host read (R52, R53). -/
theorem perform_read_cases {width : Nat} {off : BitVec 8} {s t : State}
    (h : perform (.read width off) s = .next t) : accepted width off = true ∧ t = hostRead off s := by
  cases hacc : accepted width off <;> simp only [perform, hacc] at h
  · cases h
  · exact ⟨rfl, (Host.Outcome.next.inj h).symm⟩

/-- A write that goes on is one the window accepts, and is the host write (R52, R53). -/
theorem perform_write_cases {width : Nat} {off : BitVec 8} {w : Word} {s t : State}
    (h : perform (.write width off w) s = .next t) :
    accepted width off = true ∧ t = hostWrite off w s := by
  cases hacc : accepted width off <;> simp only [perform, hacc] at h
  · cases h
  · exact ⟨rfl, (Host.Outcome.next.inj h).symm⟩

theorem width_of_accepted {width : Nat} {off : BitVec 8} (h : accepted width off = true) : width = 32 := by
  simp only [accepted, Bool.and_eq_true, beq_iff_eq] at h
  exact h.1

/-- A write of CTRL at the head of the script is the step (R32, R51). -/
theorem step_writeCtrl {s : State} {w : Word} {rest : List Event}
    (h : s.script = .write 32 0x0C w :: rest) : step s = .next (writeCtrl w { s with script := rest }) :=
  step_of_script_cons h

/-- A read of CTRL at the head of the script answers 0 (R32, R51). -/
theorem step_readCtrl {s : State} {rest : List Event} (h : s.script = .read 32 0x0C :: rest) :
    step s = .next ({ s with script := rest }.reply 0) :=
  step_of_script_cons h

theorem writeCtrl_srst {w : Word} (h : w.getLsbD 0 = true) (s : State) : writeCtrl w s = s.resetUnit := by
  simp only [writeCtrl, h, if_true]

theorem writeCtrl_errclr {w : Word} (h0 : w.getLsbD 0 = false) (h1 : w.getLsbD 1 = true) (s : State) :
    writeCtrl w s = s.clearError := by
  simp only [writeCtrl, h0, h1, Bool.false_eq_true, if_false, if_true]

theorem writeCtrl_of_reserved {w : Word} (h0 : w.getLsbD 0 = false) (h1 : w.getLsbD 1 = false) (s : State) :
    writeCtrl w s = s := by
  simp only [writeCtrl, h0, h1, Bool.false_eq_true, if_false]

/-! ### The error state along a step -/

/-- The error state of t is that of s, or that of s with one more error recorded (R241). -/
def AtMostRecords (s t : State) : Prop :=
  (t.err = s.err ∧ t.errCode = s.errCode) ∨
  ∃ e, t.err = true ∧ t.errCode = (s.record e).errCode

theorem AtMostRecords.of_eq {s t : State} (herr : t.err = s.err) (hcode : t.errCode = s.errCode) :
    AtMostRecords s t :=
  .inl ⟨herr, hcode⟩

theorem AtMostRecords.record (s : State) (e : ErrorCode) : AtMostRecords s (s.record e) :=
  .inr ⟨e, rfl, rfl⟩

theorem errorsSound_congr {s t : State} (herr : t.err = s.err) (hcode : t.errCode = s.errCode)
    (hs : s.ErrorsSound) : t.ErrorsSound := by
  unfold State.ErrorsSound
  rwa [herr, hcode]

theorem errorsSound_of_cleared {t : State} (herr : t.err = false) (hcode : t.errCode = 0#4) :
    t.ErrorsSound := by
  simp [State.ErrorsSound, herr, hcode]

theorem AtMostRecords.errorsSound {s t : State} (h : AtMostRecords s t) (hs : s.ErrorsSound) :
    t.ErrorsSound := by
  obtain ⟨herr, hcode⟩ | ⟨e, herr, hcode⟩ := h
  · exact errorsSound_congr herr hcode hs
  · exact errorsSound_congr (s := s.record e) herr hcode (record_errorsSound hs e)

theorem AtMostRecords.congr_right {s t u : State} (h : AtMostRecords s t) (herr : u.err = t.err)
    (hcode : u.errCode = t.errCode) : AtMostRecords s u := by
  unfold AtMostRecords
  rwa [herr, hcode]

/-- A recorded error is not replaced by a later one: its code is not 0, so `record` keeps it (R28). -/
theorem AtMostRecords.sticky {s t : State} (h : AtMostRecords s t) (hs : s.ErrorsSound)
    (herr : s.err = true) : t.err = true ∧ t.errCode = s.errCode := by
  obtain ⟨hiff, -⟩ := hs
  have hcode : s.errCode ≠ 0#4 := hiff.1 herr
  obtain ⟨h1, h2⟩ | ⟨e, h1, h2⟩ := h
  · exact ⟨h1.trans herr, h2⟩
  · rw [State.record_errCode, if_neg hcode] at h2
    exact ⟨h1, h2⟩

theorem exec_atMostRecords {i : Instr} {s t : State} (h : exec i s = .next t) : AtMostRecords s t := by
  obtain ⟨-, rfl⟩ | ⟨-, -, rfl⟩ | ⟨-, -, hframe⟩ := exec_cases h
  · exact .record s .illegal
  · exact .record s .uninit
  · exact .of_eq hframe.err hframe.errCode

theorem engineStep_atMostRecords {s t : State} (h : engineStep s = .next t) : AtMostRecords s t := by
  unfold engineStep at h
  split at h <;> obtain ⟨u, hu, rfl⟩ := finish_cases h
  · cases hu
    exact .record s .illegal
  · exact (exec_atMostRecords hu).congr_right rfl rfl

theorem engineTurn_atMostRecords {s t : State} (h : engineTurn s = .next t) : AtMostRecords s t := by
  unfold engineTurn at h
  split at h
  · exact engineStep_atMostRecords h
  · cases h
    exact .of_eq rfl rfl

theorem hostRead_atMostRecords (off : BitVec 8) (s : State) : AtMostRecords s (hostRead off s) := by
  unfold hostRead
  split_ifs <;> exact .of_eq rfl rfl

/-- A write to CTRL leaves the error state unless it has SRST or ERRCLR set, and then clears it (R32). -/
theorem writeCtrl_errors (w : Word) (s : State) :
    AtMostRecords s (writeCtrl w s) ∨
    ((writeCtrl w s).err = false ∧ (writeCtrl w s).errCode = 0 ∧
      (w.getLsbD 0 = true ∨ w.getLsbD 1 = true)) := by
  cases h0 : w.getLsbD 0 with
  | true => exact .inr (by simp [writeCtrl_srst h0, State.reset])
  | false =>
    cases h1 : w.getLsbD 1 with
    | true => exact .inr (by simp [writeCtrl_errclr h0 h1])
    | false =>
      rw [writeCtrl_of_reserved h0 h1]
      exact .inl (.of_eq rfl rfl)

/-- A host write records at most OVERRUN or BUSY_ACCESS, except to CTRL with SRST or ERRCLR set, which clears
the error state (R28, R32, R60). -/
theorem hostWrite_errors (off : BitVec 8) (w : Word) (s : State) :
    AtMostRecords s (hostWrite off w s) ∨
    ((hostWrite off w s).err = false ∧ (hostWrite off w s).errCode = 0 ∧
      off = 0x0C ∧ (w.getLsbD 0 = true ∨ w.getLsbD 1 = true)) := by
  unfold hostWrite
  split_ifs with _ _ hctrl
  · exact .inl (.record s .overrun)
  · exact .inl (.of_eq rfl rfl)
  · obtain h | ⟨herr, hcode, hbits⟩ := writeCtrl_errors w s
    · exact .inl h
    · exact .inr ⟨herr, hcode, hctrl, hbits⟩
  · exact .inl (.record s .busyAccess)
  · exact .inl (.of_eq rfl rfl)
  · exact .inl (.of_eq rfl rfl)

/-- The step is a hard reset, or a CTRL write with SRST or ERRCLR (R28). -/
def ClearsErrors (s : State) : Prop :=
  (∃ rest, s.script = .hardReset :: rest) ∨
  (∃ w rest, s.script = .write 32 0x0C w :: rest ∧ (w.getLsbD 0 = true ∨ w.getLsbD 1 = true))

/-- All a step can do to the error state: record at most one more error, or clear it where the rule allows
(R28). -/
theorem step_errors {s t : State} (h : step s = .next t) :
    AtMostRecords s t ∨ (t.err = false ∧ t.errCode = 0 ∧ ClearsErrors s) := by
  cases hscript : s.script with
  | nil => exact .inl (engineTurn_atMostRecords (step_of_script_nil hscript ▸ h))
  | cons e rest =>
    rw [step_of_script_cons hscript] at h
    cases e with
    | engine => exact .inl (engineTurn_atMostRecords (s := { s with script := rest }) h)
    | read width off =>
      obtain ⟨-, rfl⟩ := perform_read_cases h
      exact .inl (hostRead_atMostRecords off _)
    | write width off w =>
      obtain ⟨hacc, rfl⟩ := perform_write_cases h
      obtain hrec | ⟨herr, hcode, rfl, hbits⟩ := hostWrite_errors off w { s with script := rest }
      · exact .inl hrec
      · obtain rfl := width_of_accepted hacc
        exact .inr ⟨herr, hcode, .inr ⟨w, rest, hscript, hbits⟩⟩
    | hardReset =>
      cases h
      exact .inr ⟨rfl, rfl, .inl ⟨rest, hscript⟩⟩

/-! ### The obligations -/

/-- Settles O38, by the source check and the frame that every legal command has. -/
theorem invalidSourceRaisesUninit : Obligations.InvalidSourceRaisesUninit := by
  intro i s hw
  obtain ⟨t, he, hframe⟩ := exec_of_wf hw s
  refine ⟨fun r hr hinvalid => ?_, fun hvalid => ?_⟩
  · rw [he, withSources_invalid hr hinvalid]
  · exact ⟨t, by rw [he, withSources_valid hvalid], hframe.err, hframe.errCode⟩

/-- Settles O39, by the frame of the commands that do not list C and of `record`. -/
theorem choiceIsWrittenOnlyByTheListedCommands :
    Obligations.ChoiceIsWrittenOnlyByTheListedCommands := by
  refine ⟨fun d a b s t ha hb h => exec_csel_elem ha hb h, fun i s t h hwhy => ?_, status_choice, rfl⟩
  obtain hc | ⟨e, rfl⟩ := hwhy
  · exact exec_keeps_choice h hc
  · exact State.record_c s e

/-- Settles O45, by the two things a step can do to the error state: record at most one more error, which a
sound error state with ERR set outlives, or clear it. -/
theorem errorCodeIsStickyUntilCleared : Obligations.ErrorCodeIsStickyUntilCleared := by
  intro s t hs h
  obtain hrec | ⟨herr, hcode, hclears⟩ := step_errors h
  · exact ⟨hrec.errorsSound hs, fun herr => .inl (hrec.sticky hs herr)⟩
  · exact ⟨errorsSound_of_cleared herr hcode, fun _ => .inr hclears⟩

/-- Settles O53, by the step of an access to CTRL and the three cases of its two bits. -/
theorem ctrlResetsAndClearsErrors : Obligations.CtrlResetsAndClearsErrors := by
  intro s w rest
  refine ⟨fun hscript => ⟨fun h0 => ?_, fun h0 h1 => ?_, fun h0 h1 => ?_⟩, step_readCtrl⟩
  · rw [step_writeCtrl hscript, writeCtrl_srst h0]
  · rw [step_writeCtrl hscript, writeCtrl_errclr h0 h1]
    rfl
  · rw [step_writeCtrl hscript, writeCtrl_of_reserved h0 h1]

end Sys2Proof.Machine

/-! PROOFS. The rules of 20_memory.md: the step of an accepted access at the head of a script, what the access
does in each part of the map, the bytes of a host word, and the three obligations settled from them. -/

namespace Sys2Proof.Machine

/-! ### Accepted accesses at the head of a script -/

theorem accepted_of_aligned {off : BitVec 8} (h : off.toNat % 4 = 0) : accepted 32 off = true := by
  simp [accepted, h]

/-- An aligned 32-bit read at the head of the script is the host read (R52). -/
theorem step_read {s : State} {off : BitVec 8} {rest : List Event} (h : s.script = .read 32 off :: rest)
    (hoff : off.toNat % 4 = 0) : step s = .next (hostRead off { s with script := rest }) := by
  rw [step_of_script_cons h, perform, if_pos (accepted_of_aligned hoff)]

/-- An aligned 32-bit write at the head of the script is the host write (R52). -/
theorem step_write {s : State} {off : BitVec 8} {w : Word} {rest : List Event}
    (h : s.script = .write 32 off w :: rest) (hoff : off.toNat % 4 = 0) :
    step s = .next (hostWrite off w { s with script := rest }) := by
  rw [step_of_script_cons h, perform, if_pos (accepted_of_aligned hoff)]

/-! ### The parts of the map -/

theorem isBufWord_iff {off : BitVec 8} : isBufWord off = true ↔ 0x40 ≤ off.toNat ∧ off.toNat < 0x80 := by
  simp [isBufWord]

/-- The reserved offsets of the map: between CTRL and BUF, and from the end of BUF (R51, R58). -/
abbrev ReservedOffset (off : BitVec 8) : Prop := (0x10 ≤ off.toNat ∧ off.toNat < 0x40) ∨ 0x80 ≤ off.toNat

theorem ReservedOffset.not_isBufWord {off : BitVec 8} (h : ReservedOffset off) : ¬isBufWord off = true := by
  rw [isBufWord_iff]
  omega

theorem ne_of_ge_sixteen {off o : BitVec 8} (h : 0x10 ≤ off.toNat) (ho : o.toNat < 0x10) : off ≠ o := by
  rintro rfl
  omega

/-- Above the four words of its start the map has only BUF and reserved space (R51, R58, R60). -/
theorem hostRead_of_ge_sixteen {off : BitVec 8} (h : 0x10 ≤ off.toNat) (s : State) :
    hostRead off s =
      if isBufWord off then
        if s.busy then { s with draws := s.draws + 1 }.reply (Config.freeWord s.draws)
        else s.reply (s.bufWord off)
      else s.reply 0 := by
  rw [hostRead, if_neg (ne_of_ge_sixteen h (by decide)), if_neg (ne_of_ge_sixteen h (by decide)),
    if_neg (ne_of_ge_sixteen h (by decide))]

/-- The same for a write (R51, R58, R60). -/
theorem hostWrite_of_ge_sixteen {off : BitVec 8} (h : 0x10 ≤ off.toNat) (w : Word) (s : State) :
    hostWrite off w s =
      if isBufWord off then
        if s.busy then s.record .busyAccess else s.bufWrite (off.toNat - 0x40) (bytesOf w)
      else s := by
  rw [hostWrite, if_neg (ne_of_ge_sixteen h (by decide)), if_neg (ne_of_ge_sixteen h (by decide))]

/-- A read of a reserved offset answers 0 (R58). -/
theorem hostRead_reserved {off : BitVec 8} (h : ReservedOffset off) (s : State) :
    hostRead off s = s.reply 0 := by
  rw [hostRead_of_ge_sixteen (by omega), if_neg h.not_isBufWord]

/-- A write of a reserved offset is ignored (R58). -/
theorem hostWrite_reserved {off : BitVec 8} (h : ReservedOffset off) (w : Word) (s : State) :
    hostWrite off w s = s := by
  rw [hostWrite_of_ge_sixteen (by omega), if_neg h.not_isBufWord]

theorem hostWrite_id (w : Word) (s : State) : hostWrite 0x00 w s = s := rfl

theorem hostWrite_status (w : Word) (s : State) : hostWrite 0x04 w s = s := rfl

/-- A write to CTRL whose two defined bits are 0 is ignored (R32, R58). -/
theorem writeCtrl_of_low_bits_zero {w : Word} (h : w.extractLsb' 0 2 = 0) (s : State) : writeCtrl w s = s := by
  have hbit (i : Nat) (hi : i < 2) : w.getLsbD i = false := by
    have := congrArg (·.getLsbD i) h
    simpa [hi] using this
  exact writeCtrl_of_reserved (hbit 0 (by omega)) (hbit 1 (by omega)) s

/-! ### The bytes of a host word -/

theorem getElem_leBytes (n k j : Nat) (h : j < (leBytes n k).length) :
    (leBytes n k)[j] = BitVec.ofNat 8 (n / 256 ^ j) := by
  induction k generalizing n j with
  | zero => simp [leBytes] at h
  | succ k ih =>
    cases j with
    | zero => simp [leBytes]
    | succ j => simp only [leBytes, List.getElem_cons_succ, ih, Nat.div_div_eq_div_mul, ← pow_succ']

@[simp] theorem length_bytesOf (w : Word) : (bytesOf w).length = 4 := length_leBytes ..

/-- Byte j of a host word is its bits [8j+7:8j] (R54). -/
theorem getElem_bytesOf (w : Word) (j : Nat) (h : j < (bytesOf w).length) :
    (bytesOf w)[j] = w.extractLsb' (8 * j) 8 := by
  simp only [bytesOf, getElem_leBytes, BitVec.extractLsb', Nat.shiftRight_eq_div_pow, pow_mul]
  norm_num

/-- The word of four bytes has the first of them in its low bits (R54). -/
theorem wordOf_four (b0 b1 b2 b3 : Byte) : wordOf [b0, b1, b2, b3] = b3 ++ b2 ++ b1 ++ b0 := by
  apply BitVec.eq_of_toNat_eq
  simp only [wordOf, leInt, BitVec.toNat_ofNat, BitVec.toNat_append]
  rw [← Nat.shiftLeft_add_eq_or_of_lt b2.isLt, ← Nat.shiftLeft_add_eq_or_of_lt b1.isLt,
    ← Nat.shiftLeft_add_eq_or_of_lt b0.isLt]
  simp only [Nat.shiftLeft_eq]
  omega

/-! ### The BUF words -/

section
variable {k : Nat} (hk : k < 16)
include hk

/-- The offset of BUF word k, as a number (R51). -/
theorem toNat_bufOffset : (BitVec.ofNat 8 (0x40 + 4 * k)).toNat = 0x40 + 4 * k := by
  rw [BitVec.toNat_ofNat]
  omega

theorem bufOffset_aligned : (BitVec.ofNat 8 (0x40 + 4 * k)).toNat % 4 = 0 := by
  rw [toNat_bufOffset hk]
  omega

theorem isBufWord_bufOffset : isBufWord (BitVec.ofNat 8 (0x40 + 4 * k)) = true := by
  rw [isBufWord_iff, toNat_bufOffset hk]
  omega

/-- BUF word k is made of BUF[4k..4k+3], the first byte in the low bits (R54). -/
theorem State.bufWord_bufOffset (s : State) : s.bufWord (BitVec.ofNat 8 (0x40 + 4 * k)) =
    s.byteAt (4 * k + 3) ++ s.byteAt (4 * k + 2) ++ s.byteAt (4 * k + 1) ++ s.byteAt (4 * k) := by
  rw [State.bufWord, toNat_bufOffset hk, Nat.add_sub_cancel_left]
  exact wordOf_four ..

/-- An idle host read of BUF word k answers with its four bytes (R54). -/
theorem hostRead_bufOffset {s : State} (hidle : s.busy = false) :
    hostRead (BitVec.ofNat 8 (0x40 + 4 * k)) s = s.reply
      (s.byteAt (4 * k + 3) ++ s.byteAt (4 * k + 2) ++ s.byteAt (4 * k + 1) ++ s.byteAt (4 * k)) := by
  rw [hostRead_of_ge_sixteen (by rw [toNat_bufOffset hk]; omega), if_pos (isBufWord_bufOffset hk),
    if_neg (by simp [hidle]), State.bufWord_bufOffset hk]

/-- An idle host write of BUF word k stores the bytes of the word from 4k on (R54). -/
theorem hostWrite_bufOffset {s : State} (hidle : s.busy = false) (w : Word) :
    hostWrite (BitVec.ofNat 8 (0x40 + 4 * k)) w s = s.bufWrite (4 * k) (bytesOf w) := by
  rw [hostWrite_of_ge_sixteen (by rw [toNat_bufOffset hk]; omega), if_pos (isBufWord_bufOffset hk),
    if_neg (by simp [hidle]), toNat_bufOffset hk, Nat.add_sub_cancel_left]

end

theorem bufWrite_bytesOf_byteAt {s : State} (h : s.buf.wf) (off : Nat) (w : Word) {j : Nat} (hj : j < 4) :
    (s.bufWrite off (bytesOf w)).byteAt (off + j) = w.extractLsb' (8 * j) 8 := by
  rw [State.bufWrite_byteAt h, dif_pos (by rw [length_bytesOf]; omega), getElem_bytesOf,
    Nat.add_sub_cancel_left]

/-! ### The window -/

theorem windowOffset_base_add (off : BitVec 8) : windowOffset (Config.base + off.toNat) = some off := by
  have hlt := off.isLt
  rw [windowOffset, if_pos (by omega), Nat.add_sub_cancel_left, BitVec.ofNat_toNat, BitVec.setWidth_eq]

theorem windowOffset_of_outside {addr : Nat} (h : addr < Config.base ∨ Config.base + 0xFF < addr) :
    windowOffset addr = none := by
  rw [windowOffset, if_neg (by omega)]

/-! ### The obligations -/

/-- Settles O51, by the idle read and write of BUF word k and the bytes of a host word. -/
theorem bufWordsAreLittleEndian : Obligations.BufWordsAreLittleEndian := by
  intro s k w rest hk hidle hwf
  refine ⟨fun hscript => ?_, fun hscript => ?_⟩
  · rw [step_read hscript (bufOffset_aligned hk), hostRead_bufOffset hk (s := { s with script := rest }) hidle]
    rfl
  · rw [step_write hscript (bufOffset_aligned hk), hostWrite_bufOffset hk (s := { s with script := rest }) hidle]
    refine ⟨_, rfl, fun j hj => bufWrite_bytesOf_byteAt hwf _ w hj, fun i hi => ?_, rfl⟩
    exact State.bufWrite_byteAt_outside _ _ _ (by rwa [length_bytesOf])

/-- Settles O52, by what a reserved offset, ID, STATUS and the reserved bits of CTRL do to an access. -/
theorem reservedSpaceReadsZeroAndIgnoresWrites : Obligations.ReservedSpaceReadsZeroAndIgnoresWrites := by
  intro s off w rest hoff reserved
  refine ⟨fun hres hscript => ?_, fun hro hscript => ?_, fun hbits hscript => ?_⟩
  · rw [step_read hscript hoff, hostRead_reserved hres]
    rfl
  · rw [step_write hscript hoff]
    obtain hres | rfl | rfl := hro
    · rw [hostWrite_reserved hres]
    · rw [hostWrite_id]
    · rw [hostWrite_status]
  · rw [step_writeCtrl hscript, writeCtrl_of_low_bits_zero hbits]

/-- Settles O56, by the offsets of the addresses inside and outside the 256 bytes from BASE. -/
theorem windowIsTheBasePage : Obligations.WindowIsTheBasePage :=
  ⟨Nat.mul_mod_right .., windowOffset_base_add, fun _ => windowOffset_of_outside⟩

end Sys2Proof.Machine

/-! PROOFS. The rules of 30_encoding.md: the mask of a row taken field by field, the decoder as the inverse of
the encoder on the legal commands, the reserved opcodes, and the obligation settled from them. -/

namespace Sys2Proof

/-! ### The fields a mask tests -/

/-- Words of format F of one opcode are equal when their fields are (R81). -/
theorem formatF_inj {o : BitVec 8} {d a b d' a' b' : Reg} {i i' : Imm} :
    formatF o d a b i = formatF o d' a' b' i' ↔ d = d' ∧ a = a' ∧ b = b' ∧ i = i' := by
  constructor
  · intro h
    simpa using congrArg fieldsOf h
  · rintro ⟨rfl, rfl, rfl, rfl⟩
    rfl

/-- A mask that keeps the whole opcode leaves of a word its opcode and no more exactly when it leaves nothing of
the four operand fields (R85). -/
theorem formatF_and_eq_iff {m : Word} (hm : opcOf m = 0xFF) (o : BitVec 8) (d a b : Reg) (i : Imm) :
    formatF o d a b i &&& m = o ++ 0#24 ↔
      BitVec.ofFin (w := 4) d &&& m.extractLsb' 20 4 = 0 ∧ BitVec.ofFin (w := 4) a &&& m.extractLsb' 16 4 = 0 ∧
      BitVec.ofFin (w := 4) b &&& m.extractLsb' 12 4 = 0 ∧ i &&& m.extractLsb' 0 12 = 0 := by
  have hand : formatF o d a b i &&& m = formatF o (BitVec.ofFin (w := 4) d &&& m.extractLsb' 20 4).toFin
      (BitVec.ofFin (w := 4) a &&& m.extractLsb' 16 4).toFin
      (BitVec.ofFin (w := 4) b &&& m.extractLsb' 12 4).toFin (i &&& m.extractLsb' 0 12) := by
    conv_lhs => rw [← formatF_fields m, hm]
    exact (formatF_and ..).trans (by rw [show o &&& 0xFF = o from BitVec.and_allOnes]; rfl)
  have hzero : o ++ 0#24 = formatF o 0 0 0 0 := by
    apply BitVec.eq_of_toNat_eq
    rw [formatF_toNat, BitVec.toNat_append, ← Nat.shiftLeft_add_eq_or_of_lt (by decide), Nat.shiftLeft_eq]
    simp
  rw [hand, hzero, formatF_inj]
  exact and_congr BitVec.toFin_inj (and_congr BitVec.toFin_inj (and_congr BitVec.toFin_inj .rfl))

/-- A field under a mask of all ones is unused: only 0 passes (R84). -/
theorem reg_and_ones_eq_zero {r : Reg} : BitVec.ofFin (w := 4) r &&& 15#4 = 0#4 ↔ r = 0 := by
  rw [show BitVec.ofFin (w := 4) r &&& 15#4 = BitVec.ofFin r from BitVec.and_allOnes]
  exact BitVec.toFin_inj.symm

/-- An immediate passes a mask without its k low bits exactly when it is below 2^k (R83). -/
theorem imm_and_high_eq_zero (k : Nat) {i : Imm} :
    i &&& BitVec.allOnes 12 <<< k = 0#12 ↔ i.toNat < 2 ^ k := by
  rw [← BitVec.shiftLeft_ushiftRight, BitVec.toNat_eq, BitVec.toNat_shiftLeft, BitVec.toNat_ushiftRight,
    Nat.shiftLeft_eq, Nat.shiftRight_eq_div_pow, Nat.mod_eq_of_lt ((Nat.div_mul_le_self ..).trans_lt i.isLt)]
  simp [Nat.div_eq_zero_iff]

/-! ### The rows of the opcode map -/

/-- Every mask tests the whole opcode (R85). -/
theorem opcOf_mask : ∀ r ∈ opcodeMap, opcOf r.mask = 0xFF := by decide

/-- A word has no bits but the opcode's under the mask of its row exactly when it is the encoding of the legal
command that the row makes of its fields (R85). -/
theorem row_mask_iff {r : Row} (hr : r ∈ opcodeMap) (d a b : Reg) (i : Imm) :
    formatF r.opc d a b i &&& r.mask = r.matchWord ↔
      (r.build ⟨d, a, b, i⟩).wf = true ∧ formatF r.opc d a b i = encode (r.build ⟨d, a, b, i⟩) := by
  have unused : i &&& 0xFFF#12 = 0#12 ↔ i = 0#12 := by rw [show i &&& 0xFFF#12 = i from BitVec.and_allOnes]
  have upTo1 : i &&& 0xFFE#12 = 0#12 ↔ i.toNat ≤ 1 := (imm_and_high_eq_zero 1).trans Nat.lt_succ_iff
  have upTo3 : i &&& 0xFFC#12 = 0#12 ↔ i.toNat ≤ 3 := (imm_and_high_eq_zero 2).trans Nat.lt_succ_iff
  have upTo7 : i &&& 0xFF8#12 = 0#12 ↔ i.toNat ≤ 7 := (imm_and_high_eq_zero 3).trans Nat.lt_succ_iff
  rw [Row.matchWord, formatF_and_eq_iff (opcOf_mask r hr)]
  revert r
  simp only [opcodeMap, arithRows, selectRows, derivedRows, boundaryRows, List.cons_append, List.nil_append,
    List.forall_mem_cons]
  simp [Instr.wf, encode, formatF_inj, reg_and_ones_eq_zero, unused, upTo1, upTo3, upTo7, and_comm,
    and_left_comm]

/-- The row of a command's opcode makes the command from the fields of its word (R85, R89). -/
theorem rowOf_encode (i : Instr) :
    (rowOf (opcOf (encode i))).map (·.build (fieldsOf (encode i))) = some i := by
  cases i <;> simp only [encode, opcOf_formatF, fieldsOf_formatF] <;> rfl

/-- An opcode's row is in the map and has that opcode (R85). -/
theorem mem_of_rowOf {o : BitVec 8} {r : Row} (h : rowOf o = some r) : r ∈ opcodeMap ∧ r.opc = o :=
  ⟨List.mem_of_find?_eq_some h, by simpa using List.find?_some h⟩

/-- The opcodes without a row are the reserved ones (R86). -/
theorem rowOf_eq_none_iff (o : BitVec 8) :
    rowOf o = none ↔
      (0x07 ≤ o.toNat ∧ o.toNat ≤ 0x0F) ∨ (0x18 ≤ o.toNat ∧ o.toNat ≤ 0x1F) ∨
      (0x25 ≤ o.toNat ∧ o.toNat ≤ 0x2F) ∨ 0x3B ≤ o.toNat := by
  simp only [rowOf, opcodeMap, arithRows, selectRows, derivedRows, boundaryRows, List.cons_append, List.nil_append,
    List.find?_eq_none, List.forall_mem_cons, beq_iff_eq, BitVec.toNat_eq, BitVec.reduceToNat,
    List.not_mem_nil, false_imp_iff, implies_true, and_true]
  omega

/-! ### The decoder -/

/-- The decoder refuses the opcode of a word exactly when it has no row (R86). -/
theorem decode_eq_reserved_iff (w : Word) : decode w = .illegal .reservedOpcode ↔ rowOf (opcOf w) = none := by
  unfold decode
  split
  case h_1 h => simp [h]
  case h_2 r h => split <;> simp [h]

/-- On an opcode with a row the decoder answers the command the row makes of the word's fields, when this command
is legal and the word is its encoding (R85, R91). -/
theorem decode_of_rowOf {w : Word} {r : Row} (h : rowOf (opcOf w) = some r) :
    decode w = if (r.build (fieldsOf w)).wf = true ∧ encode (r.build (fieldsOf w)) = w
      then .instr (r.build (fieldsOf w)) else .illegal .fieldViolation := by
  obtain ⟨hmem, hopc⟩ := mem_of_rowOf h
  have hmask := row_mask_iff hmem (fieldsOf w).rd (fieldsOf w).rs1 (fieldsOf w).rs2 (fieldsOf w).imm
  rw [hopc, formatF_fields, eq_comm (a := w)] at hmask
  simp only [decode, h, hmask]

/-- The decoder answers a command exactly when the command is legal and the word is its encoding (R85, R91). -/
theorem decode_eq_instr_iff (w : Word) (i : Instr) : decode w = .instr i ↔ i.wf = true ∧ encode i = w := by
  constructor
  · intro h
    cases hr : rowOf (opcOf w) with
    | none => cases h.symm.trans ((decode_eq_reserved_iff w).2 hr)
    | some r =>
      rw [decode_of_rowOf hr] at h
      split_ifs at h with hlegal
      cases h
      exact hlegal
  · rintro ⟨hwf, rfl⟩
    obtain ⟨r, hr, hbuild⟩ := Option.map_eq_some_iff.1 (rowOf_encode i)
    rw [decode_of_rowOf hr, hbuild, if_pos ⟨hwf, rfl⟩]

/-- The decoder refuses the fields of a word exactly when its opcode has a row and it encodes no legal command
(R86). -/
theorem decode_eq_fieldViolation_iff (w : Word) :
    decode w = .illegal .fieldViolation ↔
      rowOf (opcOf w) ≠ none ∧ ∀ i : Instr, i.wf = true → encode i ≠ w := by
  rw [ne_eq, ← decode_eq_reserved_iff]
  cases h : decode w with
  | instr i =>
    obtain ⟨hwf, henc⟩ := (decode_eq_instr_iff w i).1 h
    exact iff_of_false (by simp) fun ⟨_, hnone⟩ => hnone i hwf henc
  | illegal why =>
    cases why with
    | reservedOpcode => simp
    | fieldViolation =>
      refine iff_of_true rfl ⟨by simp, fun i hwf henc => ?_⟩
      cases h.symm.trans ((decode_eq_instr_iff w i).2 ⟨hwf, henc⟩)

end Sys2Proof

namespace Sys2Proof.Machine

/-- The engine step of an illegal word records ILLEGAL, ends, and does nothing else (R86, R243). -/
theorem engineStep_of_illegal {s : State} {why : Illegal} (h : decode s.pend = .illegal why) :
    engineStep s = .next (s.record .illegal).complete := by
  rw [engineStep, h]
  rfl

/-- Settles O3, by the opcodes without a row, the decoder as inverse of the encoder on the legal commands, and
the engine step of an illegal word. -/
theorem illegalWordsAreThoseOfTheRule : Obligations.IllegalWordsAreThoseOfTheRule := by
  intro w opc reserved
  have hreserved : rowOf (opcOf w) = none ↔ reserved := rowOf_eq_none_iff (opcOf w)
  refine ⟨(decode_eq_reserved_iff w).trans hreserved, ?_, ?_⟩
  · rw [decode_eq_fieldViolation_iff, ne_eq, hreserved]
  · rintro s why rfl h
    exact engineStep_of_illegal h

end Sys2Proof.Machine

/-! PROOFS. The rules of 40_arith.md: what the words of an opcode can be, a command that writes one register from
its sources, the residues of a difference and of a negation, and the six obligations settled from them. -/

namespace Sys2Proof.Machine

/-! ### The words of a command -/

/-- Every word of an opcode with a row decodes to a legal command the row makes, or is ILLEGAL (R85, R86). -/
theorem opcodeOnly_of_rowOf {opc : BitVec 8} {r : Row} {P : Instr → Prop} (hr : rowOf opc = some r)
    (hP : ∀ f, (r.build f).wf = true → P (r.build f)) : OpcodeOnly opc P := by
  rintro v rfl
  have hdec := decode_of_rowOf hr
  split_ifs at hdec with hlegal
  · exact .inl ⟨_, hP _ hlegal.1, hdec⟩
  · refine .inr ⟨hdec, ?_⟩
    rintro s rfl
    exact engineStep_of_illegal hdec

/-- A legal command has one word, the one the encoder gives it (R85, R91). -/
theorem isEncoding_of_encode_eq {i : Instr} {w : Word} (hwf : i.wf = true) (h : encode i = w) :
    IsEncoding i w := fun v => by
  rw [decode_eq_instr_iff, h, eq_comm (a := v)]
  exact and_iff_right hwf

/-- The word of a command with the three register fields and no immediate (R84, R89). -/
theorem isEncoding_three {i : Instr} (o : BitVec 8) {d a b : Reg} (hwf : i.wf = true)
    (h : encode i = formatF o d a b 0) :
    IsEncoding i (o.setWidth 32 <<< 24 ||| field d 20 ||| field a 16 ||| field b 12) :=
  isEncoding_of_encode_eq hwf (by rw [h, formatF_eq_or]; exact BitVec.or_zero)

/-- The word of a command with the fields RD and RS1 alone (R84, R89). -/
theorem isEncoding_two {i : Instr} (o : BitVec 8) {d a : Reg} (hwf : i.wf = true)
    (h : encode i = formatF o d a 0 0) :
    IsEncoding i (o.setWidth 32 <<< 24 ||| field d 20 ||| field a 16) := by
  have h3 := isEncoding_three o hwf h
  rwa [show field 0 12 = 0#32 from rfl, BitVec.or_zero] at h3

/-! ### Residues -/

/-- A stored value below q that represents n modulo q is the stored value of n (R11). -/
theorem eq_mont_of_val_mod {A : Elem} (hA : A.int < q) {n : Nat} (h : A.val = n % q) : A = mont n := by
  rw [eq_mont hA h, mont_mod]

/-- The residue of x - y in [0, q) (R111). -/
theorem sub_residue {x y : Nat} (hx : x < q) (hy : y < q) :
    (x + q - y) % q = x - y + if x < y then q - (y - x) else 0 := by
  split_ifs with hlt
  · rw [Nat.mod_eq_of_lt (by omega)]
    omega
  · rw [show x + q - y = x - y + q by omega, Nat.add_mod_right, Nat.mod_eq_of_lt (by omega), Nat.add_zero]

/-- The residue of -x in [0, q): 0 for 0, never q (R112). -/
theorem neg_residue {x : Nat} (hx : x < q) : (q - x) % q = if x = 0 then 0 else q - x := by
  split_ifs with hzero
  · rw [hzero, Nat.sub_zero, Nat.mod_self]
  · exact Nat.mod_eq_of_lt (by omega)

/-! ### A command that writes one register -/

/-- The command checks these source registers, and its effect is to write v to Ed as a value. -/
def Writes (i : Instr) (s : State) (srcs : List Reg) (d : Reg) (v : Elem) : Prop :=
  exec i s = withSources srcs s (s.putElem d v true)

theorem writes_add (d a b : Reg) (s : State) :
    Writes (.add d a b) s [a, b] d (addm (s.elem a) (s.elem b)) := rfl

theorem writes_sub (d a b : Reg) (s : State) :
    Writes (.sub d a b) s [a, b] d (subm (s.elem a) (s.elem b)) := rfl

theorem writes_neg (d a : Reg) (s : State) : Writes (.neg d a) s [a] d (negm (s.elem a)) := rfl

theorem writes_dbl (d a : Reg) (s : State) :
    Writes (.dbl d a) s [a] d (addm (s.elem a) (s.elem a)) := rfl

theorem writes_mul (d a b : Reg) (s : State) :
    Writes (.mul d a b) s [a, b] d (mul (s.elem a) (s.elem b)) := rfl

theorem writes_sqr (d a : Reg) (s : State) : Writes (.sqr d a) s [a] d (sqr (s.elem a)) := rfl

section
variable {i : Instr} {s : State} {d a b : Reg} {v : Elem}

/-- With valid sources the register holds the value and nothing else changes. -/
theorem Writes.completes {srcs : List Reg} (h : Writes i s srcs d v)
    (hvalid : ∀ r ∈ srcs, s.validAt r = true) :
    Completes i s fun t => t.validAt d = true ∧ t.elem d = v ∧ Frame (some d) false 0 s t :=
  ⟨_, h.trans (withSources_valid hvalid _), by simp, by simp, frame_putElem ..⟩

/-- The same where the value written is below q and represents n modulo q: the register then holds the stored
value of n (R11). -/
theorem Writes.completes_mont {srcs : List Reg} {n : Nat} (h : Writes i s srcs d v)
    (hvalid : ∀ r ∈ srcs, s.validAt r = true) (hlt : v.int < q) (hval : v.val = n % q) :
    Completes i s fun t =>
      t.validAt d = true ∧ t.elem d = mont n ∧ (t.elem d).val = n % q ∧ Frame (some d) false 0 s t := by
  obtain ⟨t, hexec, hd, rfl, hframe⟩ := h.completes hvalid
  exact ⟨t, hexec, hd, eq_mont_of_val_mod hlt hval, hval, hframe⟩

theorem Writes.raises_one (h : Writes i s [a] d v) (ha : s.validAt a = false) : Raises i s .uninit :=
  h.trans (withSources_invalid (List.mem_singleton_self a) ha _)

theorem Writes.raises_two (h : Writes i s [a, b] d v)
    (hinvalid : s.validAt a = false ∨ s.validAt b = false) : Raises i s .uninit := by
  obtain ha | hb := hinvalid
  · exact h.trans (withSources_invalid (by simp) ha _)
  · exact h.trans (withSources_invalid (by simp) hb _)

/-- A one-source command is the two-source command of its source with itself that writes the same value. -/
theorem Writes.exec_eq_of_pair {j : Instr} (hi : Writes i s [a] d v) (hj : Writes j s [a, a] d v) :
    exec i s = exec j s := by
  unfold Writes at hi hj
  rw [hi, hj]
  simp only [withSources, List.all_cons, List.all_nil, Bool.and_true, Bool.and_self]

end

/-! ### The obligations -/

/-- Settles O6, by the value of `addm` on two stored values below q. -/
theorem addIsModularAddition : Obligations.AddIsModularAddition := by
  refine ⟨opcodeOnly_of_rowOf rfl fun f _ => ⟨f.rd, f.rs1, f.rs2, rfl⟩, fun d a b =>
    ⟨isEncoding_three 0x01 rfl rfl, fun s => ⟨fun ha hb hred => ?_, (writes_add d a b s).raises_two⟩⟩⟩
  exact (writes_add d a b s).completes_mont (by simp [ha, hb]) (addm_lt (hred a ha) (hred b hb))
    (addm_val (hred a ha) (hred b hb))

/-- Settles O7, by the value of `subm` on two stored values below q and the residue of a difference. -/
theorem subIsModularSubtraction : Obligations.SubIsModularSubtraction := by
  refine ⟨opcodeOnly_of_rowOf rfl fun f _ => ⟨f.rd, f.rs1, f.rs2, rfl⟩, fun d a b =>
    ⟨isEncoding_three 0x02 rfl rfl, fun s => ⟨fun ha hb hred => ?_, (writes_sub d a b s).raises_two⟩⟩⟩
  rw [← sub_residue (val_lt (s.elem a)) (val_lt (s.elem b))]
  exact (writes_sub d a b s).completes_mont (by simp [ha, hb]) (subm_lt (hred a ha) (hred b hb))
    (subm_val (hred a ha) (hred b hb))

/-- Settles O8, by the value and the integer of `negm` on a stored value below q and the residue of a
negation. -/
theorem negIsModularNegation : Obligations.NegIsModularNegation := by
  refine ⟨opcodeOnly_of_rowOf rfl fun f _ => ⟨f.rd, f.rs1, rfl⟩, fun d a =>
    ⟨isEncoding_two 0x03 rfl rfl, fun s => ⟨fun ha hred => ?_, (writes_neg d a s).raises_one⟩⟩⟩
  obtain ⟨t, hexec, hvalid, helem, hframe⟩ := (writes_neg d a s).completes (by simp [ha])
  have hval := negm_val (hred a ha)
  refine ⟨t, hexec, hvalid, ?_, ?_, ?_, hframe⟩ <;> rw [helem]
  · exact eq_mont_of_val_mod (negm_lt (hred a ha)) hval
  · rw [hval, neg_residue (val_lt _)]
  · rw [negm_int (hred a ha), neg_residue (hred a ha)]

/-- Settles O9, by the value of `addm` on a stored value below q with itself. -/
theorem dblDoublesLikeAdd : Obligations.DblDoublesLikeAdd := by
  refine ⟨opcodeOnly_of_rowOf rfl fun f _ => ⟨f.rd, f.rs1, rfl⟩, fun d a =>
    ⟨isEncoding_two 0x04 rfl rfl, fun s => ⟨(writes_dbl d a s).exec_eq_of_pair (writes_add d a a s),
      fun ha hred => ?_, (writes_dbl d a s).raises_one⟩⟩⟩
  rw [Nat.two_mul]
  exact (writes_dbl d a s).completes_mont (by simp [ha]) (addm_lt (hred a ha) (hred a ha))
    (addm_val (hred a ha) (hred a ha))

/-- Settles O10, by the value, the integer and the bound of the Montgomery product of two stored values
below q. -/
theorem mulIsMontgomeryMultiplication : Obligations.MulIsMontgomeryMultiplication := by
  refine ⟨opcodeOnly_of_rowOf rfl fun f _ => ⟨f.rd, f.rs1, f.rs2, rfl⟩, fun d a b =>
    ⟨isEncoding_three 0x05 rfl rfl, fun s => ⟨fun ha hb hred => ?_, (writes_mul d a b s).raises_two⟩⟩⟩
  obtain ⟨t, hexec, hvalid, helem, hframe⟩ := (writes_mul d a b s).completes (by simp [ha, hb])
  have hval := mul_val_left (hred a ha) (s.elem b)
  refine ⟨t, hexec, hvalid, ?_, ?_, ?_, mul_bound_left (hred a ha) _, hframe⟩ <;> rw [helem]
  · exact eq_mont_of_val_mod (mul_lt_left (hred a ha) _) hval
  · exact hval
  · exact mul_int_left (hred a ha) _

/-- Settles O11, by the squaring product, which is the schoolbook product, and the value of the Montgomery
square of a stored value below q. -/
theorem sqrSquaresLikeMul : Obligations.SqrSquaresLikeMul := by
  refine ⟨opcodeOnly_of_rowOf rfl fun f _ => ⟨f.rd, f.rs1, rfl⟩,
    fun A => ⟨by rw [squareProduct_int, pow_two], squareProduct_eq A⟩, fun d a =>
    ⟨isEncoding_two 0x06 rfl rfl, fun s => ⟨?_, fun ha hred => ?_, (writes_sqr d a s).raises_one⟩⟩⟩
  · have hmul := writes_mul d a a s
    rw [← sqr_eq_mul] at hmul
    exact (writes_sqr d a s).exec_eq_of_pair hmul
  · rw [pow_two]
    exact (writes_sqr d a s).completes_mont (by simp [ha]) (sqr_lt (hred a ha)) (sqr_val (hred a ha))

end Sys2Proof.Machine

/-! PROOFS. The rules of 41_select.md: the words of a command with a destination and an immediate, a command that
writes the choice flag, what a register without a value raises, the high half of a negation, the issue and run of
NOP, and the eight obligations settled from them. -/

namespace Sys2Proof.Machine

/-! ### The words of a command -/

/-- The word of a command with the field RD and an immediate (R84, R89). -/
theorem isEncoding_imm {i : Instr} (o : BitVec 8) {d : Reg} {imm : Imm} (hwf : i.wf = true)
    (h : encode i = formatF o d 0 0 imm) :
    IsEncoding i (o.setWidth 32 <<< 24 ||| field d 20 ||| imm.setWidth 32) := by
  refine isEncoding_of_encode_eq hwf ?_
  rw [h, formatF_eq_or, show field 0 16 = 0#32 from rfl, show field 0 12 = 0#32 from rfl, BitVec.or_zero,
    BitVec.or_zero]

/-- The word of a command with the field RD alone (R84, R89). -/
theorem isEncoding_one {i : Instr} (o : BitVec 8) {d : Reg} (hwf : i.wf = true)
    (h : encode i = formatF o d 0 0 0) : IsEncoding i (o.setWidth 32 <<< 24 ||| field d 20) := by
  have himm := isEncoding_imm o hwf h
  rwa [show (0 : Imm).setWidth 32 = 0#32 from rfl, BitVec.or_zero] at himm

/-! ### The source check and the choice flag -/

/-- A legal command with a source register that holds no value raises UNINIT (R22). -/
theorem raises_uninit {i : Instr} {s : State} {r : Reg} (hwf : i.wf = true) (hr : r ∈ sources i)
    (h : s.validAt r = false) : Raises i s .uninit :=
  (invalidSourceRaisesUninit i s hwf).1 r hr h

/-- The command checks its source registers, and its effect is to write b to C. -/
def SetsChoice (i : Instr) (s : State) (b : Bool) : Prop :=
  exec i s = withSources (sources i) s (s.putC b)

theorem setsChoice_eq (a b : Reg) (s : State) : SetsChoice (.eq a b) s (decide (s.elem a = s.elem b)) := by
  rw [← eqBit_eq]
  rfl

theorem setsChoice_iszero (a : Reg) (s : State) : SetsChoice (.iszero a) s (decide ((s.elem a).int = 0)) := by
  rw [← zeroBit_eq]
  rfl

theorem setsChoice_ishigh (a : Reg) (s : State) :
    SetsChoice (.ishigh a) s (decide ((q - 1) / 2 < (s.elem a).val)) := by
  rw [← highBit_eq]
  rfl

theorem setsChoice_setc_zero (s : State) : SetsChoice (.setc 0) s false := rfl

theorem setsChoice_setc_one (s : State) : SetsChoice (.setc 1) s true := rfl

/-- With valid sources C holds the bit and nothing else changes. -/
theorem SetsChoice.completes {i : Instr} {s : State} {b : Bool} (h : SetsChoice i s b)
    (hvalid : ∀ r ∈ sources i, s.validAt r = true) :
    Completes i s fun t => t.c = b ∧ Frame none true 0 s t :=
  ⟨_, h.trans (withSources_valid hvalid _), s.putC_c b, frame_putC s b⟩

/-- The legal immediates of SETC (R83, R144). -/
theorem imm_eq_zero_or_one {imm : Imm} (h : imm.toNat ≤ 1) : imm = 0 ∨ imm = 1 := by
  bv_omega

/-! ### The represented values -/

/-- Two stored values below q are equal exactly when the represented values are (R140). -/
theorem val_eq_iff {A B : Elem} (hA : A.int < q) (hB : B.int < q) : A.val = B.val ↔ A = B :=
  ⟨val_injective hA hB, congrArg Elem.val⟩

/-- Exactly one of x and q - x is above (q-1)/2, for q is odd (R142). -/
theorem half_lt_sub_iff (x : Nat) : (q - 1) / 2 < q - x ↔ ¬(q - 1) / 2 < x := by
  have hodd : q % 2 = 1 := by decide
  omega

/-- Of a stored value below q that is not 0 and its negation exactly one is high (R112, R142). -/
theorem highBit_negm {A : Elem} (hA : A.int < q) (hzero : A.val ≠ 0) : highBit (negm A) = !highBit A := by
  rw [highBit_eq, highBit_eq, negm_val hA, neg_residue (val_lt A), if_neg hzero,
    ← decide_not, decide_eq_decide]
  exact half_lt_sub_iff A.val

/-! ### The register writes -/

theorem writes_mov (d a : Reg) (s : State) : Writes (.mov d a) s [a] d (s.elem a) := rfl

/-- LDC writes the stored value of the table's entry (R147). -/
theorem writes_ldc (d : Reg) {k : Imm} (h : k.toNat < constValues.length) (s : State) :
    Writes (.ldc d k) s [] d (mont constValues[k.toNat]) := by
  have hentry : loadable[k.toNat]? = some (mont constValues[k.toNat]) := by
    rw [loadable_eq, List.getElem?_map, List.getElem?_eq_getElem h, Option.map_some]
  simp only [Writes, exec, execLdc, hentry]
  rfl

/-- The constants of the table are canonical (R147). -/
theorem constValues_lt : ∀ n ∈ constValues, n < q := by decide

theorem exec_clr (d : Reg) (s : State) : exec (.clr d) s = .next (s.putElem d ZERO false) := rfl

/-! ### The issue and the run of a command -/

/-- A write of CMD to an idle unit, at the head of the script, is the issue (R31). -/
theorem step_issue {s : State} {w : Word} {rest : List Event} (hidle : s.busy = false)
    (h : s.script = .write 32 0x08 w :: rest) : step s = .next ({ s with script := rest }.issue w) := by
  rw [step_write h rfl, hostWrite, if_pos rfl, hidle, if_neg Bool.false_ne_true]

/-- The engine's turn of a busy unit, at the head of the script, runs the command of the pending word (R20,
R91). -/
theorem step_engine {s : State} {i : Instr} {rest : List Event} (hbusy : s.busy = true)
    (h : s.script = .engine :: rest) (hdec : decode s.pend = .instr i) :
    step s = finish (exec i { s with script := rest }) := by
  rw [step_of_script_cons h, perform, engineTurn, if_pos hbusy, engineStep, hdec]

/-- The zero word is NOP, and no other word is (R87). -/
theorem isEncoding_nop : IsEncoding .nop 0#32 := isEncoding_of_encode_eq rfl rfl

/-- An idle unit that was issued a command without effect keeps only PEND and LASTCMD of it (R31, R283). -/
theorem complete_issue {s : State} (hidle : s.busy = false) (w : Word) :
    (s.issue w).complete = { s with pend := w, lastCmd := w } := by
  simp only [State.complete, State.issue, hidle]

/-! ### The obligations -/

/-- Settles O12, by the equality bit of the stored values, which are below q and so equal exactly when the
represented values are. -/
theorem eqComparesRepresentedValues : Obligations.EqComparesRepresentedValues := by
  refine ⟨opcodeOnly_of_rowOf rfl fun f _ => ⟨f.rs1, f.rs2, rfl⟩, fun a b =>
    ⟨isEncoding_three (d := 0) 0x10 rfl rfl, fun s => ⟨fun ha hb hred => ?_, ?_⟩⟩⟩
  · obtain ⟨t, hexec, hc, hframe⟩ := (setsChoice_eq a b s).completes (by simp [sources, ha, hb])
    refine ⟨t, hexec, ?_, hc, hframe⟩
    rw [hc, decide_eq_decide, val_eq_iff (hred a ha) (hred b hb)]
  · rintro (ha | hb)
    · exact raises_uninit rfl (by simp [sources]) ha
    · exact raises_uninit rfl (by simp [sources]) hb

/-- Settles O13, by the zero bit of a stored value below q, which is 0 exactly when the represented value is. -/
theorem iszeroTestsForZero : Obligations.IszeroTestsForZero := by
  refine ⟨opcodeOnly_of_rowOf rfl fun f _ => ⟨f.rs1, rfl⟩, fun a =>
    ⟨isEncoding_two (d := 0) 0x11 rfl rfl, fun s => ⟨fun ha hred => ?_, raises_uninit rfl (by simp [sources])⟩⟩⟩
  simp only [← int_eq_zero_iff (hred a ha)]
  exact (setsChoice_iszero a s).completes (by simp [sources, ha])

/-- Settles O14, by the high bit as a test of the represented value and the high half of a negation. -/
theorem ishighTestsTheHighHalf : Obligations.IshighTestsTheHighHalf := by
  refine ⟨opcodeOnly_of_rowOf rfl fun f _ => ⟨f.rs1, rfl⟩, fun A => highBit_negm, fun a =>
    ⟨isEncoding_two (d := 0) 0x12 rfl rfl, fun s => ⟨fun ha => ?_, raises_uninit rfl (by simp [sources])⟩⟩⟩
  exact (setsChoice_ishigh a s).completes (by simp [sources, ha])

/-- Settles O16, by the two legal immediates and the bit SETC writes for each. -/
theorem setcSetsTheChoiceFlag : Obligations.SetcSetsTheChoiceFlag := by
  refine ⟨opcodeOnly_of_rowOf rfl fun f hwf => ?_, isEncoding_of_encode_eq rfl rfl,
    isEncoding_of_encode_eq rfl rfl, fun s => ⟨?_, ?_⟩⟩
  · have himm : f.imm.toNat ≤ 1 := of_decide_eq_true hwf
    exact (imm_eq_zero_or_one himm).imp (congrArg Instr.setc) (congrArg Instr.setc)
  · exact (setsChoice_setc_zero s).completes (by simp [sources])
  · exact (setsChoice_setc_one s).completes (by simp [sources])

/-- Settles O17, by the write of the source's value. -/
theorem movCopies : Obligations.MovCopies := by
  refine ⟨opcodeOnly_of_rowOf rfl fun f _ => ⟨f.rd, f.rs1, rfl⟩, fun d a =>
    ⟨isEncoding_two 0x15 rfl rfl, fun s => ⟨fun ha => ?_, (writes_mov d a s).raises_one⟩⟩⟩
  exact (writes_mov d a s).completes (by simp [ha])

/-- Settles O18, by the write that clears the register and its VALID bit, and the source check of every legal
command. -/
theorem clrZeroisesAndInvalidates : Obligations.ClrZeroisesAndInvalidates := by
  refine ⟨opcodeOnly_of_rowOf rfl fun f _ => ⟨f.rd, rfl⟩, fun d => ⟨isEncoding_one 0x16 rfl rfl, fun s => ?_⟩⟩
  have hinvalid : (s.putElem d ZERO false).validAt d = false := by simp
  exact ⟨_, exec_clr d s, by simp [ZERO], hinvalid, frame_putElem .., fun i hwf hd => raises_uninit hwf hd hinvalid⟩

/-- Settles O19, by the write of the stored value of the table's entry, which is canonical. -/
theorem ldcLoadsTheConstant : Obligations.LdcLoadsTheConstant := by
  refine ⟨opcodeOnly_of_rowOf rfl fun f hwf => ⟨f.rd, f.imm, of_decide_eq_true hwf, rfl⟩, fun d k h =>
    ⟨isEncoding_imm 0x17 ?_ rfl, fun s => ?_⟩⟩
  · exact decide_eq_true (Nat.le_of_lt_succ h)
  · have hcanonical : constValues[k.toNat] % q = constValues[k.toNat] :=
      Nat.mod_eq_of_lt (constValues_lt _ (List.getElem_mem h))
    have hcompletes := (writes_ldc d h s).completes_mont (by simp) (mont_lt _) (mont_val _)
    rwa [hcanonical] at hcompletes

/-- Settles O20, by the issue of the zero word and the engine step that runs NOP. -/
theorem nopChangesNothing : Obligations.NopChangesNothing := by
  refine ⟨opcodeOnly_of_rowOf rfl fun _ _ => rfl, isEncoding_nop, fun _ => rfl, fun s rest hidle hscript => ?_⟩
  refine ⟨_, step_issue hidle hscript, rfl, rfl, ?_⟩
  rw [step_engine rfl rfl ((isEncoding_nop _).2 rfl)]
  exact congrArg Host.Outcome.next (complete_issue (s := { s with script := rest }) hidle 0)

end Sys2Proof.Machine

/-! PROOFS. SHR1 of 42_derived.md (R177): the shift as the lift of half the canonical value, the product of an odd
value with the inverse of 2, and the obligation settled from them. -/

namespace Sys2Proof.Machine

/-- The limbs of SHR1 are the lift of half the canonical value, rounded down (R177). -/
theorem mul_shiftRight1_canon (A : Elem) : mul (shiftRight1 (canon A)) R2 = lift (A.val / 2) := by
  rw [lift, ← canon_int, ← shiftRight1_int, limbs4_of_int]

theorem writes_shr1 (d a : Reg) (s : State) : Writes (.shr1 d a) s [a] d (lift ((s.elem a).val / 2)) := by
  rw [← mul_shiftRight1_canon]
  rfl

/-- An odd value times the inverse of 2 is its half plus that inverse, so it is not its half (R177). -/
theorem odd_mul_twoInv {v : Nat} (hv : v < q) (hodd : v % 2 = 1) :
    v * ((q + 1) / 2) % q = v / 2 + (q + 1) / 2 := by
  have hq : (q + 1) / 2 * 2 = q + 1 := by decide
  have hproduct : v * ((q + 1) / 2) = v / 2 + (q + 1) / 2 + q * (v / 2) :=
    calc v * ((q + 1) / 2) = (v / 2 * 2 + 1) * ((q + 1) / 2) := by rw [show v / 2 * 2 + 1 = v by omega]
      _ = v / 2 * ((q + 1) / 2 * 2) + (q + 1) / 2 := by ring
      _ = v / 2 + (q + 1) / 2 + q * (v / 2) := by rw [hq]; ring
  rw [hproduct, Nat.add_mul_mod_self_left, Nat.mod_eq_of_lt (by omega)]

/-- Settles O26, by the value of the lift of half the canonical value, which is below q, and the product of an odd
value with the inverse of 2. -/
theorem shr1HalvesTheCanonicalValue : Obligations.Shr1HalvesTheCanonicalValue := by
  refine ⟨opcodeOnly_of_rowOf rfl fun f _ => ⟨f.rd, f.rs1, rfl⟩, fun d a =>
    ⟨isEncoding_two 0x24 rfl rfl, fun s => ⟨fun ha => ?_, (writes_shr1 d a s).raises_one⟩⟩⟩
  have hhalf : (s.elem a).val / 2 < q := (Nat.div_le_self _ 2).trans_lt (val_lt _)
  have hlift := lift_val (hhalf.trans (q_lt.trans (by decide)))
  obtain ⟨t, hexec, hvalid, helem, hval, hframe⟩ :=
    (writes_shr1 d a s).completes_mont (by simp [ha]) (lift_lt _) hlift
  rw [Nat.mod_eq_of_lt hhalf] at hval
  refine ⟨t, hexec, hvalid, helem, hval, fun hodd => ?_, hframe⟩
  rw [hval, odd_mul_twoInv (val_lt _) hodd]
  exact Nat.ne_of_lt (Nat.lt_add_of_pos_right (by decide))

end Sys2Proof.Machine

/-! PROOFS. The rules of 43_boundary.md that encode a register into BUF and that read an integer of any size from
it: the bounds and parts of what BUF holds, the hex characters of a string, a command that writes the first bytes of
BUF, the reduction of OKM, and the five obligations settled from them. -/

namespace Sys2Proof.Machine

/-! ### The integers read from BUF -/

theorem leInt_bufRead_lt (s : State) (off n : Nat) : leInt (s.bufRead off n) < 2 ^ (8 * n) := by
  have h := leInt_lt (s.bufRead off n)
  rwa [State.length_bufRead, show 256 = 2 ^ 8 from rfl, ← pow_mul] at h

theorem beInt_bufRead_lt (s : State) (off n : Nat) : beInt (s.bufRead off n) < 2 ^ (8 * n) := by
  have h := beInt_lt (s.bufRead off n)
  rwa [State.length_bufRead, show 256 = 2 ^ 8 from rfl, ← pow_mul] at h

theorem Memory.readBytes_add (m : Memory) (off n k : Nat) :
    m.readBytes off (n + k) = m.readBytes off n ++ m.readBytes (off + n) k := by
  induction n generalizing off with
  | zero => simp [Memory.readBytes]
  | succ n ih =>
    rw [Nat.add_right_comm, Memory.readBytes, ih, Memory.readBytes, List.cons_append, Nat.add_right_comm,
      Nat.add_assoc]

/-- A big-endian string in BUF of two parts (R212). -/
theorem beInt_bufRead_add (s : State) (off n k : Nat) :
    beInt (s.bufRead off (n + k)) = beInt (s.bufRead off n) * 256 ^ k + beInt (s.bufRead (off + n) k) := by
  rw [State.bufRead, Memory.readBytes_add, beInt_append, Memory.length_readBytes]
  rfl

/-! ### The commands that write a register from BUF -/

theorem writes_wide512 (d : Reg) (s : State) :
    Writes (.wide512 d) s [] d (wide (leInt (s.bufRead 0 64))) := rfl

theorem writes_wide384 (d : Reg) (s : State) :
    Writes (.wide384 d) s [] d (wide (leInt (s.bufRead 0 48))) := rfl

theorem writes_okm (d : Reg) (s : State) :
    Writes (.okm d) s [] d
      (addm (mul (lift (beInt (s.bufRead 0 24))) F2_192) (lift (beInt (s.bufRead 24 24)))) := rfl

theorem writes_fromu64 (d : Reg) (s : State) :
    Writes (.fromu64 d) s [] d (lift (leInt (s.bufRead 0 8))) := rfl

theorem writes_fromu32 (d : Reg) (s : State) :
    Writes (.fromu32 d) s [] d (lift (leInt (s.bufRead 0 4))) := rfl

section
variable {i : Instr} {s : State} {d : Reg} {n : Nat}

/-- A command that writes the reduction of the integer in the first bytes of BUF, of which there are 64 (R209). -/
theorem Writes.completes_wide (h : Writes i s [] d (wide (leInt (s.bufRead 0 n)))) (hn : n ≤ 64) :
    Completes i s fun t =>
      t.validAt d = true ∧ t.elem d = mont (leInt (s.bufRead 0 n)) ∧
      (t.elem d).val = leInt (s.bufRead 0 n) % q ∧ Frame (some d) false 0 s t := by
  have hbits : 8 * n ≤ 512 := by omega
  have hlt := (leInt_bufRead_lt s 0 n).trans_le (pow_le_pow_right₀ one_le_two hbits)
  exact h.completes_mont (by simp) (wide_lt _) (wide_val hlt)

/-- A command that writes the lift of an integer below q: the register represents that integer itself (R213). -/
theorem Writes.completes_lift (h : Writes i s [] d (lift n)) (hn : n < q) :
    Completes i s fun t =>
      t.validAt d = true ∧ t.elem d = mont n ∧ (t.elem d).val = n ∧ Frame (some d) false 0 s t := by
  have hcompletes := h.completes_mont (by simp) (lift_lt n) (lift_val (hn.trans (q_lt.trans (by decide))))
  rwa [Nat.mod_eq_of_lt hn] at hcompletes

end

/-! ### The reduction of OKM -/

theorem F2_192_eq_mont : F2_192 = mont (2 ^ 192) := by decide

/-- The high part times 2^192 plus the low part, modulo q (R212). -/
theorem addm_mul_F2_192_val {hi lo : Nat} (hhi : hi < 2 ^ 256) (hlo : lo < 2 ^ 256) :
    (addm (mul (lift hi) F2_192) (lift lo)).val = (hi * 2 ^ 192 + lo) % q := by
  rw [addm_val (mul_lt_left (lift_lt hi) _) (lift_lt lo), mul_val_left (lift_lt hi), lift_val hhi, lift_val hlo,
    F2_192_eq_mont, mont_val, ← Nat.mul_mod, ← Nat.add_mod]

/-! ### The hex characters of a string -/

/-- Characters 2j and 2j+1 of a hex string are those of byte j, the high nibble first (R206). -/
theorem getElem?_hexString (upper : Bool) {bs : List Byte} {j : Nat} {b : Byte} (h : bs[j]? = some b) :
    (hexString upper bs)[2 * j]? = some (hexChr (b.toNat / 16) upper) ∧
    (hexString upper bs)[2 * j + 1]? = some (hexChr (b.toNat % 16) upper) := by
  induction bs generalizing j with
  | nil => simp at h
  | cons c bs ih =>
    cases j with
    | zero =>
      obtain rfl : c = b := by simpa using h
      exact ⟨rfl, rfl⟩
    | succ j => exact ih (by simpa using h)

/-- The string order of HEXENC is bit 1 of its immediate, which is set for 2 and 3 (R208). -/
theorem orderedBytes_of_imm {f : Imm} (hf : f.toNat ≤ 3) (n : Nat) :
    orderedBytes (f.getLsbD 1) n = if f.toNat < 2 then beBytes n 32 else leBytes n 32 := by
  have hbit : f.getLsbD 1 = decide (2 ≤ f.toNat) := by
    rw [← BitVec.testBit_toNat, Nat.testBit_eq_decide_div_mod_eq, decide_eq_decide]
    omega
  rw [hbit, orderedBytes]
  by_cases h : f.toNat < 2
  · simp [h]
  · simp [h, Nat.le_of_not_lt h]

/-- The letter case of HEXENC is bit 0 of its immediate (R208). -/
theorem imm_getLsbD_zero (f : Imm) : f.getLsbD 0 = (f.toNat % 2 == 1) := by
  rw [← BitVec.testBit_toNat, Nat.testBit_zero]
  rfl

/-! ### A command that writes the first bytes of BUF -/

/-- The command checks its source register Ea, and its effect is to write these bytes from BUF[0] on. -/
def Encodes (i : Instr) (s : State) (a : Reg) (bs : List Byte) : Prop :=
  exec i s = withSources [a] s (s.bufWrite 0 bs)

theorem encodes_tole (a : Reg) (s : State) : Encodes (.tole a) s a (leBytes (s.elem a).val 32) := by
  rw [← canon_int]
  rfl

theorem encodes_tobe (a : Reg) (s : State) : Encodes (.tobe a) s a (beBytes (s.elem a).val 32) := by
  rw [← canon_int]
  rfl

theorem encodes_hexenc (a : Reg) {f : Imm} (hf : f.toNat ≤ 3) (s : State) :
    Encodes (.hexenc a f) s a (hexString (f.toNat % 2 == 1)
      (if f.toNat < 2 then beBytes (s.elem a).val 32 else leBytes (s.elem a).val 32)) := by
  rw [← orderedBytes_of_imm hf, ← imm_getLsbD_zero, ← canon_int]
  exact if_pos hf

/-- With a valid source BUF starts with the bytes and nothing else changes. -/
theorem Encodes.completes {i : Instr} {s : State} {a : Reg} {bs : List Byte} {n : Nat}
    (h : Encodes i s a bs) (ha : s.validAt a = true) (hbuf : s.buf.wf) (hlength : bs.length = n) :
    Completes i s fun t => t.bufRead 0 n = bs ∧ Frame none false n s t := by
  subst hlength
  exact ⟨_, h.trans (withSources_one ha _), State.bufRead_bufWrite hbuf 0 bs, frame_bufWrite s bs⟩

theorem State.getElem_bufRead (s : State) (off n j : Nat) (h : j < (s.bufRead off n).length) :
    (s.bufRead off n)[j] = s.byteAt (off + j) :=
  Memory.getElem_readBytes s.buf off n j h

/-- A byte of BUF as a byte of what BUF starts with (R10). -/
theorem State.byteAt_of_bufRead {s : State} {n j : Nat} {b : Byte} (h : (s.bufRead 0 n)[j]? = some b) :
    s.byteAt j = b := by
  obtain ⟨hj, rfl⟩ := List.getElem?_eq_some_iff.1 h
  rw [State.getElem_bufRead, Nat.zero_add]

/-- The word of a command with the field RS1 and an immediate (R84, R89). -/
theorem isEncoding_source_imm {i : Instr} (o : BitVec 8) {a : Reg} {imm : Imm} (hwf : i.wf = true)
    (h : encode i = formatF o 0 a 0 imm) :
    IsEncoding i (o.setWidth 32 <<< 24 ||| field a 16 ||| imm.setWidth 32) := by
  refine isEncoding_of_encode_eq hwf ?_
  rw [h, formatF_eq_or, show field 0 20 = 0#32 from rfl, show field 0 12 = 0#32 from rfl, BitVec.or_zero,
    BitVec.or_zero]

/-! ### The obligations -/

/-- Settles O28, by the bytes of the canonical value that TOLE and TOBE write from BUF[0] on. -/
theorem toleAndTobeEncodeCanonically : Obligations.ToleAndTobeEncodeCanonically := by
  refine ⟨opcodeOnly_of_rowOf rfl fun f _ => ⟨f.rs1, rfl⟩, opcodeOnly_of_rowOf rfl fun f _ => ⟨f.rs1, rfl⟩,
    fun a => ⟨isEncoding_two (d := 0) 0x32 rfl rfl, isEncoding_two (d := 0) 0x33 rfl rfl, fun s =>
      ⟨fun ha hbuf => ⟨?_, ?_⟩, fun ha => ⟨?_, ?_⟩⟩⟩⟩
  · exact (encodes_tole a s).completes ha hbuf (length_leBytes ..)
  · exact (encodes_tobe a s).completes ha hbuf (length_beBytes ..)
  · exact raises_uninit rfl (by simp [sources]) ha
  · exact raises_uninit rfl (by simp [sources]) ha

/-- Settles O30, by the hex string HEXENC writes from BUF[0] on and the two characters of each of its bytes. -/
theorem hexencEncodesAHexString : Obligations.HexencEncodesAHexString := by
  refine ⟨opcodeOnly_of_rowOf rfl fun f hwf => ⟨f.rs1, f.imm, of_decide_eq_true hwf, rfl⟩, fun a f hf => ?_⟩
  have hwf : (Instr.hexenc a f).wf = true := decide_eq_true hf
  refine ⟨isEncoding_source_imm 0x35 hwf rfl, fun s =>
    ⟨fun ha hbuf => ?_, raises_uninit hwf (by simp [sources])⟩⟩
  obtain ⟨t, hexec, hread, hframe⟩ :=
    (encodes_hexenc a hf s).completes (n := 64) ha hbuf (by split <;> simp)
  refine ⟨t, hexec, fun j b hb => ?_, hframe⟩
  obtain ⟨hhigh, hlow⟩ := getElem?_hexString (f.toNat % 2 == 1) hb
  rw [← hread] at hhigh hlow
  exact ⟨State.byteAt_of_bufRead hhigh, State.byteAt_of_bufRead hlow⟩

/-- Settles O31, by the exact reduction of an integer of 64 bytes or of 48. -/
theorem wideReductionIsExact : Obligations.WideReductionIsExact := by
  refine ⟨opcodeOnly_of_rowOf rfl fun f _ => ⟨f.rd, rfl⟩, opcodeOnly_of_rowOf rfl fun f _ => ⟨f.rd, rfl⟩,
    fun d => ⟨isEncoding_one 0x36 rfl rfl, isEncoding_one 0x37 rfl rfl, fun s => ⟨?_, ?_⟩⟩⟩
  · exact (writes_wide512 d s).completes_wide (by decide)
  · exact (writes_wide384 d s).completes_wide (by decide)

/-- Settles O32, by the value of the two 24-byte parts, the high one times 2^192, and the big-endian integer of a
string of two parts. -/
theorem okmReducesTheFortyEightBytes : Obligations.OkmReducesTheFortyEightBytes := by
  refine ⟨opcodeOnly_of_rowOf rfl fun f _ => ⟨f.rd, rfl⟩, F2_192_eq_mont, fun d =>
    ⟨isEncoding_one 0x38 rfl rfl, fun s => ?_⟩⟩
  have hpart (off : Nat) : beInt (s.bufRead off 24) < 2 ^ 256 :=
    (beInt_bufRead_lt s off 24).trans_le (pow_le_pow_right₀ one_le_two (by decide))
  have hval := addm_mul_F2_192_val (hpart 0) (hpart 24)
  rw [show 2 ^ 192 = 256 ^ 24 from rfl, ← beInt_bufRead_add s 0 24 24] at hval
  exact (writes_okm d s).completes_mont (by simp) (addm_lt (mul_lt_left (lift_lt _) _) (lift_lt _)) hval

/-- Settles O33, by the lift of an integer of 8 bytes or of 4, which is below q. -/
theorem smallIntegersAreConstructed : Obligations.SmallIntegersAreConstructed := by
  refine ⟨opcodeOnly_of_rowOf rfl fun f _ => ⟨f.rd, rfl⟩, opcodeOnly_of_rowOf rfl fun f _ => ⟨f.rd, rfl⟩,
    fun d => ⟨isEncoding_one 0x39 rfl rfl, isEncoding_one 0x3A rfl rfl, fun s => ⟨?_, ?_⟩⟩⟩
  · exact (writes_fromu64 d s).completes_lift ((leInt_bufRead_lt s 0 8).trans_le (by decide))
  · exact (writes_fromu32 d s).completes_lift ((leInt_bufRead_lt s 0 4).trans_le (by decide))

end Sys2Proof.Machine

/-! PROOFS. The rules of 60_exceptions.md: the illegal words by the mask test of their row, the engine step of a
legal command, and the obligation settled from them. -/

namespace Sys2Proof

/-- The decoder refuses a word exactly when no row of the map has its opcode and passes its mask test (R85, R86). -/
theorem decode_eq_illegal_iff (w : Word) :
    (∃ why, decode w = .illegal why) ↔ ∀ r, rowOf (opcOf w) = some r → w &&& r.mask ≠ r.matchWord := by
  unfold decode
  cases rowOf (opcOf w) with
  | none => simp
  | some r => by_cases hmask : w &&& r.mask = r.matchWord <;> simp [hmask]

end Sys2Proof

namespace Sys2Proof.Machine

/-- The engine step of a legal command runs it and clears BUSY (R91, R283). -/
theorem engineStep_of_instr {s : State} {i : Instr} (h : decode s.pend = .instr i) :
    engineStep s = finish (exec i s) := by
  rw [engineStep, h]

/-- The engine step of a legal command with a source register that holds no value records UNINIT, ends, and does
nothing else (R22, R244). -/
theorem engineStep_of_invalid_source {s : State} {i : Instr} {r : Reg} (h : decode s.pend = .instr i)
    (hr : r ∈ sources i) (hinvalid : s.validAt r = false) :
    engineStep s = .next (s.record .uninit).complete := by
  obtain ⟨hwf, -⟩ := (decode_eq_instr_iff s.pend i).1 h
  have hraises : exec i s = .next (s.record .uninit) := raises_uninit hwf hr hinvalid
  rw [engineStep_of_instr h, hraises, finish_next]

/-- Settles O43, by the reserved opcodes, the mask test of a word's row, and the engine steps of an illegal word
and of a legal command with an invalid source. -/
theorem checksAreMadeInTheGivenOrder : Obligations.ChecksAreMadeInTheGivenOrder := by
  intro s
  refine ⟨(decode_eq_reserved_iff s.pend).2, decode_eq_illegal_iff s.pend, ?_, ?_⟩
  · exact fun _ hillegal => engineStep_of_illegal hillegal
  · exact fun _ _ hlegal hr hinvalid => engineStep_of_invalid_source hlegal hr hinvalid

end Sys2Proof.Machine

/-! PROOFS. The rules of 70_reset_and_hazards.md: BUF after a reset, the step of each of the two resets, and the
obligation settled from them. -/

namespace Sys2Proof.Machine

/-- A reset leaves every byte of BUF 0x00 (R38). -/
@[simp] theorem State.resetUnit_byteAt (s : State) (i : Nat) : s.resetUnit.byteAt i = 0#8 :=
  Memory.read_nil i

/-- A hard reset at the head of the script is the step, whatever BUSY is (R270). -/
theorem step_hardReset {s : State} {rest : List Event} (h : s.script = .hardReset :: rest) :
    step s = .next { s with script := rest }.resetUnit :=
  step_of_script_cons h

/-- A write of CTRL with SRST at the head of the script resets the unit, whatever BUSY is (R271). -/
theorem step_softReset {s : State} {w : Word} {rest : List Event}
    (h : s.script = .write 32 0x0C w :: rest) (hsrst : w.getLsbD 0 = true) :
    step s = .next { s with script := rest }.resetUnit := by
  rw [step_writeCtrl h, writeCtrl_srst hsrst]

/-- Settles O54, by the one state that both resets step to, and the reset value of each of its pieces. -/
theorem resetsGiveTheResetState : Obligations.ResetsGiveTheResetState := by
  intro s rest hreset
  have hstep : step s = .next { s with script := rest }.resetUnit := by
    obtain hhard | ⟨w, hwrite, hsrst⟩ := hreset
    · exact step_hardReset hhard
    · exact step_softReset hwrite hsrst
  exact ⟨_, hstep, fun i => ⟨State.resetUnit_elem _ i, State.resetUnit_validAt _ i⟩, rfl, rfl,
    fun i _ => State.resetUnit_byteAt _ i, rfl, rfl, rfl, rfl, rfl, rfl⟩

end Sys2Proof.Machine

/-! PROOFS. The candidate root of SQRT is a stored value below q (R12, R175). -/

namespace Sys2Proof.Machine

/-! ### Loops -/

/-- What every iteration of a counted-down loop keeps, from the index above it to its own, holds at the end. -/
theorem countDown_induction {α : Type} {f : Nat → α → α} {P : Nat → α → Prop}
    (hstep : ∀ n x, P (n + 1) x → P n (f n x)) {n : Nat} {x : α} (h : P n x) : P 0 (countDown f n x) := by
  induction n generalizing x with
  | zero => exact h
  | succ n ih => exact ih (hstep n x h)

/-- What every iteration of a counted-up loop from index j keeps holds at the end. -/
theorem countUp_induction {α : Type} {f : Nat → α → α} {P : Nat → α → Prop} {j : Nat}
    (hstep : ∀ i x, j ≤ i → P i x → P (i + 1) (f i x)) (n : Nat) {x : α} (h : P j x) :
    P (j + n) (countUp f n j x) := by
  induction n generalizing j x with
  | zero => exact h
  | succ n ih =>
    have := ih (j := j + 1) (fun i y hi => hstep i y (by omega)) (hstep j x le_rfl h)
    rwa [Nat.add_assoc, Nat.add_comm 1 n] at this

theorem sel_lt {A B : Elem} (hA : A.int < q) (hB : B.int < q) (c : Bool) : (sel A B c).int < q := by
  cases c
  · rwa [sel_false]
  · rwa [sel_true]

/-! ### The loop variables stay below q -/

/-- The stored values of the inner loop are below q. -/
structure RootInner.Reduced (s : RootInner) : Prop where
  z : s.z.int < q
  tmp : s.tmp.int < q

/-- The stored values of the outer loop are below q. -/
structure RootOuter.Reduced (s : RootOuter) : Prop where
  x : s.x.int < q
  b : s.b.int < q
  z : s.z.int < q

theorem rootInnerStep_reduced (v j : Nat) {s : RootInner} (h : s.Reduced) : (rootInnerStep v j s).Reduced := by
  have hsquared (tio : Bool) := sqr_lt (sel_lt h.tmp h.z tio)
  exact ⟨sel_lt h.z (sel_lt h.z (hsquared _) _) _, sel_lt (hsquared _) h.tmp _⟩

theorem rootInner_reduced (v n j : Nat) {s : RootInner} (h : s.Reduced) : (rootInner v n j s).Reduced :=
  countUp_induction (P := fun _ => RootInner.Reduced) (fun i _ _ => rootInnerStep_reduced v i) n h

/-- The inner loop of one iteration of the outer loop (R175). -/
def innerOf (maxV : Nat) (s : RootOuter) : RootInner := rootInner s.v (maxV - 2) 2 ⟨s.z, sqr s.b, 1, true⟩

/-- One iteration of the outer loop, with what its inner loop leaves (R175). -/
theorem rootOuterStep_eq (maxV : Nat) (s : RootOuter) : rootOuterStep maxV s =
    ⟨sel (mul s.x (innerOf maxV s).z) s.x (eqBit s.b ONE), mul s.b (sqr (innerOf maxV s).z),
      sqr (innerOf maxV s).z, (innerOf maxV s).k⟩ := rfl

theorem innerOf_reduced (maxV : Nat) {s : RootOuter} (h : s.Reduced) : (innerOf maxV s).Reduced :=
  rootInner_reduced _ _ _ ⟨h.z, sqr_lt h.b⟩

theorem rootOuterStep_reduced (maxV : Nat) {s : RootOuter} (h : s.Reduced) : (rootOuterStep maxV s).Reduced := by
  rw [rootOuterStep_eq]
  exact ⟨sel_lt (mul_lt_left h.x _) h.x _, mul_lt_left h.b _, sqr_lt (innerOf_reduced maxV h).z⟩

/-- The variables at the start of the outer loop (R175). -/
def rootStart (A : Elem) : RootOuter :=
  ⟨mul (powCt A TM1D2) A, mul (mul (powCt A TM1D2) A) (powCt A TM1D2), ZROOT, twoAdicity⟩

theorem sqrtCandidate_eq (A : Elem) : sqrtCandidate A = (rootOuter twoAdicity (rootStart A)).x := rfl

theorem rootStart_reduced {A : Elem} (hA : A.int < q) : (rootStart A).Reduced :=
  ⟨mul_lt_right _ hA, mul_lt_right _ (powCt_lt hA _), ZROOT_lt⟩

/-- The candidate root is a stored value below q (R12). -/
theorem sqrtCandidate_lt {A : Elem} (hA : A.int < q) : (sqrtCandidate A).int < q := by
  have hend := countDown_induction (P := fun _ => RootOuter.Reduced) (n := twoAdicity)
    (fun n _ => rootOuterStep_reduced (n + 1)) (rootStart_reduced hA)
  exact hend.x

end Sys2Proof.Machine

/-! PROOFS. What every command does: its one effect on the state, which of the registers and of BUF the effect
reads and writes, and the whole-machine rules that follow, for the error state of 60_exceptions.md, for the users
of BUF of 20_memory.md, for the invariant of 00_scope.md, and for the runs that never stop. -/

namespace Sys2Proof.Machine

/-! ### The effect of a command -/

/-- What a command does to the state when it raises no error. -/
inductive Effect where
  /-- nothing -/
  | idle
  /-- E[d] <- v, VALID[d] <- ok -/
  | elem (d : Reg) (v : Elem) (ok : Bool)
  /-- C <- b -/
  | choice (b : Bool)
  /-- E[d] <- v, VALID[d] <- ok, C <- ok -/
  | maybe (d : Reg) (v : Elem) (ok : Bool)
  /-- these bytes to BUF from BUF[0] on -/
  | bytes (bs : List Byte)

/-- The state after an effect. -/
def Effect.apply : Effect → State → State
  | .idle, s => s
  | .elem d v ok, s => s.putElem d v ok
  | .choice b, s => s.putC b
  | .maybe d v ok, s => s.putMaybe d v ok
  | .bytes bs, s => s.bufWrite 0 bs

/-- The effect of a validating decode (R201). -/
def decodeEffect (d : Reg) (n : Nat) (readable : Bool) : Effect :=
  .maybe d (lift n) (readable && ltQ (limbs4 n))

/-- The effect of a legal command in a state, its operands read from that state. -/
def effectOf (i : Instr) (s : State) : Effect :=
  match i with
  | .nop => .idle
  | .add d a b => .elem d (addm (s.elem a) (s.elem b)) true
  | .sub d a b => .elem d (subm (s.elem a) (s.elem b)) true
  | .neg d a => .elem d (negm (s.elem a)) true
  | .dbl d a => .elem d (addm (s.elem a) (s.elem a)) true
  | .mul d a b => .elem d (mul (s.elem a) (s.elem b)) true
  | .sqr d a => .elem d (sqr (s.elem a)) true
  | .eq a b => .choice (eqBit (s.elem a) (s.elem b))
  | .iszero a => .choice (zeroBit (s.elem a))
  | .ishigh a => .choice (highBit (s.elem a))
  | .csel d a b => .elem d (sel (s.elem a) (s.elem b) s.c) true
  | .setc imm => .choice (imm.getLsbD 0)
  | .mov d a => .elem d (s.elem a) true
  | .clr d => .elem d ZERO false
  | .ldc d imm => .elem d (loadable.getD imm.toNat ZERO) true
  | .pow d a => .elem d (powCt (s.elem a) (exponent s)) true
  | .powvt d a => .elem d (powVt (s.elem a) (exponent s)) true
  | .invert d a => .maybe d (invChain (s.elem a)) (nonzeroBit (s.elem a))
  | .sqrt d a => .maybe d (sqrtCandidate (s.elem a)) (rootBit (sqrtCandidate (s.elem a)) (s.elem a))
  | .shr1 d a => .elem d (mul (shiftRight1 (canon (s.elem a))) R2) true
  | .fromle d => decodeEffect d (leInt (s.bufRead 0 32)) true
  | .frombe d => decodeEffect d (beInt (s.bufRead 0 32)) true
  | .tole a => .bytes (leBytes (canon (s.elem a)).int 32)
  | .tobe a => .bytes (beBytes (canon (s.elem a)).int 32)
  | .hexdec d imm =>
    decodeEffect d (orderedInt (imm.getLsbD 0) (hexBytes (s.bufRead 0 64)).1) (hexBytes (s.bufRead 0 64)).2
  | .hexenc a imm =>
    .bytes (hexString (imm.getLsbD 0) (orderedBytes (imm.getLsbD 1) (canon (s.elem a)).int))
  | .wide512 d => .elem d (wide (leInt (s.bufRead 0 64))) true
  | .wide384 d => .elem d (wide (leInt (s.bufRead 0 48))) true
  | .okm d =>
    .elem d (addm (mul (lift (beInt (s.bufRead 0 24))) F2_192) (lift (beInt (s.bufRead 24 24)))) true
  | .fromu64 d => .elem d (lift (leInt (s.bufRead 0 8))) true
  | .fromu32 d => .elem d (lift (leInt (s.bufRead 0 4))) true

/-- Every legal command checks its source registers and then has its effect (R22, R91). -/
theorem exec_eq_effect {i : Instr} (h : i.wf = true) (s : State) :
    exec i s = withSources (sources i) s ((effectOf i s).apply s) := by
  cases i with
  | setc imm => exact if_pos (by simpa [Instr.wf] using h)
  | ldc d imm =>
    have hk : imm.toNat < loadable.length := by simpa [Instr.wf, loadable, Nat.lt_succ_iff] using h
    simp only [exec, execLdc, effectOf, List.getD_eq_getElem?_getD, List.getElem?_eq_getElem hk]
    rfl
  | hexdec d imm => exact if_pos (by simpa [Instr.wf] using h)
  | hexenc a imm => exact if_pos (by simpa [Instr.wf] using h)
  | _ => rfl

/-- With valid sources a legal command goes on to its effect. -/
theorem exec_of_valid {i : Instr} {s : State} (h : i.wf = true) (hvalid : ∀ r ∈ sources i, s.validAt r = true) :
    exec i s = .next ((effectOf i s).apply s) := by
  rw [exec_eq_effect h, withSources_valid hvalid]

/-- A command goes on from every state (R240). -/
theorem exec_total (i : Instr) (s : State) : ∃ t, exec i s = .next t := by
  cases hwf : i.wf with
  | false => exact ⟨_, exec_of_not_wf hwf s⟩
  | true =>
    rw [exec_eq_effect hwf, withSources]
    split <;> exact ⟨_, rfl⟩

/-- All a command that goes on can do: raise an error, or have its effect when its sources hold values. -/
theorem exec_cases_effect {i : Instr} {s t : State} (h : exec i s = .next t) :
    (∃ e, t = s.record e) ∨ ((∀ r ∈ sources i, s.validAt r = true) ∧ t = (effectOf i s).apply s) := by
  obtain ⟨-, rfl⟩ | ⟨-, -, rfl⟩ | ⟨hwf, hvalid, -⟩ := exec_cases h
  · exact .inl ⟨_, rfl⟩
  · exact .inl ⟨_, rfl⟩
  · exact .inr ⟨hvalid, Host.Outcome.next.inj (h.symm.trans (exec_of_valid hwf hvalid))⟩

/-! ### The engine step and the runs that never stop -/

/-- A command leaves PEND, LASTCMD and the script as they are. -/
theorem exec_keeps_command {i : Instr} {s t : State} (h : exec i s = .next t) :
    t.pend = s.pend ∧ t.lastCmd = s.lastCmd ∧ t.script = s.script := by
  obtain ⟨-, rfl⟩ | ⟨-, -, rfl⟩ | ⟨-, -, hframe⟩ := exec_cases h
  · exact ⟨rfl, rfl, rfl⟩
  · exact ⟨rfl, rfl, rfl⟩
  · exact ⟨hframe.pend, hframe.lastCmd, hframe.script⟩

/-- An engine step ends what one command made of the state, or what the error of an illegal word did. -/
theorem engineStep_eq_complete (s : State) :
    ∃ u, engineStep s = .next u.complete ∧ (u = s.record .illegal ∨ ∃ i, exec i s = .next u) := by
  cases hdec : decode s.pend with
  | illegal why => exact ⟨_, engineStep_of_illegal hdec, .inl rfl⟩
  | instr i =>
    obtain ⟨u, hu⟩ := exec_total i s
    exact ⟨u, by rw [engineStep_of_instr hdec, hu, finish_next], .inr ⟨i, hu⟩⟩

/-- Every engine step goes on, with BUSY clear and PEND, LASTCMD and the script as before (R91, R241). -/
theorem engineStep_total (s : State) :
    ∃ t, engineStep s = .next t ∧ t.busy = false ∧ t.pend = s.pend ∧ t.lastCmd = s.lastCmd ∧
      t.script = s.script := by
  obtain ⟨u, hstep, rfl | ⟨i, hexec⟩⟩ := engineStep_eq_complete s
  · exact ⟨_, hstep, rfl, rfl, rfl, rfl⟩
  · obtain ⟨hpend, hlast, hscript⟩ := exec_keeps_command hexec
    exact ⟨_, hstep, rfl, hpend, hlast, hscript⟩

theorem engineTurn_total (s : State) : ∃ t, engineTurn s = .next t ∧ t.script = s.script := by
  unfold engineTurn
  split
  · obtain ⟨t, hstep, -, -, -, hscript⟩ := engineStep_total s
    exact ⟨t, hstep, hscript⟩
  · exact ⟨s, rfl, rfl⟩

@[simp] theorem hostRead_script (off : BitVec 8) (s : State) : (hostRead off s).script = s.script := by
  unfold hostRead
  split_ifs <;> rfl

@[simp] theorem writeCtrl_script (w : Word) (s : State) : (writeCtrl w s).script = s.script := by
  unfold writeCtrl
  split_ifs <;> rfl

@[simp] theorem hostWrite_script (off : BitVec 8) (w : Word) (s : State) :
    (hostWrite off w s).script = s.script := by
  unfold hostWrite
  split_ifs <;> simp

/-- An event that is no refused access goes on and leaves the events after it (R53, R240). -/
theorem perform_total {e : Event} {rest : List Event} (h : accessesAccepted (e :: rest) = true) (s : State) :
    ∃ t, perform e s = .next t ∧ t.script = s.script := by
  cases e with
  | engine => exact engineTurn_total s
  | read width off =>
    obtain ⟨hacc, -⟩ := Bool.and_eq_true_iff.1 h
    exact ⟨_, if_pos hacc, hostRead_script off s⟩
  | write width off w =>
    obtain ⟨hacc, -⟩ := Bool.and_eq_true_iff.1 h
    exact ⟨_, if_pos hacc, hostWrite_script off w s⟩
  | hardReset => exact ⟨_, rfl, s.resetUnit_script⟩

theorem accessesAccepted_tail {e : Event} {rest : List Event} (h : accessesAccepted (e :: rest) = true) :
    accessesAccepted rest = true := by
  cases e with
  | engine | hardReset => exact h
  | read | write => exact (Bool.and_eq_true_iff.1 h).2

/-- A machine with only accepted accesses to come steps to such a machine. -/
theorem step_total {s : State} (h : accessesAccepted s.script = true) :
    ∃ t, step s = .next t ∧ accessesAccepted t.script = true := by
  cases hscript : s.script with
  | nil =>
    obtain ⟨t, hturn, hkeep⟩ := engineTurn_total s
    exact ⟨t, by rw [step_of_script_nil hscript, hturn], by rwa [hkeep]⟩
  | cons e rest =>
    rw [hscript] at h
    obtain ⟨t, hperform, hkeep⟩ := perform_total h { s with script := rest }
    exact ⟨t, by rw [step_of_script_cons hscript, hperform], by rw [hkeep]; exact accessesAccepted_tail h⟩

/-! ### What a command takes from the state -/

/-- The effect of a command does not depend on the recorded error. -/
theorem effectOf_with_error (i : Instr) (s : State) (e : Bool) (k : BitVec 4) :
    effectOf i { s with err := e, errCode := k } = effectOf i s := by
  cases i <;> rfl

theorem Effect.apply_with_error (f : Effect) (s : State) (e : Bool) (k : BitVec 4) :
    f.apply { s with err := e, errCode := k } = { f.apply s with err := e, errCode := k } := by
  cases f <;> rfl

/-- The effect of a command that does not read BUF does not depend on it (R69). -/
theorem effectOf_with_buf {i : Instr} (h : readsBuf i = false) (s : State) (m : Memory) :
    effectOf i { s with buf := m } = effectOf i s := by
  cases i with
  | pow | powvt | fromle | frombe | hexdec | wide512 | wide384 | okm | fromu64 | fromu32 => cases h
  | _ => rfl

/-- The bytes an effect writes to BUF. -/
def Effect.written : Effect → List Byte
  | .bytes bs => bs
  | .idle | .elem _ _ _ | .choice _ | .maybe _ _ _ => []

/-- An effect changes BUF by the bytes it writes, and its other changes do not depend on BUF. -/
theorem Effect.apply_with_buf (f : Effect) (s : State) (m : Memory) :
    f.apply { s with buf := m } = { f.apply s with buf := m.writeBytes 0 f.written } := by
  cases f <;> rfl

theorem Effect.apply_buf (f : Effect) (s : State) : (f.apply s).buf = s.buf.writeBytes 0 f.written :=
  congrArg State.buf (f.apply_with_buf s s.buf)

/-- The commands outside the list write no byte of BUF (R69). -/
theorem written_of_not_writesBuf {i : Instr} (h : writesBuf i = false) (s : State) :
    (effectOf i s).written = [] := by
  cases i with
  | tole | tobe | hexenc => cases h
  | _ => rfl

/-- No command writes past the end of BUF (R204, R205, R208). -/
theorem length_written_le (i : Instr) (s : State) : (effectOf i s).written.length ≤ bufSize := by
  cases i with
  | tole | tobe | hexenc => simp [effectOf, Effect.written, bufSize]
  | _ => exact Nat.zero_le _

/-- A command that does not read BUF does the same to the rest of the state whatever BUF holds: it writes to BUF
the same bytes (R69). -/
theorem exec_with_buf {i : Instr} {s t : State} (h : exec i s = .next t) (hreads : readsBuf i = false) :
    ∃ bs, t.buf = s.buf.writeBytes 0 bs ∧ (writesBuf i = false → bs = []) ∧
      ∀ m, exec i { s with buf := m } = .next { t with buf := m.writeBytes 0 bs } := by
  cases hwf : i.wf with
  | false =>
    rw [exec_of_not_wf hwf, Host.Outcome.next.injEq] at h
    subst h
    exact ⟨[], rfl, fun _ => rfl, fun m => exec_of_not_wf hwf _⟩
  | true =>
    rw [exec_eq_effect hwf] at h
    obtain ⟨hvalid, rfl⟩ | ⟨⟨r, hr, hinvalid⟩, rfl⟩ := withSources_cases h
    · refine ⟨_, Effect.apply_buf _ s, fun hwrites => written_of_not_writesBuf hwrites s, fun m => ?_⟩
      rw [exec_of_valid (s := { s with buf := m }) hwf hvalid, effectOf_with_buf hreads, Effect.apply_with_buf]
    · exact ⟨[], rfl, fun _ => rfl, fun m => raises_uninit (s := { s with buf := m }) hwf hr hinvalid⟩

/-- A byte that a write of bytes changed in one BUF reads the same after that write to another (R69). -/
theorem read_writeBytes_of_changed {m m' : Memory} (hm : m.wf) (hm' : m'.wf) {off : Nat} {bs : List Byte} {k : Nat}
    (h : (Memory.writeBytes off bs m).read k ≠ m.read k) :
    (Memory.writeBytes off bs m').read k = (Memory.writeBytes off bs m).read k := by
  obtain ⟨hsorted, -⟩ := hm
  obtain ⟨hsorted', -⟩ := hm'
  rw [Memory.read_writeBytes hsorted] at h ⊢
  rw [Memory.read_writeBytes hsorted']
  split_ifs at h ⊢ with hinside
  · rfl
  · exact absurd rfl h

/-! ### The invariant along a step -/

/-- What an effect leaves in a register that then holds a value is below q (R12). -/
def Effect.Reduced : Effect → Prop
  | .elem _ v ok | .maybe _ v ok => ok = true → v.int < q
  | .idle | .choice _ | .bytes _ => True

theorem Effect.Reduced.regsReduced {f : Effect} {s : State} (hf : f.Reduced) (hs : s.RegsReduced) :
    (f.apply s).RegsReduced := by
  have hput (d : Reg) (v : Elem) (ok : Bool) (h : ok = true → v.int < q) : (s.putElem d v ok).RegsReduced := by
    intro i hi
    rw [State.putElem_validAt] at hi
    rw [State.putElem_elem]
    split_ifs at hi ⊢
    · exact h hi
    · exact hs i hi
  cases f with
  | idle | choice | bytes => exact hs
  | elem d v ok => exact hput d v ok hf
  | maybe d v ok => exact hput d v ok hf

theorem loadable_lt : ∀ v ∈ loadable, v.int < q := by decide

theorem getD_loadable_lt (k : Nat) : (loadable.getD k ZERO).int < q := by
  rw [List.getD_eq_getElem?_getD]
  cases h : loadable[k]? with
  | none => exact q_pos
  | some v => exact loadable_lt v (List.mem_of_getElem? h)

/-- The stored value of every result is below q, when the sources are (R12). -/
theorem effectOf_reduced {i : Instr} {s : State} (hs : s.RegsReduced)
    (hvalid : ∀ r ∈ sources i, s.validAt r = true) : (effectOf i s).Reduced := by
  have hsrc (r : Reg) (hr : r ∈ sources i) : (s.elem r).int < q := hs r (hvalid r hr)
  cases i with
  | nop | eq | iszero | ishigh | setc | tole | tobe | hexenc => trivial
  | clr => exact fun hok => absurd hok Bool.false_ne_true
  | add d a b => exact fun _ => addm_lt (hsrc a (by simp [sources])) (hsrc b (by simp [sources]))
  | sub d a b => exact fun _ => subm_lt (hsrc a (by simp [sources])) (hsrc b (by simp [sources]))
  | neg d a => exact fun _ => negm_lt (hsrc a (by simp [sources]))
  | dbl d a => exact fun _ => addm_lt (hsrc a (by simp [sources])) (hsrc a (by simp [sources]))
  | mul d a b => exact fun _ => mul_lt_left (hsrc a (by simp [sources])) _
  | sqr d a => exact fun _ => sqr_lt (hsrc a (by simp [sources]))
  | csel d a b =>
    intro _
    rw [sel_eq]
    split_ifs
    · exact hsrc b (by simp [sources])
    · exact hsrc a (by simp [sources])
  | mov d a => exact fun _ => hsrc a (by simp [sources])
  | ldc d imm => exact fun _ => getD_loadable_lt imm.toNat
  | pow d a => exact fun _ => powCt_lt (hsrc a (by simp [sources])) _
  | powvt d a =>
    intro _
    rw [powVt_eq]
    exact powCt_lt (hsrc a (by simp [sources])) _
  | invert d a => exact fun _ => invChain_lt (hsrc a (by simp [sources]))
  | sqrt d a => exact fun _ => sqrtCandidate_lt (hsrc a (by simp [sources]))
  | shr1 d a => exact fun _ => mul_lt_right _ R2_lt
  | fromle | frombe | hexdec | fromu64 | fromu32 => exact fun _ => lift_lt _
  | wide512 | wide384 => exact fun _ => wide_lt _
  | okm => exact fun _ => addm_lt (mul_lt_right _ F2_192_lt) (lift_lt _)

/-- The invariant without the error state: the registers, the pending command and the form of BUF's list. -/
abbrev State.DataInv (s : State) : Prop := s.RegsReduced ∧ s.PendingIsLast ∧ s.buf.wf

theorem exec_keeps_dataInv {i : Instr} {s t : State} (h : exec i s = .next t) (hs : s.DataInv) : t.DataInv := by
  obtain ⟨e, rfl⟩ | ⟨hvalid, rfl⟩ := exec_cases_effect h
  · exact hs
  · obtain ⟨hregs, hpend, hbuf⟩ := hs
    refine ⟨(effectOf_reduced hregs hvalid).regsReduced hregs, ?_, ?_⟩
    · cases effectOf i s <;> exact hpend
    · rw [Effect.apply_buf]
      exact Memory.wf_writeBytes hbuf _ (by simpa using length_written_le i s)

theorem engineTurn_keeps_dataInv {s t : State} (h : engineTurn s = .next t) (hs : s.DataInv) : t.DataInv := by
  have hdone {u : State} (hu : u.DataInv) : u.complete.DataInv := by
    obtain ⟨hregs, -, hbuf⟩ := hu
    exact ⟨hregs, fun hbusy => absurd hbusy Bool.false_ne_true, hbuf⟩
  unfold engineTurn at h
  split at h
  · obtain ⟨u, hstep, hu⟩ := engineStep_eq_complete s
    obtain rfl := Host.Outcome.next.inj (h.symm.trans hstep)
    obtain rfl | ⟨i, hexec⟩ := hu
    · exact hdone (u := s.record .illegal) hs
    · exact hdone (exec_keeps_dataInv hexec hs)
  · obtain rfl := Host.Outcome.next.inj h
    exact hs

theorem hostRead_keeps_dataInv (off : BitVec 8) {s : State} (hs : s.DataInv) : (hostRead off s).DataInv := by
  unfold hostRead
  split_ifs <;> exact hs

theorem resetUnit_dataInv (s : State) : s.resetUnit.DataInv :=
  ⟨fun i hi => by simp at hi, fun _ => rfl, State.reset_buf_wf⟩

theorem aligned_of_accepted {width : Nat} {off : BitVec 8} (h : accepted width off = true) : off.toNat % 4 = 0 := by
  simp only [accepted, Bool.and_eq_true, beq_iff_eq] at h
  exact h.2

/-- A write the window accepts keeps the invariant: a BUF word lies inside BUF (R51, R54). -/
theorem hostWrite_keeps_dataInv {off : BitVec 8} (hoff : off.toNat % 4 = 0) (w : Word) {s : State}
    (hs : s.DataInv) : (hostWrite off w s).DataInv := by
  obtain ⟨hregs, hpend, hbuf⟩ := hs
  unfold hostWrite writeCtrl
  split_ifs with _ _ _ _ _ hword
  · exact ⟨hregs, hpend, hbuf⟩
  · exact ⟨hregs, fun _ => rfl, hbuf⟩
  · exact resetUnit_dataInv s
  · exact ⟨hregs, hpend, hbuf⟩
  · exact ⟨hregs, hpend, hbuf⟩
  · exact ⟨hregs, hpend, hbuf⟩
  · have hinside := isBufWord_iff.1 hword
    exact ⟨hregs, hpend, State.bufWrite_wf hbuf _ (by rw [length_bytesOf, bufSize]; omega)⟩
  · exact ⟨hregs, hpend, hbuf⟩

theorem step_keeps_dataInv {s t : State} (h : step s = .next t) (hs : s.DataInv) : t.DataInv := by
  cases hscript : s.script with
  | nil => exact engineTurn_keeps_dataInv (step_of_script_nil hscript ▸ h) hs
  | cons e rest =>
    rw [step_of_script_cons hscript] at h
    cases e with
    | engine => exact engineTurn_keeps_dataInv (s := { s with script := rest }) h hs
    | read width off =>
      obtain ⟨-, rfl⟩ := perform_read_cases h
      exact hostRead_keeps_dataInv off (s := { s with script := rest }) hs
    | write width off w =>
      obtain ⟨hacc, rfl⟩ := perform_write_cases h
      exact hostWrite_keeps_dataInv (aligned_of_accepted hacc) w (s := { s with script := rest }) hs
    | hardReset =>
      obtain rfl := Host.Outcome.next.inj h
      exact resetUnit_dataInv _

/-- A run whose first step goes on is the run from the next state. -/
theorem run_succ {M : Host.Core} {s t : M.State} (h : M.step s = .next t) (n : Nat) :
    M.run (n + 1) s = M.run n t := by
  rw [Host.Core.run, h]

theorem core_run_succ {s t : State} (h : step s = .next t) (n : Nat) : core.run (n + 1) s = core.run n t :=
  run_succ (M := core) (s := s) (t := t) h n

theorem core_run_two {s t u : State} (hs : step s = .next t) (ht : step t = .next u) : core.run 2 s = .next u := by
  rw [core_run_succ hs, core_run_succ ht]
  rfl

/-! ### The obligations -/

/-- Settles O40, by the effect of a command that does not read BUF, which does not depend on it. -/
theorem bufIsTouchedOnlyByTheListedCommands : Obligations.BufIsTouchedOnlyByTheListedCommands := by
  refine ⟨fun i => ?_, fun i s t h hwrites => ?_, fun i s t m h hreads hwrites => ?_,
    fun i s t u m h hreads hu => ?_⟩
  · rintro ⟨hreads, hwrites⟩
    cases i with
    | tole | tobe | hexenc => cases hreads
    | _ => cases hwrites
  · obtain ⟨e, rfl⟩ | ⟨-, rfl⟩ := exec_cases_effect h
    · rfl
    · rw [Effect.apply_buf, written_of_not_writesBuf hwrites]
      rfl
  · obtain ⟨bs, -, hnone, hother⟩ := exec_with_buf h hreads
    rw [hother, hnone hwrites]
    rfl
  · obtain ⟨bs, hbuf, -, hother⟩ := exec_with_buf h hreads
    obtain rfl := Host.Outcome.next.inj (hu.symm.trans (hother m))
    refine ⟨rfl, fun hs hm k hk => ?_⟩
    simp only [State.byteAt, hbuf] at hk ⊢
    exact read_writeBytes_of_changed hs hm hk

/-- Settles O41, by the effect of a command with valid sources, which neither reads nor writes the error state. -/
theorem recordedErrorsDoNotBlock : Obligations.RecordedErrorsDoNotBlock := by
  intro i s t e k hwf hvalid h
  obtain rfl := Host.Outcome.next.inj (h.symm.trans (exec_of_valid hwf hvalid))
  rw [exec_of_valid (s := { s with err := e, errCode := k }) hwf hvalid, effectOf_with_error,
    Effect.apply_with_error]

/-- Settles O42, by the decoder's two answers and the totality of every command. -/
theorem everyEngineStepCompletes : Obligations.EveryEngineStepCompletes := by
  intro s
  obtain ⟨t, hstep, hbusy, hpend, hlast, -⟩ := engineStep_total s
  exact ⟨t, hstep, hbusy, hpend, hlast⟩

/-- Settles O58, by the error state, which every step keeps sound, and the rest of the invariant, which every
event keeps. -/
theorem stepKeepsTheInvariant : Obligations.StepKeepsTheInvariant := by
  rintro s t ⟨hregs, herrors, hpend, hbuf⟩ h
  obtain ⟨herrors', -⟩ := errorCodeIsStickyUntilCleared s t herrors h
  obtain ⟨hregs', hpend', hbuf'⟩ := step_keeps_dataInv h ⟨hregs, hpend, hbuf⟩
  exact ⟨hregs', herrors', hpend', hbuf'⟩

/-- Settles O59, by the registers without a value, the clear error state, the idle engine and the empty BUF. -/
theorem resetMeetsTheInvariant : Obligations.ResetMeetsTheInvariant := by
  obtain ⟨hregs, hpend, hbuf⟩ := resetUnit_dataInv State.reset
  exact ⟨hregs, errorsSound_of_cleared rfl rfl, hpend, hbuf⟩

/-- Settles O60, by induction on the number of steps: a step from such a machine goes on to such a machine. -/
theorem acceptedScriptsNeverStop : Obligations.AcceptedScriptsNeverStop := by
  intro n
  induction n with
  | zero => exact fun s _ => ⟨s, rfl⟩
  | succ n ih =>
    intro s h
    obtain ⟨t, hstep, ht⟩ := step_total h
    obtain ⟨u, hrun⟩ := ih t ht
    exact ⟨u, (core_run_succ hstep n).trans hrun⟩

end Sys2Proof.Machine

/-! PROOFS. The remaining rules of 30_encoding.md, of the engine's turn and of the window: the decoder as inverse of
the encoder, the step of the engine's turn, the fields of the status word, and what each part of the map answers. -/

namespace Sys2Proof.Machine

/-! ### The decoder -/

/-- Settles O1, by the decoder's answer on the encoding of a legal command. -/
theorem decodeOfEncodeIsTheCommand : Obligations.DecodeOfEncodeIsTheCommand :=
  fun i hwf => (decode_eq_instr_iff (encode i) i).2 ⟨hwf, rfl⟩

/-- Settles O2, by the words on which the decoder answers a command. -/
theorem decodedWordIsItsEncoding : Obligations.DecodedWordIsItsEncoding :=
  fun w i => (decode_eq_instr_iff w i).1

/-- Settles O4, by running the decoder on the ten words. -/
theorem exampleWordsDecode : Obligations.ExampleWordsDecode := by
  refine ⟨?_, ?_, ?_, ?_, ?_, ?_, ?_, ?_, ?_, ?_⟩ <;> decide

/-! ### The engine's turn -/

theorem engineTurn_of_busy {s : State} (h : s.busy = true) : engineTurn s = engineStep s := if_pos h

/-- An idle engine does nothing (R20, R257). -/
theorem engineTurn_of_idle {s : State} (h : s.busy = false) : engineTurn s = .next s := by
  rw [engineTurn, h, if_neg Bool.false_ne_true]

/-- A 32-bit number is the table's word of its own bits (R80). -/
theorem tableWord_toNat (w : Word) : tableWord 32 w.toNat = w := by
  rw [tableWord, Nat.mod_eq_of_lt w.isLt, BitVec.ofNat_toNat, BitVec.setWidth_eq]

/-- Settles O5, by the engine's turn of a busy unit, first in the script or left to it by an empty one. -/
theorem stepRunsTheDecodedCommand : Obligations.StepRunsTheDecodedCommand := by
  refine fun s i => ⟨fun rest hbusy hscript hdec => step_engine hbusy hscript hdec,
    fun hbusy hscript hdec => ?_, fun w hdec => ?_⟩
  · rw [step_of_script_nil hscript, engineTurn_of_busy hbusy, engineStep_of_instr hdec]
  · rw [State.withFetchWord, tableWord_toNat]
    exact step_engine (s := { s.issue w with script := .engine :: s.script }) rfl rfl hdec

/-- Settles O46, by the engine's turn of a busy unit and of an idle one. -/
theorem engineRunsExactlyWhenBusy : Obligations.EngineRunsExactlyWhenBusy := by
  refine fun s rest => ⟨fun hscript => ?_, fun hscript => ?_⟩
  · rw [step_of_script_cons hscript]
    exact ⟨engineTurn_of_busy (s := { s with script := rest }), engineTurn_of_idle (s := { s with script := rest })⟩
  · rw [step_of_script_nil hscript]
    exact ⟨engineTurn_of_busy, engineTurn_of_idle⟩

/-! ### Errors -/

/-- Settles O44, by the two fields that recording an error writes. -/
theorem recordKeepsTheFirstError : Obligations.RecordKeepsTheFirstError := by
  refine fun s e => ⟨rfl, fun hzero => ?_, fun hcode => ?_, rfl⟩
  · have hrecord : (s.record e).errCode = errorNumber e := if_pos hzero
    rw [hrecord]
    cases e <;> rfl
  · exact if_neg hcode

/-- A CMD write while busy is discarded and records OVERRUN (R60, R245). -/
theorem hostWrite_cmd_busy {s : State} (hbusy : s.busy = true) (w : Word) :
    hostWrite 0x08 w s = s.record .overrun := by
  rw [hostWrite, if_pos rfl, hbusy, if_pos rfl]

/-- The same at the head of the script. -/
theorem step_cmd_busy {s : State} {w : Word} {rest : List Event} (hbusy : s.busy = true)
    (h : s.script = .write 32 0x08 w :: rest) : step s = .next ({ s with script := rest }.record .overrun) := by
  rw [step_write h rfl, hostWrite_cmd_busy (s := { s with script := rest }) hbusy]

/-- The engine's turn on an illegal pending word, at the head of the script, records ILLEGAL and ends (R243). -/
theorem step_engine_illegal {s : State} {why : Illegal} {rest : List Event} (hbusy : s.busy = true)
    (h : s.script = .engine :: rest) (hdec : decode s.pend = .illegal why) :
    step s = .next ({ s with script := rest }.record .illegal).complete := by
  rw [step_of_script_cons h, perform, engineTurn_of_busy (s := { s with script := rest }) hbusy,
    engineStep_of_illegal (s := { s with script := rest }) hdec]

/-- Settles O57, by the two transitions of each order: the first error recorded keeps its code, and only an idle unit
is issued the write. -/
theorem overrunAndEngineErrorInBothOrders : Obligations.OverrunAndEngineErrorInBothOrders := by
  intro s v why hbusy hcode hdec
  refine ⟨?_, ?_⟩
  · have hwrite : step { s with script := [.write 32 0x08 v, .engine] } =
        .next ({ s with script := [.engine] }.record .overrun) :=
      step_cmd_busy hbusy rfl
    have hengine : step ({ s with script := [.engine] }.record .overrun) =
        .next (({ s with script := [] }.record .overrun).record .illegal).complete :=
      step_engine_illegal hbusy rfl hdec
    refine ⟨_, core_run_two hwrite hengine, ?_, rfl, rfl⟩
    simp [hcode, errorNumber]
  · have hengine : step { s with script := [.engine, .write 32 0x08 v] } =
        .next ({ s with script := [.write 32 0x08 v] }.record .illegal).complete :=
      step_engine_illegal hbusy rfl hdec
    have hwrite : step ({ s with script := [.write 32 0x08 v] }.record .illegal).complete =
        .next (({ s with script := [] }.record .illegal).complete.issue v) :=
      step_issue rfl rfl
    refine ⟨_, core_run_two hengine hwrite, ?_, rfl, rfl⟩
    simp [hcode, errorNumber]

/-! ### The status word -/

/-- The bits of ERRCODE are bits 4 to 7 (R30). -/
theorem status_errCode (s : State) {j : Nat} (hj : j < 4) : s.status.getLsbD (4 + j) = s.errCode.getLsbD j := by
  simp only [State.status, BitVec.getLsbD_append]
  rw [if_neg (by omega), if_neg (by omega), if_neg (by omega), if_neg (by omega), if_pos (by omega),
    show 4 + j - 1 - 1 - 1 - 1 = j by omega]

/-- Bits 8 to 15 are reserved (R30). -/
theorem status_reserved (s : State) {j : Nat} (hj : j < 8) : s.status.getLsbD (8 + j) = false := by
  simp only [State.status, BitVec.getLsbD_append]
  rw [if_neg (by omega), if_neg (by omega), if_neg (by omega), if_neg (by omega), if_neg (by omega),
    if_pos (by omega), BitVec.getLsbD_zero]

/-- The bits of VALID are bits 16 to 31 (R30). -/
theorem status_valid (s : State) (j : Nat) : s.status.getLsbD (16 + j) = s.valid.getLsbD j := by
  simp only [State.status, BitVec.getLsbD_append]
  rw [if_neg (by omega), if_neg (by omega), if_neg (by omega), if_neg (by omega), if_neg (by omega),
    if_neg (by omega), show 16 + j - 1 - 1 - 1 - 1 - 4 - 8 = j by omega]

/-- Bits 0, 2 and 3 are BUSY, ERR and reserved (R30). -/
theorem status_low_bits (s : State) :
    s.status.getLsbD 0 = s.busy ∧ s.status.getLsbD 2 = s.err ∧ s.status.getLsbD 3 = false := by
  simp only [State.status, BitVec.getLsbD_append]
  simp

/-- Settles O47, by the bits of each field of the word. -/
theorem statusFieldsAreWhereTheRuleSays : Obligations.StatusFieldsAreWhereTheRuleSays := by
  intro s
  obtain ⟨hbusy, herr, hreserved⟩ := status_low_bits s
  refine ⟨hbusy, status_choice s, herr, hreserved, BitVec.eq_of_getLsbD_eq fun j hj => ?_,
    BitVec.eq_of_getLsbD_eq fun j hj => ?_, fun i => status_valid s i.val, rfl⟩
  · rw [BitVec.getLsbD_extractLsb', decide_eq_true hj, Bool.true_and, status_errCode s hj]
  · rw [BitVec.getLsbD_extractLsb', decide_eq_true hj, Bool.true_and, status_reserved s hj]
    exact BitVec.getLsbD_zero.symm

/-! ### The window -/

/-- Settles O49, by the write of CMD that an idle unit takes as an issue. -/
theorem cmdWriteIssuesWhenIdle : Obligations.CmdWriteIssuesWhenIdle :=
  fun _ _ _ hscript hidle => step_issue hidle hscript

/-- Settles O50, by what a busy unit does with an access to CMD and to a BUF word. -/
theorem busyAccessesAreDiscardedAndRecorded : Obligations.BusyAccessesAreDiscardedAndRecorded := by
  intro s off w rest hbusy hoff
  refine ⟨fun hscript => ?_, fun hlow hhigh hscript => ?_, fun hlow hhigh hscript => ?_⟩
  · exact step_cmd_busy hbusy hscript
  · rw [step_write hscript hoff, hostWrite_of_ge_sixteen (by omega), if_pos (isBufWord_iff.2 ⟨hlow, hhigh⟩),
      if_pos hbusy]
  · rw [step_read hscript hoff, hostRead_of_ge_sixteen (by omega), if_pos (isBufWord_iff.2 ⟨hlow, hhigh⟩),
      if_pos hbusy]
    rfl

theorem accepted_of_refused {width : Nat} {off : BitVec 8} (h : width ≠ 32 ∨ off.toNat % 4 ≠ 0) :
    accepted width off = false := by
  rw [accepted, Bool.and_eq_false_iff, beq_eq_false_iff_ne, beq_eq_false_iff_ne]
  exact h

/-- Settles O55, by the two accesses that the window does not accept. -/
theorem refusedAccessHasNoStep : Obligations.RefusedAccessHasNoStep := by
  intro s width off w rest hrefused hscript
  have hacc := accepted_of_refused hrefused
  obtain hread | hwrite := hscript
  · rw [step_of_script_cons hread, perform, hacc, if_neg Bool.false_ne_true]
  · rw [step_of_script_cons hwrite, perform, hacc, if_neg Bool.false_ne_true]

/-- The word of a BUF offset as the number of its four bytes (R54). -/
theorem toNat_bufWord (s : State) {off : BitVec 8} (hoff : 0x40 ≤ off.toNat) :
    (s.bufWord off).toNat = (s.byteAt (off.toNat - 0x40)).toNat + 2 ^ 8 * (s.byteAt (off.toNat - 0x3F)).toNat
      + 2 ^ 16 * (s.byteAt (off.toNat - 0x3E)).toNat + 2 ^ 24 * (s.byteAt (off.toNat - 0x3D)).toNat := by
  have hindex (j : Nat) (hj : j ≤ 0x3F) : off.toNat - 0x40 + j = off.toNat - (0x40 - j) := by omega
  have hbytes : s.bufRead (off.toNat - 0x40) 4 = [s.byteAt (off.toNat - 0x40), s.byteAt (off.toNat - 0x3F),
      s.byteAt (off.toNat - 0x3E), s.byteAt (off.toNat - 0x3D)] := by
    rw [← hindex 1 (by decide), ← hindex 2 (by decide), ← hindex 3 (by decide)]
    rfl
  have hlt := leInt_lt (s.bufRead (off.toNat - 0x40) 4)
  rw [State.length_bufRead, hbytes] at hlt
  rw [State.bufWord, wordOf, hbytes, BitVec.toNat_ofNat, Nat.mod_eq_of_lt (hlt.trans_eq (by norm_num))]
  simp only [leInt]
  ring

/-- A read answers one word and changes nothing but the replies and, for BUF while busy, the count of draws (R56,
R60). -/
theorem hostRead_eq (off : BitVec 8) (s : State) :
    ∃ w n, hostRead off s = { s with replies := w :: s.replies, draws := n } ∧
      (s.busy = false ∨ ¬isBufWord off = true → n = s.draws) := by
  unfold hostRead
  split_ifs with hid hstatus hcmd hword hbusy
  · exact ⟨_, _, rfl, fun _ => rfl⟩
  · exact ⟨_, _, rfl, fun _ => rfl⟩
  · exact ⟨_, _, rfl, fun _ => rfl⟩
  · exact ⟨_, _, rfl, by simp [hword, hbusy]⟩
  · exact ⟨_, _, rfl, fun _ => rfl⟩
  · exact ⟨_, _, rfl, fun _ => rfl⟩

/-- Settles O48, by the one reply of a read and the map's word for each part of it. -/
theorem readsAnswerTheMapAndChangeNothing : Obligations.ReadsAnswerTheMapAndChangeNothing := by
  intro s off rest hoff hscript
  have hstep := step_read hscript hoff
  obtain ⟨w, n, hread, hdraws⟩ := hostRead_eq off { s with script := rest }
  have hreply (v : Word) (h : hostRead off { s with script := rest } = { s with script := rest }.reply v) : w = v := by
    have := congrArg State.replies (hread.symm.trans h)
    exact List.head_eq_of_cons_eq this
  refine ⟨w, n, by rw [hstep, hread], fun h => hdraws ?_, ?_, ?_, ?_, fun hrange => hreply _ ?_,
    fun hrange => hreply _ ?_, fun ⟨hlow, hhigh, hidle⟩ => ?_⟩
  · rw [isBufWord_iff]
    exact h.imp_right (by omega)
  · rintro rfl
    exact hreply _ rfl
  · rintro rfl
    exact hreply _ rfl
  · rintro rfl
    exact hreply _ rfl
  · by_cases hctrl : off = 0x0C
    · rw [hctrl]
      rfl
    · have : off.toNat ≠ 0x0C := fun h => hctrl (BitVec.eq_of_toNat_eq h)
      exact hostRead_reserved (.inl (by omega)) _
  · exact hostRead_reserved (.inr hrange) _
  · have hword : w = s.bufWord off := by
      refine hreply _ ?_
      rw [hostRead_of_ge_sixteen (by omega), if_pos (isBufWord_iff.2 ⟨hlow, hhigh⟩), if_neg (by simp [hidle])]
      rfl
    rw [hword, toNat_bufWord s hlow]

end Sys2Proof.Machine

/-! PROOFS. The field of 40_arith.md: a stored value below q as an element of ZMod q, where the datapath's operations
are the ring's, the field axioms, and the constants of the datapath. -/

namespace Sys2Proof.Machine

/-! ### The element of ZMod q that a stored value represents -/

/-- The represented value in ZMod q (R11). -/
def residue (A : Elem) : ZMod q := (A.val : ZMod q)

theorem residue_eq_iff {A B : Elem} (hA : A.int < q) (hB : B.int < q) : residue A = residue B ↔ A = B := by
  rw [residue, residue, ZMod.natCast_eq_natCast_iff', Nat.mod_eq_of_lt (val_lt A), Nat.mod_eq_of_lt (val_lt B),
    val_eq_iff hA hB]

theorem residue_addm {A B : Elem} (hA : A.int < q) (hB : B.int < q) :
    residue (addm A B) = residue A + residue B := by
  rw [residue, addm_val hA hB, ZMod.natCast_mod, Nat.cast_add]
  rfl

theorem residue_mul {A : Elem} (hA : A.int < q) (B : Elem) : residue (mul A B) = residue A * residue B := by
  rw [residue, mul_val_left hA, ZMod.natCast_mod, Nat.cast_mul]
  rfl

theorem residue_sqr {A : Elem} (hA : A.int < q) : residue (sqr A) = residue A ^ 2 := by
  rw [sqr_eq_mul, residue_mul hA, pow_two]

theorem residue_negm {A : Elem} (hA : A.int < q) : residue (negm A) = -residue A := by
  rw [residue, negm_val hA, ZMod.natCast_mod, Nat.cast_sub (val_lt A).le, CharP.cast_eq_zero, zero_sub]
  rfl

theorem residue_ONE : residue ONE = 1 := by rw [residue, ONE_val, Nat.cast_one]

theorem residue_ZERO : residue ZERO = 0 := by rw [residue, ZERO_val, Nat.cast_zero]

theorem ZERO_lt : ZERO.int < q := by decide

theorem residue_mont (n : Nat) : residue (mont n) = n := by rw [residue, mont_val, ZMod.natCast_mod]

theorem residue_powCt {A : Elem} (hA : A.int < q) {e : Nat} (he : e < 2 ^ 256) :
    residue (powCt A e) = residue A ^ e := by
  rw [residue, powCt_val hA he, ZMod.natCast_mod, Nat.cast_pow]
  rfl

/-! ### The obligations -/

/-- Settles O35, by the values of the three operations on stored values, which are below q. -/
theorem datapathAgreesWithTheValueLevel : Obligations.DatapathAgreesWithTheValueLevel := by
  intro a b ha hb
  have hvala : (mont a).val = a := by rw [mont_val, Nat.mod_eq_of_lt ha]
  have hvalb : (mont b).val = b := by rw [mont_val, Nat.mod_eq_of_lt hb]
  refine ⟨eq_mont (addm_lt (mont_lt a) (mont_lt b)) ?_, eq_mont (subm_lt (mont_lt a) (mont_lt b)) ?_,
    eq_mont (mul_lt_left (mont_lt a) (mont b)) ?_⟩
  · rw [addm_val (mont_lt a) (mont_lt b), hvala, hvalb]
  · rw [subm_val (mont_lt a) (mont_lt b), hvala, hvalb]
  · rw [mul_val_left (mont_lt a), hvala, hvalb]

/-- Settles O36, by the ring axioms of ZMod q, whose elements determine the stored values below q. -/
theorem fieldAxiomsHoldOfStoredValues : Obligations.FieldAxiomsHoldOfStoredValues := by
  intro A B C hA hB hC
  have hadd {X Y : Elem} (hX : X.int < q) (hY : Y.int < q) := addm_lt hX hY
  have hmul {X : Elem} (hX : X.int < q) (Y : Elem) := mul_lt_left hX Y
  refine ⟨?_, ?_, ?_, ?_, ?_, ?_, ?_, ?_⟩
  · rw [← residue_eq_iff (hadd hA hB) (hadd hB hA), residue_addm hA hB, residue_addm hB hA, add_comm]
  · rw [← residue_eq_iff (hadd (hadd hA hB) hC) (hadd hA (hadd hB hC)), residue_addm (hadd hA hB) hC,
      residue_addm hA hB, residue_addm hA (hadd hB hC), residue_addm hB hC, add_assoc]
  · rw [← residue_eq_iff (hadd hA ZERO_lt) hA, residue_addm hA ZERO_lt, residue_ZERO, add_zero]
  · rw [← residue_eq_iff (hadd hA (negm_lt hA)) ZERO_lt, residue_addm hA (negm_lt hA), residue_negm hA,
      residue_ZERO, add_neg_cancel]
  · rw [← residue_eq_iff (hmul hA B) (hmul hB A), residue_mul hA, residue_mul hB, mul_comm]
  · rw [← residue_eq_iff (hmul (hmul hA B) C) (hmul hA _), residue_mul (hmul hA B), residue_mul hA, residue_mul hA,
      residue_mul hB, mul_assoc]
  · rw [← residue_eq_iff (hmul hA ONE) hA, residue_mul hA, residue_ONE, mul_one]
  · rw [← residue_eq_iff (hmul hA _) (hadd (hmul hA B) (hmul hA C)), residue_mul hA, residue_addm hB hC,
      residue_addm (hmul hA B) (hmul hA C), residue_mul hA, residue_mul hA, mul_add]

/-- Settles O37, by evaluating the constants. -/
theorem datapathConstantsMeetTheirDefinitions : Obligations.DatapathConstantsMeetTheirDefinitions := by
  refine ⟨Q_int, ?_, ?_, ?_, ?_, ?_, ?_⟩ <;> decide +kernel

end Sys2Proof.Machine

/-! PROOFS. CSEL of 41_select.md, POW, POWVT and INVERT of 42_derived.md, and the validating decodes of
43_boundary.md: a command with a maybe result, the power and the inverse in ZMod q, the bytes of a hex string read
from BUF, and the round trips through BUF. -/

namespace Sys2Proof.Machine

/-! ### CSEL -/

theorem writes_csel (d a b : Reg) (s : State) :
    Writes (.csel d a b) s [a, b] d (if s.c then s.elem b else s.elem a) := by
  rw [← sel_eq]
  rfl

/-- Settles O15, by the write of the source that the choice flag selects. -/
theorem cselSelectsByTheChoiceFlag : Obligations.CselSelectsByTheChoiceFlag := by
  refine ⟨opcodeOnly_of_rowOf rfl fun f _ => ⟨f.rd, f.rs1, f.rs2, rfl⟩, fun d a b =>
    ⟨isEncoding_three 0x13 rfl rfl, fun s => ⟨fun ha hb => ?_, (writes_csel d a b s).raises_two⟩⟩⟩
  obtain ⟨t, hexec, hvalid, helem, hframe⟩ := (writes_csel d a b s).completes (by simp [ha, hb])
  exact ⟨t, hexec, hvalid, fun hc => by rw [helem, hc, if_neg Bool.false_ne_true],
    fun hc => by rw [helem, hc, if_pos rfl], hframe⟩

/-! ### POW and POWVT -/

theorem writes_pow (d a : Reg) (s : State) :
    Writes (.pow d a) s [a] d (powCt (s.elem a) (leInt (s.bufRead 0 32))) := rfl

theorem writes_powvt (d a : Reg) (s : State) :
    Writes (.powvt d a) s [a] d (powCt (s.elem a) (leInt (s.bufRead 0 32))) := by
  rw [← powVt_eq]
  rfl

/-- Settles O21, by the one power both loops compute, for an exponent of 32 bytes. -/
theorem powAndPowvtRaiseToTheExponent : Obligations.PowAndPowvtRaiseToTheExponent := by
  refine ⟨opcodeOnly_of_rowOf rfl fun f _ => ⟨f.rd, f.rs1, rfl⟩, opcodeOnly_of_rowOf rfl fun f _ => ⟨f.rd, f.rs1, rfl⟩,
    fun d a => ⟨isEncoding_two 0x20 rfl rfl, isEncoding_two 0x21 rfl rfl, fun s =>
      ⟨(writes_powvt d a s).trans (writes_pow d a s).symm, fun ha hred => ?_,
        fun ha => ⟨(writes_pow d a s).raises_one ha, (writes_powvt d a s).raises_one ha⟩⟩⟩⟩
  have hlt := powCt_lt (hred a ha) (leInt (s.bufRead 0 32))
  have hval := powCt_val (hred a ha) (leInt_bufRead_lt s 0 32)
  exact ⟨(writes_pow d a s).completes_mont (by simp [ha]) hlt hval,
    (writes_powvt d a s).completes_mont (by simp [ha]) hlt hval⟩

/-! ### Commands with a maybe result -/

/-- The command checks these source registers, and its effect is to write v to Ed, with VALID and C the bit ok. -/
def WritesMaybe (i : Instr) (s : State) (srcs : List Reg) (d : Reg) (v : Elem) (ok : Bool) : Prop :=
  exec i s = withSources srcs s (s.putMaybe d v ok)

section
variable {i : Instr} {s : State} {d : Reg} {v : Elem} {ok : Bool}

/-- With valid sources the register holds v, C and VALID are the bit, and nothing else changes. -/
theorem WritesMaybe.completes {srcs : List Reg} (h : WritesMaybe i s srcs d v ok)
    (hvalid : ∀ r ∈ srcs, s.validAt r = true) :
    Completes i s fun t => t.elem d = v ∧ t.c = ok ∧ t.validAt d = ok ∧ Frame (some d) true 0 s t :=
  ⟨_, h.trans (withSources_valid hvalid _), by simp, rfl, by simp, frame_putMaybe ..⟩

/-- A command that decodes the integer n: present when it is readable and below q, and then it represents n
(R201). -/
theorem WritesMaybe.completes_decode {n : Nat} {readable : Bool}
    (h : WritesMaybe i s [] d (lift n) (readable && ltQ (limbs4 n))) (hn : n < 2 ^ 256) :
    Completes i s fun t =>
      t.elem d = mont n ∧ t.c = (readable && decide (n < q)) ∧ t.validAt d = (readable && decide (n < q)) ∧
      (n < q → (t.elem d).val = n) ∧ Frame (some d) true 0 s t := by
  obtain ⟨t, hexec, helem, hc, hvalid, hframe⟩ := h.completes (by simp)
  rw [lift_eq_mont hn] at helem
  rw [ltQ_eq, limbs4_int_of_lt hn] at hc hvalid
  exact ⟨t, hexec, helem, hc, hvalid, fun hlt => by rw [helem, mont_val, Nat.mod_eq_of_lt hlt], hframe⟩

end

/-! ### INVERT -/

theorem writesMaybe_invert (d a : Reg) (s : State) :
    WritesMaybe (.invert d a) s [a] d (invChain (s.elem a)) (nonzeroBit (s.elem a)) := rfl

theorem nonzeroBit_eq {A : Elem} (hA : A.int < q) : nonzeroBit A = decide (A.val ≠ 0) := by
  rw [nonzeroBit, zeroBit_eq, ← decide_not]
  exact decide_eq_decide.2 (int_eq_zero_iff hA).not

/-- Fermat: the power p-2 of a nonzero residue is its inverse (R173). The modulus and the exponent are variables, for
no check of the proof may evaluate a power with an exponent of the size of q. -/
theorem mul_pow_mod_eq_one {p v e : Nat} (hp : p.Prime) (hlt : v < p) (hv : v ≠ 0) (he : e + 1 = p - 1) :
    v * (v ^ e % p) % p = 1 := by
  have : Fact p.Prime := ⟨hp⟩
  have hne : (v : ZMod p) ≠ 0 := by
    rw [Ne, ZMod.natCast_eq_zero_iff]
    exact fun hdvd => hv (Nat.eq_zero_of_dvd_of_lt hdvd hlt)
  have hfermat : ((v * v ^ e : Nat) : ZMod p) = (1 : Nat) := by
    rw [← pow_succ', Nat.cast_pow, he, ZMod.pow_card_sub_one_eq_one hne, Nat.cast_one]
  rw [ZMod.natCast_eq_natCast_iff'] at hfermat
  rw [Nat.mul_mod_mod, hfermat]
  exact Nat.mod_eq_of_lt hp.one_lt

theorem zero_pow_mod {e : Nat} (he : e ≠ 0) (m : Nat) : 0 ^ e % m = 0 := by
  rw [zero_pow he, Nat.zero_mod]

/-- Settles O22, by the presence bit and the power q-2, which Fermat makes the inverse of a nonzero value. -/
theorem invertGivesTheInverseOrNothing : Obligations.InvertGivesTheInverseOrNothing := by
  refine ⟨opcodeOnly_of_rowOf rfl fun f _ => ⟨f.rd, f.rs1, rfl⟩, fun d a =>
    ⟨isEncoding_two 0x22 rfl rfl, fun s => ⟨fun ha hred => ?_, raises_uninit rfl (by simp [sources])⟩⟩⟩
  obtain ⟨t, hexec, helem, hc, hvalid, hframe⟩ := (writesMaybe_invert d a s).completes (by simp [ha])
  have hlt := invChain_lt (hred a ha)
  have hval := invChain_val (hred a ha)
  rw [← helem] at hlt hval
  rw [nonzeroBit_eq (hred a ha)] at hc hvalid
  refine ⟨t, hexec, eq_mont_of_val_mod hlt hval, fun hne => ⟨?_, ?_, ?_⟩, fun hzero => ⟨?_, ?_, ?_⟩, hframe⟩
  · rw [hc, decide_eq_true hne]
  · rw [hvalid, decide_eq_true hne]
  · rw [hval, mul_pow_mod_eq_one Laws.q_prime (val_lt _) hne (by decide)]
  · rw [hc, decide_eq_false (not_not_intro hzero)]
  · rw [hvalid, decide_eq_false (not_not_intro hzero)]
  · rw [int_eq_zero_iff hlt, hval, hzero, zero_pow_mod (by decide)]

/-! ### FROMLE and FROMBE -/

theorem writesMaybe_fromle (d : Reg) (s : State) : WritesMaybe (.fromle d) s [] d
    (lift (leInt (s.bufRead 0 32))) (true && ltQ (limbs4 (leInt (s.bufRead 0 32)))) := rfl

theorem writesMaybe_frombe (d : Reg) (s : State) : WritesMaybe (.frombe d) s [] d
    (lift (beInt (s.bufRead 0 32))) (true && ltQ (limbs4 (beInt (s.bufRead 0 32)))) := rfl

/-- Settles O27, by the validating decode of the little- or the big-endian integer of 32 bytes. -/
theorem fromleAndFrombeDecodeCanonically : Obligations.FromleAndFrombeDecodeCanonically := by
  refine ⟨opcodeOnly_of_rowOf rfl fun f _ => ⟨f.rd, rfl⟩, opcodeOnly_of_rowOf rfl fun f _ => ⟨f.rd, rfl⟩,
    fun d => ⟨isEncoding_one 0x30 rfl rfl, isEncoding_one 0x31 rfl rfl, fun s => ⟨?_, ?_⟩⟩⟩
  · have hcompletes := (writesMaybe_fromle d s).completes_decode (leInt_bufRead_lt s 0 32)
    rwa [Bool.true_and] at hcompletes
  · have hcompletes := (writesMaybe_frombe d s).completes_decode (beInt_bufRead_lt s 0 32)
    rwa [Bool.true_and] at hcompletes

/-! ### HEXDEC -/

/-- The byte of two hex characters, the high nibble first (R206). -/
def hexByte (h l : Byte) : Byte := BitVec.ofNat 8 (16 * (nib h).1 + (nib l).1)

theorem hexBytes_cons (h l : Byte) (rest : List Byte) : hexBytes (h :: l :: rest) =
    (hexByte h l :: (hexBytes rest).1, (nib h).2 && ((nib l).2 && (hexBytes rest).2)) := rfl

/-- The bytes of a hex string in BUF (R207). -/
theorem hexBytes_readBytes_fst (m : Memory) (off n : Nat) : (hexBytes (m.readBytes off (2 * n))).1 =
    (List.range n).map fun j => hexByte (m.read (off + 2 * j)) (m.read (off + 2 * j + 1)) := by
  induction n generalizing off with
  | zero => rfl
  | succ n ih =>
    rw [Nat.mul_succ, Memory.readBytes, Memory.readBytes, hexBytes_cons, ih, List.range_succ_eq_map, List.map_cons,
      List.map_map]
    have hshift (j : Nat) : off + 1 + 1 + 2 * j = off + 2 * (j + 1) := by omega
    simp only [hshift]
    rfl

/-- A hex string in BUF is readable when each of its characters is a hex character (R207). -/
theorem hexBytes_readBytes_snd (m : Memory) (off n : Nat) : (hexBytes (m.readBytes off (2 * n))).2 = true ↔
    ∀ k < 2 * n, (nib (m.read (off + k))).2 = true := by
  induction n generalizing off with
  | zero => simp [Memory.readBytes, hexBytes]
  | succ n ih =>
    have hshift (k : Nat) : off + (k + 1 + 1) = off + 1 + 1 + k := by omega
    rw [Nat.mul_succ, Memory.readBytes, Memory.readBytes, hexBytes_cons, Nat.forall_lt_succ_left,
      Nat.forall_lt_succ_left, Bool.and_eq_true, Bool.and_eq_true, ih]
    simp only [hshift]
    rfl

theorem writesMaybe_hexdec (d : Reg) {o : Imm} (ho : o.toNat ≤ 1) (s : State) : WritesMaybe (.hexdec d o) s [] d
    (lift (orderedInt (o.getLsbD 0) (hexBytes (s.bufRead 0 64)).1))
    ((hexBytes (s.bufRead 0 64)).2 && ltQ (limbs4 (orderedInt (o.getLsbD 0) (hexBytes (s.bufRead 0 64)).1))) :=
  if_pos ho

/-- The string order of HEXDEC is bit 0 of its immediate (R207). -/
theorem orderedInt_of_imm {o : Imm} (ho : o.toNat ≤ 1) (bs : List Byte) :
    orderedInt (o.getLsbD 0) bs = if o = 0 then beInt bs else leInt bs := by
  obtain rfl | rfl := imm_eq_zero_or_one ho <;> rfl

theorem orderedInt_lt (little : Bool) (bs : List Byte) : orderedInt little bs < 256 ^ bs.length := by
  cases little
  · exact beInt_lt bs
  · exact leInt_lt bs

/-- Settles O29, by the validating decode of the integer of the string's 32 bytes. -/
theorem hexdecDecodesAHexString : Obligations.HexdecDecodesAHexString := by
  refine ⟨opcodeOnly_of_rowOf rfl fun f hwf => ⟨f.rd, f.imm, of_decide_eq_true hwf, rfl⟩, fun d o ho =>
    ⟨isEncoding_imm 0x34 (decide_eq_true ho) rfl, fun s => ?_⟩⟩
  intro byte bytes n ok
  have hbytes : (hexBytes (s.bufRead 0 64)).1 = bytes :=
    (hexBytes_readBytes_fst s.buf 0 32).trans (List.map_congr_left fun j _ => by rw [Nat.zero_add]; rfl)
  have hreadable : (hexBytes (s.bufRead 0 64)).2 = true ↔ ∀ k < 64, (nib (s.byteAt k)).2 = true :=
    (hexBytes_readBytes_snd s.buf 0 32).trans (by simp only [Nat.zero_add]; rfl)
  have hn : orderedInt (o.getLsbD 0) (hexBytes (s.bufRead 0 64)).1 = n := by
    rw [hbytes, orderedInt_of_imm ho]
  have hlt : n < 2 ^ 256 := by
    have h := orderedInt_lt (o.getLsbD 0) bytes
    rw [← hbytes, hn, hbytes, List.length_map, List.length_range] at h
    exact h.trans_eq (by norm_num)
  have hwrites := writesMaybe_hexdec d ho s
  rw [hn] at hwrites
  obtain ⟨t, hexec, helem, hc, hvalid, hval, hframe⟩ := hwrites.completes_decode hlt
  have hok : ((hexBytes (s.bufRead 0 64)).2 && decide (n < q)) = true ↔ ok := by
    rw [Bool.and_eq_true, decide_eq_true_iff, hreadable]
  refine ⟨t, hexec, helem, fun h => ⟨?_, ?_, hval h.2⟩, fun h => ⟨?_, ?_⟩, hframe⟩
  · rw [hc, hok.2 h]
  · rw [hvalid, hok.2 h]
  · rw [hc, Bool.eq_false_iff, Ne, hok]
    exact h
  · rw [hvalid, Bool.eq_false_iff, Ne, hok]
    exact h

/-! ### The round trips through BUF -/

/-- A command that writes a register's bytes, then one that decodes these bytes to its value, give the register
back (R204, R205, R208). -/
theorem decode_of_encoded {i j : Instr} {a d : Reg} {s : State} {bs : List Byte} {n : Nat}
    (ha : s.validAt a = true) (hs : s.Inv) (henc : Encodes i s a bs) (hlength : bs.length = n)
    (hdec : ∀ t : State, t.bufRead 0 n = bs →
      WritesMaybe j t [] d (lift (s.elem a).val) (true && ltQ (limbs4 (s.elem a).val))) :
    ∃ t u, exec i s = .next t ∧ exec j t = .next u ∧
      u.c = true ∧ u.validAt d = true ∧ u.elem d = s.elem a := by
  obtain ⟨hregs, -, -, hbuf⟩ := hs
  have hval := val_lt (s.elem a)
  obtain ⟨t, hexec, hread, -⟩ := henc.completes ha hbuf hlength
  obtain ⟨u, hexec', helem, hc, hvalid, -⟩ := (hdec t hread).completes_decode (hval.trans (q_lt.trans (by decide)))
  refine ⟨t, u, hexec, hexec', ?_, ?_, ?_⟩
  · rw [hc, decide_eq_true hval, Bool.and_self]
  · rw [hvalid, decide_eq_true hval, Bool.and_self]
  · rw [helem, mont_of_val (hregs a ha)]

/-- The bit of HEXDEC's immediate is the string order of HEXENC's in the matching order (R207, R208). -/
theorem imm_order_match {f o : Imm} (ho : o.toNat = f.toNat / 2) :
    o.getLsbD 0 = f.getLsbD 1 := by
  rw [← BitVec.testBit_toNat, ← BitVec.testBit_toNat, ho, Nat.testBit_eq_decide_div_mod_eq,
    Nat.testBit_eq_decide_div_mod_eq, pow_zero, Nat.div_one, pow_one]

/-- Settles O34, by the round trip of each encoding: its bytes decode to the register's value. -/
theorem decodeOfEncodedRegisterIsTheRegister : Obligations.DecodeOfEncodedRegisterIsTheRegister := by
  intro a d s ha hs
  have hlt : (s.elem a).val < 2 ^ 256 := (val_lt _).trans (q_lt.trans (by decide))
  have hlt' : (s.elem a).val < 256 ^ 32 := hlt.trans_eq (by norm_num)
  refine ⟨?_, ?_, fun f o hf ho => ?_⟩
  · refine decode_of_encoded ha hs (encodes_tole a s) (length_leBytes ..) fun t hread => ?_
    have hdec := writesMaybe_fromle d t
    rwa [hread, leInt_leBytes_of_lt hlt'] at hdec
  · refine decode_of_encoded ha hs (encodes_tobe a s) (length_beBytes ..) fun t hread => ?_
    have hdec := writesMaybe_frombe d t
    rwa [hread, beInt_beBytes_of_lt hlt'] at hdec
  · have henc := encodes_hexenc a hf s
    rw [← orderedBytes_of_imm hf] at henc
    refine decode_of_encoded (n := 64) ha hs henc (by simp) fun t hread => ?_
    have hdec := writesMaybe_hexdec d (o := o) (by omega) t
    rwa [hread, hexBytes_hexString, imm_order_match ho, orderedInt_orderedBytes _ hlt] at hdec

end Sys2Proof.Machine

/-! PROOFS. SQRT of 42_derived.md: the inner loop finds the order of b and the power of z that cancels it, the outer
loop keeps x^2 = a b until b = 1 and a root from then on, so the candidate of a square is a root of it; and the
obligations settled from this, with the count of the squares of a finite field. -/

namespace Sys2Proof.Machine

/-! ### Facts of a field -/

/-- An element that is not 1 and has 1 among its powers to 2^i has order 2^(m+1) for one m, and its power to 2^m is
-1. -/
theorem exists_pow_two_pow_eq_neg_one {F : Type*} [Field F] {β : F} {n : Nat} (h : β ^ 2 ^ n = 1) (hne : β ≠ 1) :
    ∃ m < n, β ^ 2 ^ m = -1 ∧ β ^ 2 ^ (m + 1) = 1 ∧ ∀ i ≤ m, β ^ 2 ^ i ≠ 1 := by
  classical
  have hex : ∃ i, β ^ 2 ^ i = 1 := ⟨n, h⟩
  obtain ⟨m, hm⟩ : ∃ m, Nat.find hex = m + 1 := Nat.exists_eq_succ_of_ne_zero fun h0 => by
    have := Nat.find_spec hex
    rw [h0, pow_zero, pow_one] at this
    exact hne this
  have hspec : β ^ 2 ^ (m + 1) = 1 := hm ▸ Nat.find_spec hex
  have hmin (i : Nat) (hi : i ≤ m) : β ^ 2 ^ i ≠ 1 := Nat.find_min hex (by omega)
  refine ⟨m, ?_, ?_, hspec, hmin⟩
  · have := Nat.find_min' hex h
    omega
  · rw [pow_succ 2, pow_mul] at hspec
    exact (sq_eq_one_iff.1 hspec).resolve_left (hmin m le_rfl)

/-! ### The inner loop -/

/-- An iteration of the inner loop before tmp is 1: tmp is squared and j is kept as k (R175). -/
theorem rootInnerStep_of_ne {s : RootInner} (h : s.tmp ≠ ONE) (v j : Nat) :
    rootInnerStep v j s = ⟨s.z, sqr s.tmp, j, s.jlt && (j != v)⟩ := by
  simp [rootInnerStep, eqBit_eq, h, sel_eq]

/-- An iteration after that: z is squared, as long as j has not reached v (R175). -/
theorem rootInnerStep_of_eq {s : RootInner} (h : s.tmp = ONE) (v j : Nat) :
    rootInnerStep v j s = ⟨if s.jlt && (j != v) then sqr s.z else s.z, s.tmp, s.k, s.jlt && (j != v)⟩ := by
  simp [rootInnerStep, eqBit_eq, h, sel_eq]

/-- The inner loop leaves in z a power of its z to some 2^e. -/
theorem exists_residue_innerOf_z {s : RootOuter} (hs : s.Reduced) (maxV : Nat) :
    ∃ e, residue (innerOf maxV s).z = residue s.z ^ 2 ^ e := by
  have hend := countUp_induction (f := rootInnerStep s.v) (j := 2) (x := ⟨s.z, sqr s.b, 1, true⟩)
    (P := fun _ t => t.Reduced ∧ ∃ e, residue t.z = residue s.z ^ 2 ^ e)
    (fun j t _ ⟨ht, e, he⟩ => ⟨rootInnerStep_reduced s.v j ht, ?_⟩) (maxV - 2) ⟨⟨hs.z, sqr_lt hs.b⟩, 0, by simp⟩
  · obtain ⟨-, hresult⟩ := hend
    exact hresult
  · by_cases hone : t.tmp = ONE
    · rw [rootInnerStep_of_eq hone]
      split
      · exact ⟨e + 1, by rw [residue_sqr ht.z, he, ← pow_mul, ← pow_succ]⟩
      · exact ⟨e, he⟩
    · rw [rootInnerStep_of_ne hone]
      exact ⟨e, he⟩

/-- The inner loop before iteration j, for the order 2^m of β: k counts the squarings of tmp up to m, and from then
on z is squared until j reaches v. -/
structure InnerSearch (β ζ : ZMod q) (m v j : Nat) (s : RootInner) : Prop where
  reduced : s.Reduced
  tmp : residue s.tmp = β ^ 2 ^ s.k
  k : s.k = min m (j - 1)
  jlt : s.jlt = decide (j ≤ v)
  z : residue s.z = ζ ^ 2 ^ (min j v - 1 - m)

section
variable {β ζ : ZMod q} {m v : Nat} (hm : β ^ 2 ^ m = 1) (hmin : ∀ i, 0 < i → i < m → β ^ 2 ^ i ≠ 1)
include hm hmin

theorem InnerSearch.step {j : Nat} {s : RootInner} (hj : 2 ≤ j) (h : InnerSearch β ζ m v j s) :
    InnerSearch β ζ m v (j + 1) (rootInnerStep v j s) := by
  obtain ⟨⟨hz, htmp⟩, hpow, hk, hjlt, hzpow⟩ := h
  have hone : s.tmp = ONE ↔ m ≤ j - 1 := by
    rw [← residue_eq_iff htmp ONE_lt, residue_ONE, hpow, hk]
    refine ⟨fun h1 => ?_, fun h1 => by rw [min_eq_left h1, hm]⟩
    by_contra hlt
    rw [min_eq_right (by omega)] at h1
    exact hmin (j - 1) (by omega) (by omega) h1
  have hjlt' : (s.jlt && (j != v)) = decide (j + 1 ≤ v) := by
    rw [hjlt, Bool.eq_iff_iff]
    simp only [Bool.and_eq_true, decide_eq_true_iff, bne_iff_ne]
    omega
  by_cases hle : m ≤ j - 1
  · refine ⟨rootInnerStep_reduced v j ⟨hz, htmp⟩, ?_, ?_, ?_, ?_⟩ <;> rw [rootInnerStep_of_eq (hone.2 hle)]
    · exact hpow
    · exact hk.trans (by omega)
    · exact hjlt'
    · simp only [hjlt', decide_eq_true_iff]
      split_ifs with hv
      · rw [residue_sqr hz, hzpow, ← pow_mul, ← pow_succ]
        congr 2
        omega
      · rw [hzpow]
        congr 2
        omega
  · refine ⟨rootInnerStep_reduced v j ⟨hz, htmp⟩, ?_, ?_, ?_, ?_⟩ <;> rw [rootInnerStep_of_ne (mt hone.1 hle)]
    · have hk' : s.k + 1 = j := by omega
      rw [residue_sqr htmp, hpow, ← pow_mul, ← pow_succ, hk']
    · show j = _
      omega
    · exact hjlt'
    · show residue s.z = _
      rw [hzpow]
      congr 2
      omega

end

/-- What the inner loop finds: the order of b, and the power of z of twice that order (R175). -/
theorem innerOf_search {s : RootOuter} (hs : s.Reduced) {m maxV : Nat} (hpos : 0 < m) (hv : m < s.v)
    (hmax : s.v ≤ maxV) (hm : residue s.b ^ 2 ^ m = 1) (hmin : ∀ i, 0 < i → i < m → residue s.b ^ 2 ^ i ≠ 1) :
    (innerOf maxV s).k = m ∧ residue (innerOf maxV s).z = residue s.z ^ 2 ^ (s.v - 1 - m) := by
  have hstart : InnerSearch (residue s.b) (residue s.z) m s.v 2 ⟨s.z, sqr s.b, 1, true⟩ := by
    refine ⟨⟨hs.z, sqr_lt hs.b⟩, ?_, ?_, ?_, ?_⟩
    · rw [residue_sqr hs.b, pow_one]
    · show 1 = _
      omega
    · exact (decide_eq_true (by omega)).symm
    · rw [show min 2 s.v - 1 - m = 0 by omega, pow_zero, pow_one]
  have hend := countUp_induction (f := rootInnerStep s.v)
    (P := InnerSearch (residue s.b) (residue s.z) m s.v)
    (fun j _ hj hsearch => hsearch.step hm hmin hj) (maxV - 2) hstart
  refine ⟨hend.k.trans (by omega), hend.z.trans ?_⟩
  congr 2
  omega

/-! ### The outer loop -/

/-- The outer loop while it searches, with n iterations to come: x^2 = a b, z has order 2^v and b a smaller one, and
v is at most n. -/
structure RootSearch (α : ZMod q) (n : Nat) (s : RootOuter) : Prop where
  reduced : s.Reduced
  v_pos : 0 < s.v
  v_le : s.v ≤ n
  square : residue s.x ^ 2 = α * residue s.b
  order_b : residue s.b ^ 2 ^ (s.v - 1) = 1
  order_z : residue s.z ^ 2 ^ (s.v - 1) = -1

/-- The outer loop when it has found a root: x is one, and z is 1 or -1. -/
structure RootFound (α : ZMod q) (s : RootOuter) : Prop where
  reduced : s.Reduced
  square : residue s.x ^ 2 = α
  z : residue s.z ^ 2 = 1

/-- The new x of an iteration (R175). -/
theorem rootOuterStep_x (maxV : Nat) (s : RootOuter) :
    (rootOuterStep maxV s).x = if s.b = ONE then s.x else mul s.x (innerOf maxV s).z := by
  rw [rootOuterStep_eq, eqBit_eq, sel_eq]
  simp only [decide_eq_true_iff]

/-- A root found stays one, for x is multiplied at most by a power of z, whose square is 1. -/
theorem RootFound.step {α : ZMod q} {s : RootOuter} (h : RootFound α s) (maxV : Nat) :
    RootFound α (rootOuterStep maxV s) := by
  obtain ⟨hs, hx, hz⟩ := h
  obtain ⟨e, he⟩ := exists_residue_innerOf_z hs maxV
  have hz' := (innerOf_reduced maxV hs).z
  have hone : residue (innerOf maxV s).z ^ 2 = 1 := by
    rw [he, ← pow_mul, mul_comm, pow_mul, hz, one_pow]
  refine ⟨rootOuterStep_reduced maxV hs, ?_, ?_⟩
  · rw [rootOuterStep_x]
    split_ifs
    · exact hx
    · rw [residue_mul hs.x, mul_pow, hx, hone, mul_one]
  · rw [rootOuterStep_eq, residue_sqr hz', hone, one_pow]

/-- A search with b = 1 has found a root. -/
theorem RootSearch.found {α : ZMod q} {n : Nat} {s : RootOuter} (h : RootSearch α (n + 1) s) (hb : s.b = ONE) :
    RootFound α (rootOuterStep (n + 1) s) := by
  obtain ⟨hs, hpos, hle, hx, -, hz⟩ := h
  have hz' := (innerOf_reduced (n + 1) hs).z
  have hone : residue s.b = 1 := by rw [hb, residue_ONE]
  refine ⟨rootOuterStep_reduced (n + 1) hs, ?_, ?_⟩
  · rw [rootOuterStep_x, if_pos hb, hx, hone, mul_one]
  · rw [rootOuterStep_eq, residue_sqr hz', ← pow_mul]
    obtain hv | hv : s.v = 1 ∨ 1 < s.v := by omega
    · obtain ⟨e, he⟩ := exists_residue_innerOf_z hs (n + 1)
      rw [hv, Nat.sub_self, pow_zero, pow_one] at hz
      rw [he, hz, ← pow_mul]
      exact Even.neg_one_pow ⟨2 ^ e * 2, by ring⟩
    · obtain ⟨-, he⟩ := innerOf_search hs one_pos hv hle (by rw [hone, one_pow]) (by omega)
      rw [he, ← pow_mul, show 2 ^ (s.v - 1 - 1) * (2 * 2) = 2 ^ (s.v - 1) * 2 by
        rw [← mul_assoc, ← pow_succ, show s.v - 1 - 1 + 1 = s.v - 1 by omega], pow_mul, hz, neg_one_sq]

/-- A search with b not 1 goes on with an order of b smaller than before. -/
theorem RootSearch.step {α : ZMod q} {n : Nat} {s : RootOuter} (h : RootSearch α (n + 1) s) (hb : s.b ≠ ONE) :
    RootSearch α n (rootOuterStep (n + 1) s) := by
  have : Fact (Nat.Prime q) := ⟨Laws.q_prime⟩
  obtain ⟨hs, hpos, hle, hx, horder, hz⟩ := h
  have hz' := (innerOf_reduced (n + 1) hs).z
  have hne : residue s.b ≠ 1 := by
    rwa [← residue_ONE, Ne, residue_eq_iff hs.b ONE_lt]
  obtain ⟨m, hm, hneg, hone, hmin⟩ := exists_pow_two_pow_eq_neg_one horder hne
  obtain ⟨hk, hres⟩ := innerOf_search hs (m := m + 1) (by omega) (by omega) hle hone
    (fun i _ hi => hmin i (by omega))
  have hnew : residue (sqr (innerOf (n + 1) s).z) ^ 2 ^ m = -1 := by
    rw [residue_sqr hz', hres, ← pow_mul, ← pow_mul, ← pow_succ', ← pow_add,
      show s.v - 1 - (m + 1) + (m + 1) = s.v - 1 by omega, hz]
  refine ⟨rootOuterStep_reduced (n + 1) hs, ?_, ?_, ?_, ?_, ?_⟩
  · rw [rootOuterStep_eq, hk]
    exact Nat.succ_pos m
  · rw [rootOuterStep_eq, hk]
    show m + 1 ≤ n
    omega
  · rw [rootOuterStep_x, if_neg hb, rootOuterStep_eq, residue_mul hs.x, residue_mul hs.b, residue_sqr hz', mul_pow,
      hx, mul_assoc]
  · rw [rootOuterStep_eq, hk, Nat.add_sub_cancel, residue_mul hs.b, mul_pow, hneg, hnew]
    ring
  · rw [rootOuterStep_eq, hk, Nat.add_sub_cancel, hnew]

/-- The outer loop ends with a root: a search has no order left for b but 1. -/
theorem rootOuter_found {α : ZMod q} {n : Nat} {s : RootOuter} (h : RootSearch α n s) :
    RootFound α (rootOuter n s) := by
  have hend := countDown_induction (f := fun i t => rootOuterStep (i + 1) t)
    (P := fun i t => RootFound α t ∨ RootSearch α i t) (fun i t ht => ?_) (.inr h : RootFound α s ∨ RootSearch α n s)
  · obtain hfound | hsearch := hend
    · exact hfound
    · exact absurd hsearch.v_le (Nat.not_le.2 hsearch.v_pos)
  · obtain hfound | hsearch := ht
    · exact .inl (hfound.step (i + 1))
    · by_cases hb : t.b = ONE
      · exact .inl (hsearch.found hb)
      · exact .inr (hsearch.step hb)

/-- The candidate root of 0 is 0. -/
theorem rootOuter_x_zero {n : Nat} {s : RootOuter} (hs : s.Reduced) (hx : residue s.x = 0) :
    residue (rootOuter n s).x = 0 := by
  have hend := countDown_induction (f := fun i t => rootOuterStep (i + 1) t) (n := n)
    (P := fun _ t => t.Reduced ∧ residue t.x = 0)
    (fun i t ⟨ht, hzero⟩ => ⟨rootOuterStep_reduced (i + 1) ht, ?_⟩) ⟨hs, hx⟩
  · obtain ⟨-, hresult⟩ := hend
    exact hresult
  · rw [rootOuterStep_x]
    split_ifs
    · exact hzero
    · rw [residue_mul ht.x, hzero, zero_mul]

/-! ### The start of the outer loop -/

/-- A power modulo q that `powMod` computes, in ZMod q. -/
theorem natCast_pow_of_powMod {n b e r : Nat} (he : e < 2 ^ n) (hr : Laws.powMod q n b e = r) :
    (b : ZMod q) ^ e = r := by
  rw [← hr, Laws.powMod_eq q n b e he, ZMod.natCast_mod, Nat.cast_pow]

/-- The root of unity has order 2^32 (R174). -/
theorem residue_ZROOT_pow : residue ZROOT ^ 2 ^ (twoAdicity - 1) = -1 := by
  have hpow := natCast_pow_of_powMod (n := 32) (b := ZROOT.val) (e := 2 ^ (twoAdicity - 1)) (r := q - 1)
    (by decide +kernel) (by decide +kernel)
  rwa [Nat.cast_sub (show 1 ≤ q from q_pos), CharP.cast_eq_zero (ZMod q) q, Nat.cast_one, zero_sub] at hpow

/-- The outer loop starts as a search for an operand whose power (q-1)/2 is 1: b is its power t = 2 TM1D2 + 1, of an
order that divides 2^31 (R175). -/
theorem rootStart_search {A : Elem} (hA : A.int < q) (h : residue A ^ ((q - 1) / 2) = 1) :
    RootSearch (residue A) twoAdicity (rootStart A) := by
  obtain ⟨e, he, hw⟩ : ∃ e, (2 * e + 1) * 2 ^ (twoAdicity - 1) = (q - 1) / 2 ∧
      residue (powCt A TM1D2) = residue A ^ e :=
    ⟨TM1D2, by decide +kernel, residue_powCt hA (by decide)⟩
  have hwlt := powCt_lt hA TM1D2
  have hx : residue (rootStart A).x = residue A ^ e * residue A := by rw [rootStart, residue_mul hwlt, hw]
  have hb : residue (rootStart A).b = residue A ^ (2 * e + 1) := by
    rw [rootStart, residue_mul (mul_lt_right _ hA), residue_mul hwlt, hw]
    ring
  refine ⟨rootStart_reduced hA, Nat.succ_pos _, le_rfl, ?_, ?_, residue_ZROOT_pow⟩
  · rw [hx, hb]
    ring
  · rw [hb, ← pow_mul]
    exact he ▸ h

/-! ### The candidate root -/

/-- Euler's criterion for a stored value, its power (q-1)/2 being 0 or 1 (R176). -/
theorem isSquare_residue_iff_pow (A : Elem) :
    IsSquare (residue A) ↔ residue A ^ ((q - 1) / 2) = 0 ∨ residue A ^ ((q - 1) / 2) = 1 := by
  have : Fact (Nat.Prime q) := ⟨Laws.q_prime⟩
  have hhalf : q / 2 = (q - 1) / 2 := by decide
  have hpos : (q - 1) / 2 ≠ 0 := by decide
  rw [pow_eq_zero_iff hpos]
  by_cases hzero : residue A = 0
  · simp [hzero]
  · rw [ZMod.euler_criterion q hzero, hhalf, or_iff_right hzero]

/-- The candidate of a square is a root of it (R175). -/
theorem residue_sqrtCandidate_sq {A : Elem} (hA : A.int < q) (h : IsSquare (residue A)) :
    residue (sqrtCandidate A) ^ 2 = residue A := by
  have : Fact (Nat.Prime q) := ⟨Laws.q_prime⟩
  rw [sqrtCandidate_eq]
  obtain hzero | hone := (isSquare_residue_iff_pow A).1 h
  · have hA0 : residue A = 0 := eq_zero_of_pow_eq_zero hzero
    have hx : residue (rootStart A).x = 0 := by
      rw [rootStart, residue_mul (powCt_lt hA _), hA0, mul_zero]
    rw [rootOuter_x_zero (rootStart_reduced hA) hx, hA0, zero_pow two_ne_zero]
  · exact (rootOuter_found (rootStart_search hA hone)).square

/-- The presence bit of SQRT is set exactly for a square (R175, R176). -/
theorem rootBit_sqrtCandidate {A : Elem} (hA : A.int < q) :
    rootBit (sqrtCandidate A) A = true ↔ IsSquare (residue A) := by
  have hx := sqrtCandidate_lt hA
  rw [rootBit, eqBit_eq, decide_eq_true_iff, ← residue_eq_iff (sqr_lt hx) hA, residue_sqr hx]
  exact ⟨fun h => ⟨_, by rw [← h, pow_two]⟩, residue_sqrtCandidate_sq hA⟩

/-- The square of a stored value in ZMod q, as the square of the value it represents. -/
theorem val_mul_self_of_residue {X A : Elem} (h : residue X ^ 2 = residue A) : X.val * X.val % q = A.val := by
  rw [residue, residue, pow_two, ← Nat.cast_mul, ZMod.natCast_eq_natCast_iff', Nat.mod_eq_of_lt (val_lt A)] at h
  exact h

theorem isSquare_residue_iff (A : Elem) : IsSquare (residue A) ↔ ∃ r, r * r % q = A.val := by
  constructor
  · rintro ⟨r, hr⟩
    refine ⟨r.val, ?_⟩
    have hval := congrArg ZMod.val hr
    rw [residue, ZMod.val_mul, ZMod.val_natCast, Nat.mod_eq_of_lt (val_lt A)] at hval
    exact hval.symm
  · rintro ⟨r, hr⟩
    exact ⟨r, by rw [residue, ← hr, ZMod.natCast_mod, Nat.cast_mul]⟩

/-! ### SQRT -/

/-- The destination of SQRT, for either unit, has VALID and C at the presence bit (R175). -/
theorem execSqrtWith_completes (choice : RootChoice) (d : Reg) {a : Reg} {s : State} (ha : s.validAt a = true) :
    ∃ t, execSqrtWith choice d a s = .next t ∧ t.elem d = chosenRoot choice (s.elem a) ∧
      t.c = rootBit (sqrtCandidate (s.elem a)) (s.elem a) ∧ t.validAt d = t.c ∧ Frame (some d) true 0 s t :=
  ⟨_, withSources_one ha _, by simp, rfl, by simp, frame_putMaybe ..⟩

/-- Either unit returns the candidate or its negation (R175, D24). -/
theorem chosenRoot_cases (choice : RootChoice) (A : Elem) :
    chosenRoot choice A = sqrtCandidate A ∨ chosenRoot choice A = negm (sqrtCandidate A) := by
  cases choice with
  | exact => exact .inl rfl
  | either =>
    by_cases h : Config.negatesRoot A = true
    · exact .inr (if_pos h)
    · exact .inl (if_neg h)

theorem chosenRoot_lt (choice : RootChoice) {A : Elem} (hA : A.int < q) : (chosenRoot choice A).int < q := by
  obtain h | h := chosenRoot_cases choice A <;> rw [h]
  · exact sqrtCandidate_lt hA
  · exact negm_lt (sqrtCandidate_lt hA)

/-- Either root of a square squares to it. -/
theorem residue_chosenRoot_sq (choice : RootChoice) {A : Elem} (hA : A.int < q) (h : IsSquare (residue A)) :
    residue (chosenRoot choice A) ^ 2 = residue A := by
  obtain hroot | hroot := chosenRoot_cases choice A <;> rw [hroot]
  · exact residue_sqrtCandidate_sq hA h
  · rw [residue_negm (sqrtCandidate_lt hA), neg_sq, residue_sqrtCandidate_sq hA h]

/-- Settles O23, by the presence bit, which is set only for a square, and the two roots of a square. -/
theorem sqrtPresentResultIsARoot : Obligations.SqrtPresentResultIsARoot := by
  intro choice d a s ha hred
  obtain ⟨t, hexec, helem, hc, hvalid, hframe⟩ := execSqrtWith_completes choice d ha
  refine ⟨t, hexec, hvalid, ?_, fun hpresent => ?_, hframe⟩ <;> rw [helem]
  · exact chosenRoot_lt choice (hred a ha)
  · rw [hc, rootBit_sqrtCandidate (hred a ha)] at hpresent
    exact val_mul_self_of_residue (residue_chosenRoot_sq choice (hred a ha) hpresent)

/-- What the model's SQRT does with a valid source: its root is the candidate (R175; log 3). -/
theorem exec_sqrt_completes (d : Reg) {a : Reg} {s : State} (ha : s.validAt a = true) :
    Completes (.sqrt d a) s fun t => t.elem d = sqrtCandidate (s.elem a) ∧
      t.c = rootBit (sqrtCandidate (s.elem a)) (s.elem a) ∧ t.validAt d = t.c ∧ Frame (some d) true 0 s t :=
  execSqrtWith_completes .exact d ha

/-- Settles O24, by the presence bit, which is set exactly for a square, and the candidate, a root of it. -/
theorem sqrtIsPresentExactlyOnSquares : Obligations.SqrtIsPresentExactlyOnSquares := by
  refine ⟨opcodeOnly_of_rowOf rfl fun f _ => ⟨f.rd, f.rs1, rfl⟩, fun d a =>
    ⟨isEncoding_two 0x23 rfl rfl, fun s => ⟨fun ha hred => ?_, raises_uninit rfl (by simp [sources])⟩⟩⟩
  obtain ⟨t, hexec, helem, hc, hvalid, hframe⟩ := exec_sqrt_completes d ha
  rw [hc] at hvalid
  have hpresent := rootBit_sqrtCandidate (hred a ha)
  refine ⟨t, hexec, helem, fun hsq => ?_, fun hnone => ?_, hframe⟩ <;> rw [hc, hvalid]
  · have hsquare := (isSquare_residue_iff _).2 hsq
    refine ⟨hpresent.2 hsquare, hpresent.2 hsquare, ?_⟩
    rw [helem, val_mul_self_of_residue (residue_sqrtCandidate_sq (hred a ha) hsquare)]
  · have habsent := Bool.eq_false_iff.2 (mt hpresent.1 (mt (isSquare_residue_iff _).1 hnone))
    exact ⟨habsent, habsent⟩

/-! ### The count of the squares -/

/-- Of the p elements of a finite field of odd characteristic (p+1)/2 are squares: the quadratic character takes each
of 1 and -1 equally often, and 0 once. -/
theorem two_mul_card_isSquare {F : Type*} [Field F] [Fintype F] [DecidableEq F] (hF : ringChar F ≠ 2) :
    2 * (Finset.univ.filter fun a : F => IsSquare a).card = Fintype.card F + 1 := by
  have hterm (a : F) : (2 * if IsSquare a then 1 else 0 : ℤ) = quadraticChar F a + 1 + if a = 0 then 1 else 0 := by
    by_cases hzero : a = 0
    · simp [hzero]
    · by_cases hsq : IsSquare a
      · rw [(quadraticChar_one_iff_isSquare hzero).2 hsq, if_pos hsq, if_neg hzero]
        norm_num
      · rw [quadraticChar_neg_one_iff_not_isSquare.2 hsq, if_neg hsq, if_neg hzero]
        norm_num
  have hsum := Finset.sum_congr (rfl : (Finset.univ : Finset F) = Finset.univ) fun a _ => hterm a
  rw [← Finset.mul_sum, Finset.sum_add_distrib, Finset.sum_add_distrib, quadraticChar_sum_zero hF] at hsum
  simp only [Finset.sum_boole, Finset.sum_const, Finset.card_univ, Finset.filter_eq', Finset.mem_univ, if_true,
    Finset.card_singleton, nsmul_eq_mul, mul_one, zero_add] at hsum
  exact_mod_cast hsum

/-- Exactly (q+1)/2 of the stored values below q pass the presence test of SQRT (R176). -/
theorem card_rootBit : ((Finset.range q).filter fun a =>
    rootBit (sqrtCandidate (mont a)) (mont a) = true).card = (q + 1) / 2 := by
  have : Fact (Nat.Prime q) := ⟨Laws.q_prime⟩
  have hpresent (a : Nat) : rootBit (sqrtCandidate (mont a)) (mont a) = true ↔ IsSquare (a : ZMod q) := by
    rw [rootBit_sqrtCandidate (mont_lt a), residue_mont]
  have hcard : ((Finset.range q).filter fun a => rootBit (sqrtCandidate (mont a)) (mont a) = true).card =
      (Finset.univ.filter fun a : ZMod q => IsSquare a).card := by
    refine Finset.card_nbij' (fun a => (a : ZMod q)) ZMod.val ?_ ?_ ?_ ?_
    · intro a ha
      simpa [hpresent] using (Finset.mem_filter.1 ha).2
    · intro b hb
      simpa [hpresent, ZMod.val_lt] using hb
    · intro a ha
      exact ZMod.val_cast_of_lt (Finset.mem_range.1 (Finset.mem_filter.1 ha).1)
    · intro b _
      exact ZMod.natCast_zmod_val b
  have hchar : ringChar (ZMod q) ≠ 2 := by
    rw [ZMod.ringChar_zmod_n]
    decide
  have hcount := two_mul_card_isSquare hchar
  rw [ZMod.card] at hcount
  omega

/-- A power modulo q and the same power in ZMod q. -/
theorem natCast_pow_eq_iff {v e r : Nat} (hr : r < q) : (v : ZMod q) ^ e = r ↔ v ^ e % q = r := by
  rw [← Nat.cast_pow, ZMod.natCast_eq_natCast_iff', Nat.mod_eq_of_lt hr]

/-- Settles O25, by Euler's criterion for the presence bit and the count of the squares. -/
theorem sqrtFollowsTheEulerCriterion : Obligations.SqrtFollowsTheEulerCriterion := by
  refine ⟨fun d a s ha hred => ?_, card_rootBit, fun d a s ha => ?_⟩
  · obtain ⟨t, hexec, helem, hc, -⟩ := exec_sqrt_completes d ha
    refine ⟨t, hexec, ?_, fun hpresent => ?_⟩
    · rw [hc, rootBit_sqrtCandidate (hred a ha), isSquare_residue_iff_pow, residue,
        ← natCast_pow_eq_iff (r := 0) q_pos, ← natCast_pow_eq_iff (r := 1) (by decide), Nat.cast_zero, Nat.cast_one]
    · rw [hc, rootBit, eqBit_eq, decide_eq_true_iff] at hpresent
      rw [helem, hpresent]
  · obtain ⟨t, hexec, -, hc, -⟩ := exec_sqrt_completes d ha
    exact ⟨t, hexec, hc⟩

end Sys2Proof.Machine
